-- ==== Sys2Proof/Word.lean ====
section
/-! DEFINITION. The word types of the block (R9, R10, R20, R61): bytes, the 16-bit immediate, 32-bit command,
operand and register words, 64-bit physical addresses, and slot indices 0 to 7. All values are unsigned (R10). -/

namespace Sys2Proof

/-- One byte of a frame, a buffer or a descriptor field. -/
abbrev Byte := BitVec 8

/-- A 16-bit value: the sequence number, a descriptor length, a checksum, a PCI identifier. -/
abbrev Half := BitVec 16

/-- A 32-bit word: a command or operand word, a controller register, a session register (R20). -/
abbrev Word := BitVec 32

/-- A 64-bit physical byte address (R9, R61). -/
abbrev Addr := BitVec 64

/-- A slot index 0 to 7: one descriptor and the buffer it addresses (R18). -/
abbrev Slot := Fin 8

/-- The eight slots in ascending order, the order in which `INIT` visits them (R167, R171). -/
def allSlots : List Slot := [0, 1, 2, 3, 4, 5, 6, 7]

end Sys2Proof
end

