-- ==== Sys2Proof/Config.lean ====
section
/-! DEFINITION. What an implementation fixes and what the spec leaves free: the fixed constants of R7 and R9, the
parameter record `Cfg` of R8 (every field OPEN in the spec), the vocabulary of the controller's own accesses
(R86 to R92), and the free values, opaque constants with no body. -/

namespace Sys2Proof

/-- The six bytes of a MAC address, byte 0 first on the wire (R22). -/
structure Mac where
  b0 : Byte
  b1 : Byte
  b2 : Byte
  b3 : Byte
  b4 : Byte
  b5 : Byte
  deriving DecidableEq, Repr, Inhabited

/-- The four bytes of an IPv4 address, byte 0 first on the wire (R8, R116). -/
structure Ipv4 where
  b0 : Byte
  b1 : Byte
  b2 : Byte
  b3 : Byte
  deriving DecidableEq, Repr, Inhabited

/-- The controller's registers that the document names (R30), one name each. -/
inductive Reg where
  | ctrl | status | icause | imask | rctl | tctl | tipg
  | rdbal | rdbah | rdlen | rdh | rdt
  | tdbal | tdbah | tdlen | tdh | tdt
  | macfLo | macfHi
  deriving DecidableEq, Repr, Inhabited

/-- The nineteen named registers in the order of the table of R8. -/
def allRegs : List Reg :=
  [.ctrl, .status, .icause, .imask, .rctl, .tctl, .tipg, .rdbal, .rdbah, .rdlen, .rdh, .rdt,
   .tdbal, .tdbah, .tdlen, .tdh, .tdt, .macfLo, .macfHi]

/-- The parameter record of R8: every constant the document names without giving a value. -/
structure Cfg where
  macAddr : Mac
  srcIp : Ipv4
  dstIp : Ipv4
  icmpIdent : Half
  pciVendorId : Half
  pciDeviceId0 : Half
  pciDeviceId1 : Half
  pciDeviceId2 : Half
  pciIdOff : Byte
  pciCmdOff : Byte
  pciBar0Off : Byte
  pciCmdMse : Word
  pciCmdBme : Word
  regCtrl : Word
  regStatus : Word
  regIcause : Word
  regImask : Word
  regRctl : Word
  regTctl : Word
  regTipg : Word
  regRdbal : Word
  regRdbah : Word
  regRdlen : Word
  regRdh : Word
  regRdt : Word
  regTdbal : Word
  regTdbah : Word
  regTdlen : Word
  regTdh : Word
  regTdt : Word
  regMacfLo : Word
  regMacfHi : Word
  ctrlRst : Word
  imaskAll : Word
  rctlEn : Word
  rctlUnicast : Word
  rctlMpe : Word
  rctlBam : Word
  rctlBsize2k : Word
  rctlSecrc : Word
  tctlEn : Word
  tctlPsp : Word
  tctlColl : Word
  tipgValue : Word
  txcmdEop : Byte
  txcmdIfcs : Byte
  txcmdRs : Byte
  delayMask : Nat
  delayReset : Nat
  txPollDelay : Nat
  txPollMax : Nat
  txDescBase : Addr
  rxDescBase : Addr
  txBufBase : Addr
  rxBufBase : Addr
  msgTxTimeout : List Byte
  deriving DecidableEq, Repr, Inhabited

/-- The offset `REG_<name>` of a named register from `s.base` (R8, R30). -/
def Cfg.offset (c : Cfg) : Reg → Word
  | .ctrl => c.regCtrl
  | .status => c.regStatus
  | .icause => c.regIcause
  | .imask => c.regImask
  | .rctl => c.regRctl
  | .tctl => c.regTctl
  | .tipg => c.regTipg
  | .rdbal => c.regRdbal
  | .rdbah => c.regRdbah
  | .rdlen => c.regRdlen
  | .rdh => c.regRdh
  | .rdt => c.regRdt
  | .tdbal => c.regTdbal
  | .tdbah => c.regTdbah
  | .tdlen => c.regTdlen
  | .tdh => c.regTdh
  | .tdt => c.regTdt
  | .macfLo => c.regMacfLo
  | .macfHi => c.regMacfHi

/-- The named register at a byte offset from `s.base`, if the offset is one of the nineteen (R30). -/
def Cfg.regAt (c : Cfg) (off : Word) : Option Reg :=
  allRegs.find? (fun r => c.offset r == off)

namespace Config

/-- `RING_SIZE` (R7). -/
def ringSize : Nat := 8
/-- `BUF_SIZE` (R7). -/
def bufSize : Nat := 2048
/-- `DESC_SIZE` (R9, decision D8). -/
def descSize : Nat := 16
/-- `FRAME_LEN` (R7). -/
def frameLen : Nat := 98
/-- `PCI_BUS_COUNT` (R7). -/
def pciBusCount : Nat := 8
/-- `PCI_SLOT_COUNT` (R7). -/
def pciSlotCount : Nat := 32
/-- `RX_MIN_LEN_EXCL` (R7): a reply is longer than this. -/
def rxMinLenExcl : Nat := 34

end Config

/-- One access of the controller, the agent `NIC` of R79. The controller makes them on its own between any two
events of the block, in any number and order that the contract of R87 to R90 allows. -/
inductive NicMove where
  /-- Set interrupt-cause bits (R33, R226). -/
  | cause (bits : Word)
  /-- A device reset in progress ends (R91) and leaves these interrupt causes pending (R252: what the registers hold
  after it is not stated). Of the register writes made while it ran it may overwrite the receiver's enable, the
  transmitter's enable and those of the ring registers, each by itself (assumption 18). -/
  | resetDone (rxLost txLost ringsLost : Bool) (causes : Word)
  /-- The transmitter runs although the block has not enabled it: R88 admits a completed send from every state and
  R254 (b) says only that a controller not enabled "most likely never answers" (assumption 39). -/
  | txStart
  /-- Take the TX slot at the head and go on to the next slot (R88). -/
  | txFetch (i : Slot)
  /-- Read the next byte of the descriptor of the `k`-th slot taken (R48 (c), R88, R93). -/
  | txDescByte (k : Nat)
  /-- Read the next byte of the frame of the `k`-th slot taken (R48 (c), R88, R93). -/
  | txFrameByte (k : Nat)
  /-- The frame of the `k`-th slot taken is sent and no report was asked for (R88, R112). -/
  | txSent (k : Nat)
  /-- Write the status byte of the `k`-th slot taken; bit 0 set means the send is complete (R88). -/
  | txStatus (k : Nat) (v : Byte)
  /-- A frame arrives and passes the filters (R48 (d), R86, R89). -/
  | rxArrive (frame : List Byte)
  /-- The frame that has waited longest is dropped (R265). -/
  | rxDrop
  /-- Take an RX slot for the frame that has waited longest (R89). -/
  | rxTake (i : Slot)
  /-- Write the next byte of the frame into the slot's buffer, from byte 0 on (R89). -/
  | rxData (i : Slot)
  /-- The frame is whole: write its length into the RX descriptor (R89). -/
  | rxLen (i : Slot)
  /-- Write the RX descriptor's checksum field, any value (R89, R110). -/
  | rxCsum (i : Slot) (v : Half)
  /-- Write the RX descriptor's errors field, any value (R89, R110). -/
  | rxErrors (i : Slot) (v : Byte)
  /-- Write the RX descriptor's special field, any value (R89, R110). -/
  | rxSpecial (i : Slot) (v : Half)
  /-- Write the RX descriptor's status byte; bit 0 set, last of all, means the frame has arrived (R89, R27). -/
  | rxStatus (i : Slot) (v : Byte)
  deriving DecidableEq, Repr, Inhabited

/-- The parameter record of this implementation. FREE: the spec gives no value (R8; assumption 1). -/
opaque Config.cfg : Cfg

/-- The byte an address holds at power-on. FREE: `any value` (R251, U15; assumption 2). -/
opaque Config.powerOnByte : Nat → Byte

/-- The controller's accesses just before the block's event number `n`. FREE (R79, R88, R89; assumption 3). -/
opaque Config.nicMoves : Nat → List NicMove

/-- What a read of a controller register answers at event number `n`. FREE: a draw (R87, U5; assumption 4). -/
opaque Config.busRead : Nat → Word

/-- What `CfgRead` of a function that exists answers at event number `n`. FREE: a draw (R66, D30; assumption 5). -/
opaque Config.cfgRead : Nat → Word

/-- Whether the PCI function 0 of a bus and slot exists. FREE: the platform's (R66; assumption 5). -/
opaque Config.pciPresent : Nat → Nat → Bool

end Sys2Proof
end

