-- ==== Sys2Proof/Syntax.lean ====
section
/-! DEFINITION. The commands of the block: the record on the command port (R100), the ten operations of the opcode map
(R102), one constructor per row of spec/opcode_table.json, and their textual form (R107). -/

namespace Sys2Proof

/-- The record the command port carries, one at a time: the command word and two operand words (R100). -/
structure Command where
  cw : Word
  a0 : Word
  a1 : Word
  deriving DecidableEq, Repr, Inhabited

/-- The ten operations of R102. Operand words are unsigned 32-bit numbers with no scaling (R101). -/
inductive Instr where
  /-- `FIND_DEVICE` (R150). -/
  | findDevice
  /-- `INIT` (R160). -/
  | init
  /-- `SEND_ECHO seq` (R200). -/
  | sendEcho (seq : Half)
  /-- `CHECK_REPLY` (R210). -/
  | checkReply
  /-- `READ_REG off` (R140). -/
  | readReg (off : Word)
  /-- `WRITE_REG off, value` (R141). -/
  | writeReg (off value : Word)
  /-- `DELAY n` (R142). -/
  | delay (n : Word)
  /-- `FENCE` (R143). -/
  | fence
  /-- `CHECKSUM start, len` (R182). -/
  | checksum (start len : Word)
  /-- `BUILD_FRAME seq` (R185). -/
  | buildFrame (seq : Half)
  deriving DecidableEq, Repr, Inhabited

/-- The mnemonic of R102. -/
def Instr.mnemonic : Instr → String
  | .findDevice => "FIND_DEVICE"
  | .init => "INIT"
  | .sendEcho _ => "SEND_ECHO"
  | .checkReply => "CHECK_REPLY"
  | .readReg _ => "READ_REG"
  | .writeReg _ _ => "WRITE_REG"
  | .delay _ => "DELAY"
  | .fence => "FENCE"
  | .checksum _ _ => "CHECKSUM"
  | .buildFrame _ => "BUILD_FRAME"

/-- The operands a program line writes after the mnemonic (R107). -/
def Instr.operands : Instr → List Nat
  | .findDevice => []
  | .init => []
  | .sendEcho seq => [seq.toNat]
  | .checkReply => []
  | .readReg off => [off.toNat]
  | .writeReg off value => [off.toNat, value.toNat]
  | .delay n => [n.toNat]
  | .fence => []
  | .checksum start len => [start.toNat, len.toNat]
  | .buildFrame seq => [seq.toNat]

/-- One line of a program in the textual syntax of R107, numbers in decimal. -/
def Instr.text (i : Instr) : String :=
  match i.operands with
  | [] => i.mnemonic
  | ns => i.mnemonic ++ " " ++ ", ".intercalate (ns.map toString)

/-- The level of an operation on the command port (R103). -/
inductive Level where
  | top | subBlock
  deriving DecidableEq, Repr

/-- Which of the ten operations the caller's loop uses, and which exercise one sub-block alone (R103). -/
def Instr.level : Instr → Level
  | .findDevice => .top
  | .init => .top
  | .sendEcho _ => .top
  | .checkReply => .top
  | .readReg _ => .subBlock
  | .writeReg _ _ => .subBlock
  | .delay _ => .subBlock
  | .fence => .subBlock
  | .checksum _ _ => .subBlock
  | .buildFrame _ => .subBlock

end Sys2Proof
end

