-- ==== Sys2Proof/WellFormed.lean ====
section
/-! DEFINITION. What the spec requires of an instruction's operands (R72, R105, R182) and of the parameter record
(R8, R75). Neither is checked by the block itself but for the bound of `CHECKSUM`; they are the premises of claims. -/

namespace Sys2Proof

/-- The operands of an instruction are ones the spec gives an effect of its own: a register offset is a multiple of 4
(R72, U6) and a checksum range lies inside one buffer slot (R105, R182). -/
def Instr.wf : Instr → Bool
  | .findDevice => true
  | .init => true
  | .sendEcho _ => true
  | .checkReply => true
  | .readReg off => off.toNat % 4 == 0
  | .writeReg off _ => off.toNat % 4 == 0
  | .delay _ => true
  | .fence => true
  | .checksum start len => decide (start.toNat + len.toNat ≤ 2048)
  | .buildFrame _ => true

/-- A run of bytes of physical memory. -/
structure Region where
  base : Addr
  size : Nat
  deriving DecidableEq, Repr

/-- The address lies in the region. -/
abbrev Region.has (r : Region) (a : Nat) : Prop := r.base.toNat ≤ a ∧ a < r.base.toNat + r.size

/-- Two regions have no byte in common (R75). -/
abbrev Region.disjoint (r q : Region) : Prop :=
  r.base.toNat + r.size ≤ q.base.toNat ∨ q.base.toNat + q.size ≤ r.base.toNat

/-- The TX descriptor array (R75). -/
def Cfg.txDescRegion (c : Cfg) : Region := ⟨c.txDescBase, 128⟩
/-- The RX descriptor array (R75). -/
def Cfg.rxDescRegion (c : Cfg) : Region := ⟨c.rxDescBase, 128⟩
/-- The TX packet-buffer pool (R75). -/
def Cfg.txBufRegion (c : Cfg) : Region := ⟨c.txBufBase, 16384⟩
/-- The RX packet-buffer pool (R75). -/
def Cfg.rxBufRegion (c : Cfg) : Region := ⟨c.rxBufBase, 16384⟩

/-- The four static regions, the only ordinary memory the spec says exists (R75). -/
def Cfg.regions (c : Cfg) : List Region :=
  [c.txDescRegion, c.rxDescRegion, c.txBufRegion, c.rxBufRegion]

/-- The address is a byte of one of the four regions. -/
abbrev Cfg.inRam (c : Cfg) (a : Nat) : Prop := ∃ r ∈ c.regions, r.has a

/-- A mask of exactly one bit. -/
abbrev oneBit (m : Word) : Prop := m ≠ 0 ∧ m &&& (m - 1) = 0

/-- The constraints of R8 on the PCI identifiers, offsets and command bits. -/
abbrev Cfg.pciOk (c : Cfg) : Prop :=
  c.pciVendorId ≠ 0 ∧ c.pciVendorId ≠ 0xFFFF ∧
  c.pciIdOff.toNat % 4 = 0 ∧ c.pciCmdOff.toNat % 4 = 0 ∧ c.pciBar0Off.toNat % 4 = 0 ∧
  c.pciIdOff ≠ c.pciCmdOff ∧ c.pciIdOff ≠ c.pciBar0Off ∧ c.pciCmdOff ≠ c.pciBar0Off ∧
  oneBit c.pciCmdMse ∧ oneBit c.pciCmdBme ∧ c.pciCmdMse ≠ c.pciCmdBme

/-- Register offsets are multiples of 4 and pairwise distinct (R8). -/
abbrev Cfg.regsOk (c : Cfg) : Prop :=
  (∀ r ∈ allRegs, (c.offset r).toNat % 4 = 0) ∧ (allRegs.map c.offset).Nodup

/-- `CTRL_RST` is one bit, `TX_POLL_MAX` at least 1, the diagnostic line ASCII (R8). -/
abbrev Cfg.valuesOk (c : Cfg) : Prop :=
  oneBit c.ctrlRst ∧ 1 ≤ c.txPollMax ∧ ∀ b ∈ c.msgTxTimeout, b.toNat < 128

/-- The four regions are pairwise disjoint, none wraps past 2^64, and the descriptor bases are multiples of 16 (R75). -/
abbrev Cfg.regionsOk (c : Cfg) : Prop :=
  c.regions.Pairwise Region.disjoint ∧ (∀ r ∈ c.regions, r.base.toNat + r.size ≤ 2 ^ 64) ∧
  c.txDescBase.toNat % 16 = 0 ∧ c.rxDescBase.toNat % 16 = 0

/-- A parameter record that meets the constraints of R8 and R75 (U16: any other is excluded). -/
abbrev Cfg.WF (c : Cfg) : Prop := c.pciOk ∧ c.regsOk ∧ c.valuesOk ∧ c.regionsOk

/-- No named register of the window that starts at `base` overlaps one of the four regions (R75: "none overlaps the
MMIO window"; the size of the window is not given, so the named registers stand for it). -/
abbrev Cfg.windowClear (c : Cfg) (base : Word) : Prop :=
  ∀ r ∈ allRegs, ∀ q ∈ c.regions,
    base.toNat + (c.offset r).toNat + 4 ≤ q.base.toNat ∨
    q.base.toNat + q.size ≤ base.toNat + (c.offset r).toNat

end Sys2Proof
end

