-- ==== Sys2Proof/Decode.lean ====
section
/-! DEFINITION. The decoder of the command record (R100 to R105), total, rejecting by name; the encoder written from the
same table (R102); the reading of a table word; and the textual syntax (R107). -/

namespace Sys2Proof

/-- Why a command word selects no row of R102 (R105). -/
inductive DecodeError where
  /-- `op` is not one of the ten values. -/
  | reservedOp
  /-- `rsvd` (bits 23:16) is not 0. -/
  | reservedField
  /-- `imm16` is not 0 for an operation that takes no immediate. -/
  | immediateNotZero
  deriving DecidableEq, Repr

/-- The `op` field, bits 31:24 (R100). -/
def Command.op (c : Command) : Byte := c.cw.extractLsb' 24 8
/-- The `rsvd` field, bits 23:16 (R100). -/
def Command.rsvd (c : Command) : Byte := c.cw.extractLsb' 16 8
/-- The `imm16` field, bits 15:0 (R100). -/
def Command.imm16 (c : Command) : Half := c.cw.extractLsb' 0 16

/-- An operation without an immediate: `imm16` must be 0 (R100, R105). -/
def noImmediate (c : Command) (i : Instr) : Except DecodeError Instr :=
  if c.imm16 = 0 then .ok i else .error .immediateNotZero

/-- The row that `op` selects (R102). -/
def decodeOp (c : Command) : Except DecodeError Instr :=
  if c.op = 0x01 then noImmediate c .findDevice
  else if c.op = 0x02 then noImmediate c .init
  else if c.op = 0x03 then .ok (.sendEcho c.imm16)
  else if c.op = 0x04 then noImmediate c .checkReply
  else if c.op = 0x10 then noImmediate c (.readReg c.a0)
  else if c.op = 0x11 then noImmediate c (.writeReg c.a0 c.a1)
  else if c.op = 0x12 then noImmediate c (.delay c.a0)
  else if c.op = 0x13 then noImmediate c .fence
  else if c.op = 0x18 then noImmediate c (.checksum c.a0 c.a1)
  else if c.op = 0x19 then .ok (.buildFrame c.imm16)
  else .error .reservedOp

/-- The instruction a command record stands for (R102), or why it is refused (R105). -/
def decode (c : Command) : Except DecodeError Instr :=
  if c.rsvd = 0 then decodeOp c else .error .reservedField

/-- A command word from `op` and `imm16`, with `rsvd` 0 (R100). -/
def commandWord (op : Byte) (imm : Half) : Word := op ++ (0 : Byte) ++ imm

/-- The command record of an instruction (R102); an operand word it does not use is 0 (R101). -/
def encode : Instr → Command
  | .findDevice => ⟨commandWord 0x01 0, 0, 0⟩
  | .init => ⟨commandWord 0x02 0, 0, 0⟩
  | .sendEcho seq => ⟨commandWord 0x03 seq, 0, 0⟩
  | .checkReply => ⟨commandWord 0x04 0, 0, 0⟩
  | .readReg off => ⟨commandWord 0x10 0, off, 0⟩
  | .writeReg off value => ⟨commandWord 0x11 0, off, value⟩
  | .delay n => ⟨commandWord 0x12 0, n, 0⟩
  | .fence => ⟨commandWord 0x13 0, 0, 0⟩
  | .checksum start len => ⟨commandWord 0x18 0, start, len⟩
  | .buildFrame seq => ⟨commandWord 0x19 seq, 0, 0⟩

/-- The `mask` column of R102. -/
def Instr.rowMask : Instr → Word
  | .findDevice => 0xFFFFFFFF
  | .init => 0xFFFFFFFF
  | .sendEcho _ => 0xFFFF0000
  | .checkReply => 0xFFFFFFFF
  | .readReg _ => 0xFFFFFFFF
  | .writeReg _ _ => 0xFFFFFFFF
  | .delay _ => 0xFFFFFFFF
  | .fence => 0xFFFFFFFF
  | .checksum _ _ => 0xFFFFFFFF
  | .buildFrame _ => 0xFFFF0000

/-- The `match` column of R102. -/
def Instr.rowMatch : Instr → Word
  | .findDevice => 0x01000000
  | .init => 0x02000000
  | .sendEcho _ => 0x03000000
  | .checkReply => 0x04000000
  | .readReg _ => 0x10000000
  | .writeReg _ _ => 0x11000000
  | .delay _ => 0x12000000
  | .fence => 0x13000000
  | .checksum _ _ => 0x18000000
  | .buildFrame _ => 0x19000000

/-- The command record whose bits are `w`, the first word lowest: `cw` is bits 31:0, `a0` bits 63:32, `a1` bits 95:64;
bits from `nbits` up are 0. -/
def tableCommand (nbits w : Nat) : Command :=
  ⟨BitVec.ofNat 32 (w % 2 ^ nbits), BitVec.ofNat 32 (w % 2 ^ nbits / 2 ^ 32),
   BitVec.ofNat 32 (w % 2 ^ nbits / 2 ^ 64)⟩

/-- The instruction the decoder reads from a table word of `nbits` bits. -/
def decodeTableWord (nbits w : Nat) : Option Instr :=
  match decode (tableCommand nbits w) with
  | .ok i => some i
  | .error _ => none

/-! ## The textual syntax (R107) -/

/-- The value of a digit. -/
def digitValue (c : Char) : Option Nat :=
  if 48 ≤ c.toNat ∧ c.toNat ≤ 57 then some (c.toNat - 48)
  else if 65 ≤ c.toNat ∧ c.toNat ≤ 70 then some (c.toNat - 55)
  else if 97 ≤ c.toNat ∧ c.toNat ≤ 102 then some (c.toNat - 87)
  else none

/-- The digits of a number in a base, `acc` being the value of those before. -/
def readDigits (base acc : Nat) : List Char → Option Nat
  | [] => some acc
  | c :: cs =>
    match digitValue c with
    | some d => if d < base then readDigits base (base * acc + d) cs else none
    | none => none

/-- A number in decimal or `0x` hexadecimal (R107). -/
def readNumber : List Char → Option Nat
  | '0' :: 'x' :: c :: cs => readDigits 16 0 (c :: cs)
  | c :: cs => readDigits 10 0 (c :: cs)
  | [] => none

/-- A number of at most `w` bits. -/
def readOperand (w : Nat) (cs : List Char) : Option (BitVec w) :=
  match readNumber cs with
  | some n => if n < 2 ^ w then some (BitVec.ofNat w n) else none
  | none => none

/-- The operands after a mnemonic: separated by commas, blanks ignored. -/
def splitOperands : List Char → List (List Char)
  | [] => [[]]
  | c :: cs =>
    if c = ',' then [] :: splitOperands cs
    else if c = ' ' then splitOperands cs
    else match splitOperands cs with
      | w :: ws => (c :: w) :: ws
      | [] => [[c]]

/-- The characters of a line up to its first blank. -/
def firstWord : List Char → List Char
  | [] => []
  | c :: cs => if c = ' ' then [] else c :: firstWord cs

/-- One line of a program as an instruction (R107). -/
def assemble (line : List Char) : Option Instr :=
  let word := firstWord line
  match splitOperands (line.drop word.length) with
  | [[]] =>
    if word = "FIND_DEVICE".toList then some .findDevice
    else if word = "INIT".toList then some .init
    else if word = "CHECK_REPLY".toList then some .checkReply
    else if word = "FENCE".toList then some .fence
    else none
  | [a] =>
    if word = "SEND_ECHO".toList then (readOperand 16 a).map .sendEcho
    else if word = "READ_REG".toList then (readOperand 32 a).map .readReg
    else if word = "DELAY".toList then (readOperand 32 a).map .delay
    else if word = "BUILD_FRAME".toList then (readOperand 16 a).map .buildFrame
    else none
  | [a, b] =>
    match readOperand 32 a, readOperand 32 b with
    | some x, some y =>
      if word = "WRITE_REG".toList then some (.writeReg x y)
      else if word = "CHECKSUM".toList then some (.checksum x y)
      else none
    | _, _ => none
  | _ => none

end Sys2Proof
end

