-- ==== Sys2Proof/Machine/State.lean ====
section
/-! DEFINITION. The state of the model as plain data: the block's registers (R20, R24), the four memory regions (R44,
R45), the controller's registers and hidden state (R30, R48), the PCI command register (R41), the caller's commands and
the last response (R100, R104), the environment's coming answers, the history of events (R83), and the parameter
record; why a step can stop; and the state after reset (R50, R250). -/

namespace Sys2Proof.Machine

/-- The six values of the sequencer register `s.phase` (R24); `ready` is the document's `TxEnabled(Ready)`. -/
inductive Phase where
  | disabled | reset | rxConfigured | rxEnabled | txConfigured | ready
  deriving DecidableEq, Repr, Inhabited

/-- What the bytes of ordinary memory hold at power-on. -/
inductive PowerOn where
  /-- Any value at each address: the opaque `Config.powerOnByte` (R251, U15). -/
  | free
  /-- Memory that powered up with the byte `b` everywhere. -/
  | filled (b : Byte)
  deriving DecidableEq, Repr, Inhabited

/-- Ordinary memory: the bytes that differ from their power-on value, addresses strictly rising. -/
structure Memory where
  powerOn : PowerOn
  cells : List Host.Cell
  deriving DecidableEq, Repr

/-- The controller's named registers (R30 to R40), each with the value the block last wrote to it. What a read answers
is the controller's and a draw (R87), so these values are never what `READ_REG` returns. -/
structure RegFile where
  ctrl : Word
  status : Word
  icause : Word
  imask : Word
  rctl : Word
  tctl : Word
  tipg : Word
  rdbal : Word
  rdbah : Word
  rdlen : Word
  rdh : Word
  rdt : Word
  tdbal : Word
  tdbah : Word
  tdlen : Word
  tdh : Word
  tdt : Word
  macfLo : Word
  macfHi : Word
  deriving DecidableEq, Repr

/-- A TX slot that the controller has taken and not yet given back, with what it has fetched for it (R48 (c), R88). -/
structure TxJob where
  slot : Slot
  /-- Nothing is known of what was fetched: it was taken at power-on or across a write whose effect is not stated. -/
  stale : Bool
  /-- The bytes of the descriptor read so far, from byte 0. -/
  desc : List Byte
  /-- The bytes of the frame read so far, from byte 0. -/
  frame : List Byte
  deriving DecidableEq, Repr

/-- Any slot may be taken, and nothing is known of what was fetched for it. -/
def staleJobs : List TxJob := ([0, 1, 2, 3, 4, 5, 6, 7] : List Slot).map (fun i => ⟨i, true, [], []⟩)

/-- A frame on its way into an RX slot: how many of its bytes the controller has written, and whether its length is
written too (R89). -/
structure RxJob where
  slot : Slot
  frame : List Byte
  count : Nat
  sized : Bool
  deriving DecidableEq, Repr

/-- The controller as far as the spec gives it state: its registers and the hidden state of R48. -/
structure Nic where
  /-- The value the block last wrote to each named register (R30, R174, R203, R213). -/
  regs : RegFile
  /-- The pending interrupt-cause bits (R33, R48 (a)). -/
  icause : Word
  /-- The receiver may be running (R89); unknown, hence possible, at power-on (R251; assumption 7). -/
  rxOn : Bool
  /-- The transmitter may be running (R36, R74); unknown, hence possible, at power-on (R251; assumption 7). -/
  txOn : Bool
  /-- A device reset may be in progress (R31, R48 (b), R91); unknown, hence possible, at power-on (R251). -/
  resetPending : Bool
  /-- The controller's TX head index (R39, R48 (c)); `none` where nothing says which slot it is (R251, R252). -/
  txHead : Option Slot
  /-- The TX tail index as the controller has it (R39); `none` where nothing says which slot it is. -/
  txTail : Option Slot
  /-- Head and tail are equal and the ring may be full and not empty (R262; assumptions 11, 46). -/
  txFull : Bool
  /-- `REG_TDT` may have been written since the last device reset began: before such a write the controller holds no TX
  slot (R85, R88, R172; assumption 11). -/
  txGiven : Bool
  /-- The TX slots taken and not yet given back, with the descriptor and frame bytes fetched for them, oldest first
  (R48 (c), R88). -/
  txJobs : List TxJob
  /-- The controller's RX head index (R38, R48 (c)); `none` where nothing says which slot it is (R251, R252). It restricts
  nothing, by R89's reading of which slots the controller owns (assumption 42). -/
  rxHead : Option Slot
  /-- The frames that arrived and have no RX slot yet, oldest first (R48 (d)). -/
  rxWaiting : List (List Byte)
  /-- The frames on their way into RX slots, at most one for each slot (R89). -/
  rxJobs : List RxJob
  deriving DecidableEq, Repr

/-- One event on a port of the block (R12, R13, R18), with the value it carried. -/
inductive Event where
  /-- `MemRead(addr, n)` that answered `v`. -/
  | memRead (addr : Addr) (n : Nat) (v : BitVec 64)
  /-- `MemWrite(addr, n, v)`. -/
  | memWrite (addr : Addr) (n : Nat) (v : BitVec 64)
  /-- `Fence()` (R83). -/
  | fence
  /-- `CfgRead(bus, slot, func, off)` that answered `v` (R66). -/
  | cfgRead (bus slot func : Nat) (off : Byte) (v : Word)
  /-- `CfgWrite(bus, slot, func, off, v)` (R66). -/
  | cfgWrite (bus slot func : Nat) (off : Byte) (v : Word)
  /-- `Emit(bytes)` (R68). -/
  | emit (line : List Byte)
  /-- `n` consecutive `Spin()` events, `n` at least 1 (R142). -/
  | spin (n : Nat)
  deriving DecidableEq, Repr

/-- The response record that ends every command (R104). -/
structure Response where
  err : Bool
  ok : Bool
  value : Word
  deriving DecidableEq, Repr

/-- Which PCI functions exist on the platform; the others answer all-ones (R66). -/
inductive PciFunctions where
  /-- Any of them: the opaque `Config.pciPresent` (assumption 5). -/
  | free
  /-- These, each a bus and a slot. -/
  | listed (fs : List (Nat × Nat))
  deriving DecidableEq, Repr, Inhabited

/-- What the environment is going to do, as inputs of the machine (assumption 29). Where an input list has run out, the
next input is a free value at the event number `tick`. -/
structure Env where
  /-- The number of events of the block so far. -/
  tick : Nat
  /-- The controller's accesses before each coming event of the block (R79). -/
  script : List (List NicMove)
  /-- After `script` the controller makes no access at all; otherwise its accesses are free. -/
  silent : Bool
  /-- The answers to the coming register reads (R87). -/
  busReads : List Word
  /-- The answers to the coming configuration reads, one for each; the one for a function that does not exist is
  overridden by all-ones (R66, D30). -/
  cfgReads : List Word
  /-- The PCI functions that exist (R66). -/
  functions : PciFunctions
  deriving DecidableEq, Repr

/-- The state of the model. -/
structure State where
  /-- The parameter record (R8, R51): fixed, carried in the state because `exec` takes no other argument. -/
  cfg : Cfg
  /-- `s.base`: the physical address of the MMIO window, 0 until discovered (R20, R21). -/
  base : Word
  /-- `s.mac`: the constant `MAC_ADDR` (R22). -/
  mac : Mac
  /-- `s.tx_tail`: the slot the next `SEND_ECHO` uses (R23). -/
  txTail : Word
  /-- `s.rx_tail`: the slot most recently handed back to the controller (R23). -/
  rxTail : Word
  /-- `s.phase`: the state of the ring initializer (R24). -/
  phase : Phase
  /-- Ordinary memory: the descriptor arrays and the buffer pools (R44, R45, R75). -/
  mem : Memory
  /-- The controller (R30, R48, R79). -/
  nic : Nic
  /-- The controller's PCI command register as the block last wrote it (R41); what the controller may do on the bus
  follows it (R74, R86). One field for every function that discovery may match (DESIGN CHOICE, assumption 45). -/
  pciCommand : Word
  /-- The commands the caller presents, in order; the head is the one on the command port (R67, R100). -/
  caller : List Command
  /-- The response to the last command; `none` while no command has ended (R50, R104). -/
  response : Option Response
  /-- The environment's coming inputs (R51). -/
  env : Env
  /-- Every event so far, newest first (R81, R83). -/
  events : List Event
  deriving DecidableEq, Repr

/-- Why the machine stops with a fault. There is no constructor: "No access of the block can fault" (R77) and no other
fault condition exists (R220). Nothing raises a fault; safe. -/
inductive Fault where
  deriving DecidableEq, Repr

/-- Why a step is given no meaning. -/
inductive Refusal where
  /-- An instruction whose arm of `exec` has no meaning yet. No arm raises it. Safe. -/
  | notModelled (mnemonic : String)
  /-- `READ_REG` or `WRITE_REG` at an offset that is not a multiple of 4 (R72, U6): the access is issued as given and
  "what the bus or the controller does with it is not in the document: treat it as `refuse`" (assumption 14). Safe. -/
  | misalignedRegisterOffset
  deriving DecidableEq, Repr

/-- Register values before the block's first write: none is stated (R50, R251), zero by DESIGN CHOICE (assumption 6). -/
def RegFile.zero : RegFile :=
  ⟨0, 0, 0, 0, 0, 0, 0, 0, 0, 0, 0, 0, 0, 0, 0, 0, 0, 0, 0⟩

/-- The controller at power-on. R251 leaves its hidden state unspecified; each field takes the value that allows the
most, and no cause is pending, since any may be set before the first event (DESIGN CHOICE, assumption 7). -/
def Nic.powerOn : Nic where
  regs := RegFile.zero
  icause := 0
  rxOn := true
  txOn := true
  resetPending := true
  txHead := none
  txTail := none
  txFull := false
  txGiven := true
  txJobs := staleJobs
  rxHead := none
  rxWaiting := []
  rxJobs := []

/-- The machine right after the block's reset (R50, R250). What R251 leaves unspecified is free or takes the value of
assumptions 1 to 8. -/
def State.reset : State where
  cfg := Config.cfg
  base := 0
  mac := Config.cfg.macAddr
  txTail := 0
  rxTail := 0
  phase := .disabled
  mem := { powerOn := .free, cells := [] }
  nic := Nic.powerOn
  pciCommand := Config.cfg.pciCmdBme ||| Config.cfg.pciCmdMse
  caller := []
  response := none
  env := { tick := 0, script := [], silent := false, busReads := [], cfgReads := [], functions := .free }
  events := []

end Sys2Proof.Machine
end

