-- ==== Sys2Proof/Machine/Memory.lean ====
section
/-! DEFINITION. Ordinary memory in one canonical form: what an unlisted address reads as, reading and writing one byte,
little-endian access of n bytes (R70), and the named registers of the register file. -/

namespace Sys2Proof.Machine

/-- What an address that no cell lists reads as: its power-on byte (R251; assumption 2). -/
def Memory.blank (m : Memory) (a : Nat) : Byte :=
  match m.powerOn with
  | .free => Config.powerOnByte a
  | .filled b => b

/-- The byte a cell list holds at an address. -/
def lookupCell : List Host.Cell → Nat → Option Byte
  | [], _ => none
  | c :: cs, a => if c.1 = a then some c.2 else lookupCell cs a

/-- The byte at an address. -/
def Memory.read (m : Memory) (a : Nat) : Byte :=
  (lookupCell m.cells a).getD (m.blank a)

/-- Insert or replace the cell of an address, keeping the addresses rising. -/
def putCell (a : Nat) (b : Byte) : List Host.Cell → List Host.Cell
  | [] => [(a, b)]
  | c :: cs => if a < c.1 then (a, b) :: c :: cs else if a = c.1 then (a, b) :: cs else c :: putCell a b cs

/-- Remove the cell of an address. -/
def dropCell (a : Nat) : List Host.Cell → List Host.Cell
  | [] => []
  | c :: cs => if c.1 = a then dropCell a cs else c :: dropCell a cs

/-- Write one byte; writing the power-on byte removes the cell, so that equal memories are equal data. -/
def Memory.write (m : Memory) (a : Nat) (b : Byte) : Memory :=
  { m with cells := if b = m.blank a then dropCell a m.cells else putCell a b m.cells }

/-- The canonical form: addresses strictly rising, no cell equal to what its address reads as unlisted. -/
abbrev Memory.wf (m : Memory) : Prop :=
  (m.cells.map Prod.fst).Pairwise (· < ·) ∧ ∀ c ∈ m.cells, c.2 ≠ m.blank c.1

/-- Read `n` bytes at an address, least significant byte at the lowest address (R12, R70). -/
def Memory.readLE (m : Memory) : Nat → Addr → BitVec 64
  | 0, _ => 0
  | n + 1, a => (m.read a.toNat).setWidth 64 ||| (m.readLE n (a + 1) <<< 8)

/-- Write the low `8 n` bits of a value to the `n` bytes at an address, least significant byte first (R12, R70). -/
def Memory.writeLE (m : Memory) : Nat → Addr → BitVec 64 → Memory
  | 0, _, _ => m
  | n + 1, a, v => (m.write a.toNat (v.setWidth 8)).writeLE n (a + 1) (v >>> 8)

/-- The value a named register was last written with. -/
def RegFile.get (f : RegFile) : Reg → Word
  | .ctrl => f.ctrl
  | .status => f.status
  | .icause => f.icause
  | .imask => f.imask
  | .rctl => f.rctl
  | .tctl => f.tctl
  | .tipg => f.tipg
  | .rdbal => f.rdbal
  | .rdbah => f.rdbah
  | .rdlen => f.rdlen
  | .rdh => f.rdh
  | .rdt => f.rdt
  | .tdbal => f.tdbal
  | .tdbah => f.tdbah
  | .tdlen => f.tdlen
  | .tdh => f.tdh
  | .tdt => f.tdt
  | .macfLo => f.macfLo
  | .macfHi => f.macfHi

/-- The register file after a write of a named register. -/
def RegFile.set (f : RegFile) (r : Reg) (v : Word) : RegFile :=
  match r with
  | .ctrl => { f with ctrl := v }
  | .status => { f with status := v }
  | .icause => { f with icause := v }
  | .imask => { f with imask := v }
  | .rctl => { f with rctl := v }
  | .tctl => { f with tctl := v }
  | .tipg => { f with tipg := v }
  | .rdbal => { f with rdbal := v }
  | .rdbah => { f with rdbah := v }
  | .rdlen => { f with rdlen := v }
  | .rdh => { f with rdh := v }
  | .rdt => { f with rdt := v }
  | .tdbal => { f with tdbal := v }
  | .tdbah => { f with tdbah := v }
  | .tdlen => { f with tdlen := v }
  | .tdh => { f with tdh := v }
  | .tdt => { f with tdt := v }
  | .macfLo => { f with macfLo := v }
  | .macfHi => { f with macfHi := v }

end Sys2Proof.Machine
end

