-- ==== Sys2Proof/Machine/Operands.lean ====
section
/-! DEFINITION. Every effective-address form the block uses (R194) and the values it assembles from operands and
parameters (R113, R115 to R118, R120, R122, R123). -/

namespace Sys2Proof.Machine

/-- The slot a tail cursor names; index arithmetic is modulo `RING_SIZE` (R23, D31). -/
def slotOf (w : Word) : Slot := ⟨w.toNat % 8, Nat.mod_lt _ (by decide)⟩

/-- A slot index as a head, tail or response value, zero-extended to 32 bits (R113). -/
def slotWord (i : Slot) : Word := BitVec.ofNat 32 i.val

/-- The slot after a slot, modulo `RING_SIZE` (R113). -/
def nextSlot (i : Slot) : Slot := ⟨(i.val + 1) % 8, Nat.mod_lt _ (by decide)⟩

/-- The register form: `zext_64(base) + zext_64(off)`, a 64-bit sum that cannot wrap (R62, R194). -/
def regAddr (base off : Word) : Addr := base.setWidth 64 + off.setWidth 64

/-- `TxDesc(i)` (R161). -/
def txDesc (c : Cfg) (i : Slot) : Addr := c.txDescBase + BitVec.ofNat 64 (16 * i.val)
/-- `RxDesc(i)` (R161). -/
def rxDesc (c : Cfg) (i : Slot) : Addr := c.rxDescBase + BitVec.ofNat 64 (16 * i.val)
/-- `TxBuf(i)` (R161). -/
def txBuf (c : Cfg) (i : Slot) : Addr := c.txBufBase + BitVec.ofNat 64 (2048 * i.val)
/-- `RxBuf(i)` (R161). -/
def rxBuf (c : Cfg) (i : Slot) : Addr := c.rxBufBase + BitVec.ofNat 64 (2048 * i.val)

/-- Field offsets of the RX descriptor (R110). -/
def rxdAddr : Addr := 0
def rxdLen : Addr := 8
def rxdCsum : Addr := 10
def rxdStatus : Addr := 12
def rxdErrors : Addr := 13
def rxdSpecial : Addr := 14

/-- Field offsets of the TX descriptor (R111). -/
def txdAddr : Addr := 0
def txdLen : Addr := 8
def txdCso : Addr := 10
def txdCmd : Addr := 11
def txdStatus : Addr := 12
def txdCss : Addr := 13
def txdSpecial : Addr := 14

/-- The TX command byte: end-of-packet, insert-frame-check-sequence, report-status (R112). -/
def txCommand (c : Cfg) : Byte := c.txcmdEop ||| c.txcmdIfcs ||| c.txcmdRs

/-- `RCTL_VALUE` (R35). -/
def rctlValue (c : Cfg) : Word :=
  c.rctlEn ||| c.rctlUnicast ||| c.rctlMpe ||| c.rctlBam ||| c.rctlBsize2k ||| c.rctlSecrc

/-- `TCTL_VALUE` (R36). -/
def tctlValue (c : Cfg) : Word := c.tctlEn ||| c.tctlPsp ||| c.tctlColl

/-- The low MAC filter register: bytes 3, 2, 1, 0 from the top (R120). -/
def macfLo (m : Mac) : Word := m.b3 ++ m.b2 ++ m.b1 ++ m.b0

/-- The high MAC filter register: the valid bit, fifteen zeros, bytes 5 and 4 (R120). -/
def macfHi (m : Mac) : Word := (1 : BitVec 1) ++ (0 : BitVec 15) ++ m.b5 ++ m.b4

/-- `entryCount × descriptorSize`, the ring length in bytes (R113). -/
def ringLength : Word := BitVec.ofNat 32 (Config.ringSize * Config.descSize)

/-- The low half of a descriptor array's address (R113). -/
def baseLow (a : Addr) : Word := a.setWidth 32
/-- The high half of a descriptor array's address (R113). -/
def baseHigh (a : Addr) : Word := (a >>> 32).setWidth 32

/-- The new PCI command value: bus-master and memory-space enable set, other bits preserved (R122). -/
def pciCommandValue (c : Cfg) (cmd : Word) : Word := cmd ||| c.pciCmdBme ||| c.pciCmdMse

/-- The MMIO base: the low 4 flag bits masked off (R122). -/
def mmioBase (bar : Word) : Word := bar &&& 0xFFFFFFF0

/-- The most significant byte of a 16-bit field of the frame (R71). -/
def hiByte (v : Half) : Byte := v.extractLsb' 8 8
/-- The least significant byte of a 16-bit field of the frame (R71). -/
def loByte (v : Half) : Byte := v.extractLsb' 0 8

/-- The Ethernet header, bytes 0 to 13 (R115). -/
def ethernetHeader (m : Mac) : List Byte :=
  [0xFF, 0xFF, 0xFF, 0xFF, 0xFF, 0xFF, m.b0, m.b1, m.b2, m.b3, m.b4, m.b5, 0x08, 0x00]

/-- The IPv4 header, bytes 14 to 33, with the given header checksum (R116). -/
def ipv4Header (c : Cfg) (ck : Half) : List Byte :=
  [0x45, 0x00, 0x00, 0x54, 0x00, 0x01, 0x00, 0x00, 0x40, 0x01, hiByte ck, loByte ck,
   c.srcIp.b0, c.srcIp.b1, c.srcIp.b2, c.srcIp.b3, c.dstIp.b0, c.dstIp.b1, c.dstIp.b2, c.dstIp.b3]

/-- The ICMP payload, bytes 42 to 97: byte i is `0x20 + i` (R118). -/
def icmpPayload : List Byte := (List.range 56).map (fun k => BitVec.ofNat 8 (0x20 + k))

/-- The ICMP header and payload, bytes 34 to 97, with the given checksum (R117, R118). -/
def icmpMessage (c : Cfg) (seq ck : Half) : List Byte :=
  [0x08, 0x00, hiByte ck, loByte ck, hiByte c.icmpIdent, loByte c.icmpIdent, hiByte seq, loByte seq] ++ icmpPayload

/-- The 98 bytes of the frame with the given checksums (R114). -/
def frameWith (c : Cfg) (m : Mac) (seq ipck icck : Half) : List Byte :=
  ethernetHeader m ++ ipv4Header c ipck ++ icmpMessage c seq icck

end Sys2Proof.Machine
end

