-- ==== Sys2Proof/Machine/Flags.lean ====
section
/-! DEFINITION. Every condition the block computes: the done bit (R27), the discovery match (R121), the receive
classifier (R211), the internet checksum (R180, R181), and the responses that carry the result flags (R26, R104). -/

namespace Sys2Proof.Machine

/-- The done bit: bit 0 of a status byte; bits 7 to 1 are ignored (R27). -/
def doneBit (st : Byte) : Bool := st.getLsbD 0

/-- The vendor ID of an identification word (R121). -/
def vendorOf (id : Word) : Half := id.extractLsb' 0 16
/-- The device ID of an identification word (R121). -/
def deviceOf (id : Word) : Half := id.extractLsb' 16 16

/-- The identification word names an accepted controller: not all-ones, not all-zero, the expected vendor and one of
the three variants (R121, R150). -/
def isMatch (c : Cfg) (id : Word) : Bool :=
  id != 0xFFFFFFFF && id != 0 && vendorOf id == c.pciVendorId &&
  (deviceOf id == c.pciDeviceId0 || deviceOf id == c.pciDeviceId1 || deviceOf id == c.pciDeviceId2)

/-- The classifier `is_reply(L, b23, b34)` (R211). -/
def isReply (len : Half) (b23 b34 : Byte) : Bool :=
  decide (len.toNat > Config.rxMinLenExcl) && b23 == 0x01 && b34 == 0x00

/-- Steps 1 and 2 of `cksum` in the 32-bit accumulator: consecutive big-endian words, an odd last byte as a high byte
(R180, R181). -/
def wordSum : List Byte → Word
  | [] => 0
  | [b] => b.setWidth 32 <<< 8
  | b :: d :: rest => ((b.setWidth 32 <<< 8) ||| d.setWidth 32) + wordSum rest

/-- One pass of step 3: a sum that exceeds 16 bits has its overflow bits added back (R180). -/
def foldOnce (sum : Word) : Word :=
  if sum.toNat > 0xFFFF then (sum &&& 0xFFFF) + (sum >>> 16) else sum

/-- Step 3 of `cksum`: the loop runs at most twice (R181). -/
def foldCarries (sum : Word) : Word := foldOnce (foldOnce sum)

/-- The internet checksum (R180). -/
def cksum (bytes : List Byte) : Half := ~~~ (foldCarries (wordSum bytes)).setWidth 16

/-- The response of a command that was performed (R104). -/
def responseOf (ok : Bool) (value : Word) : Response := { err := false, ok := ok, value := value }

/-- The response of a refused command (R104, R105). -/
def refusedResponse : Response := { err := true, ok := false, value := 0 }

/-- The IPv4 header checksum of the frame (R116). -/
def ipv4Checksum (c : Cfg) : Half := cksum (ipv4Header c 0)

/-- The ICMP checksum of the frame (R117). -/
def icmpChecksum (c : Cfg) (seq : Half) : Half := cksum (icmpMessage c seq 0)

/-- The frame with its checksum fields zero, as the builder first writes it (R185). -/
def rawFrame (c : Cfg) (m : Mac) (seq : Half) : List Byte := frameWith c m seq 0 0

/-- The finished frame (R114 to R118, R186). -/
def finishedFrame (c : Cfg) (m : Mac) (seq : Half) : List Byte :=
  frameWith c m seq (ipv4Checksum c) (icmpChecksum c seq)

end Sys2Proof.Machine
end

