-- ==== Sys2Proof/Machine/Controller.lean ====
section
/-! DEFINITION. The environment of the block: the controller as an agent (R79, R86 to R92), what it may do between two
events of the block and what it never does (R90), how it takes a register write (R74), and the environment's inputs. -/

namespace Sys2Proof.Machine

/-- The controller's accesses before the next event: the scripted ones, none if it is silent, else free (R79). -/
def Env.moves (e : Env) : List NicMove :=
  match e.script with
  | ms :: _ => ms
  | [] => if e.silent then [] else Config.nicMoves e.tick

/-- The environment once one more event of the block has begun. -/
def Env.advance (e : Env) : Env := { e with tick := e.tick + 1, script := e.script.tail }

/-- The answer to a register read: the next scripted one, else free (R87). -/
def Env.busAnswer (e : Env) : Word :=
  match e.busReads with
  | v :: _ => v
  | [] => Config.busRead e.tick

/-- The environment after it has answered a register read. -/
def Env.busAnswered (e : Env) : Env := { e with busReads := e.busReads.tail }

/-- Function 0 of the bus and slot exists (R66). -/
def Env.present (e : Env) (bus slot : Nat) : Bool :=
  match e.functions with
  | .free => Config.pciPresent bus slot
  | .listed fs => decide ((bus, slot) ∈ fs)

/-- The draw for a configuration read: the next scripted one, else free (D30). -/
def Env.cfgDraw (e : Env) : Word :=
  match e.cfgReads with
  | v :: _ => v
  | [] => Config.cfgRead e.tick

/-- The answer to a configuration read: all-ones from a function that does not exist, else a draw (R66, D30). -/
def Env.cfgAnswer (e : Env) (bus slot : Nat) : Word := if e.present bus slot then e.cfgDraw else 0xFFFFFFFF

/-- The environment after it has answered a configuration read. -/
def Env.cfgAnswered (e : Env) : Env := { e with cfgReads := e.cfgReads.tail }

/-- The done bit of TX slot `i` as memory holds it (R27). -/
def txDone (c : Cfg) (m : Memory) (i : Slot) : Bool := doneBit (m.read (txDesc c i + txdStatus).toNat)

/-- The done bit of RX slot `i` as memory holds it (R27). -/
def rxDone (c : Cfg) (m : Memory) (i : Slot) : Bool := doneBit (m.read (rxDesc c i + rxdStatus).toNat)

/-- All bits of a mask are set in a word. -/
def hasBits (w mask : Word) : Bool := w &&& mask == mask

/-- The controller may master the bus: bus-master-enable is set in its PCI command register (R86). -/
def State.mastersBus (s : State) : Bool := hasBits s.pciCommand s.cfg.pciCmdBme

/-- The controller decodes its MMIO window: memory-space-enable is set in its PCI command register (R86). -/
def State.decodesMemory (s : State) : Bool := hasBits s.pciCommand s.cfg.pciCmdMse

/-! ### Receive (R89) -/

/-- The receiver may be running: it is on, or a reset whose effect is not known is in progress (R89, R91). -/
def Nic.receives (n : Nic) : Bool := n.rxOn || n.resetPending

/-- The controller may write RX slot `i`: it masters the bus, its receiver may be running and the slot's done bit is 0
(R86, R89, R90). -/
def State.rxOpen (s : State) (i : Slot) : Bool := s.mastersBus && s.nic.receives && !rxDone s.cfg s.mem i

/-- The frame on its way into RX slot `i`. -/
def Nic.rxJob (n : Nic) (i : Slot) : Option RxJob := n.rxJobs.find? (fun j => decide (j.slot = i))

/-- The frames on their way into other slots than `i`. -/
def Nic.dropRxJob (n : Nic) (i : Slot) : Nic :=
  { n with rxJobs := n.rxJobs.filter (fun j => decide (j.slot ≠ i)) }

/-- The frame on its way into a slot, in place of any earlier one of that slot. -/
def Nic.putRxJob (n : Nic) (j : RxJob) : Nic := { n with rxJobs := j :: (n.dropRxJob j.slot).rxJobs }

/-- A frame has a length that R89 gives it: 1 to 2048 bytes. -/
def frameOk (frame : List Byte) : Bool := decide (1 ≤ frame.length) && decide (frame.length ≤ Config.bufSize)

/-- A frame arrives while the receiver may be running, and waits for a slot (R48 (d), R89; assumption 42). -/
def State.rxArrive (s : State) (frame : List Byte) : State :=
  if s.nic.receives && frameOk frame then
    { s with nic := { s.nic with rxWaiting := s.nic.rxWaiting ++ [frame] } }
  else s

/-- The controller takes an RX slot it owns for the frame that has waited longest; its head goes on to the next slot
(R89; assumptions 28, 42). -/
def State.rxTake (s : State) (i : Slot) : State :=
  match s.nic.rxWaiting with
  | f :: fs =>
    if s.rxOpen i then
      { s with nic := { s.nic.putRxJob ⟨i, f, 0, false⟩ with rxWaiting := fs, rxHead := some (nextSlot i) } }
    else s
  | [] => s

/-- The controller's write of `n` bytes for the frame on its way into slot `i`, if the frame is at a stage that `ok`
admits; `next` is the controller after it. -/
def State.rxStore (s : State) (i : Slot) (ok : RxJob → Bool) (next : RxJob → Nic) (a : RxJob → Addr) (n : Nat)
    (v : RxJob → BitVec 64) : State :=
  match s.nic.rxJob i with
  | some j => if s.rxOpen i && ok j then { s with mem := s.mem.writeLE n (a j) (v j), nic := next j } else s
  | none => s

/-- The next byte of the frame: bytes ascend from byte 0 and stay inside the slot (R89, R90). -/
def State.rxByte (s : State) (i : Slot) : State :=
  s.rxStore i (fun j => decide (j.count < j.frame.length) && decide (j.count < Config.bufSize))
    (fun j => s.nic.putRxJob ⟨i, j.frame, j.count + 1, j.sized⟩)
    (fun j => rxBuf s.cfg i + BitVec.ofNat 64 j.count) 1 (fun j => (j.frame.getD j.count 0).setWidth 64)

/-- The frame's length, once all its bytes are written (R89). -/
def State.rxLength (s : State) (i : Slot) : State :=
  s.rxStore i (fun j => decide (j.count = j.frame.length)) (fun j => s.nic.putRxJob ⟨i, j.frame, j.count, true⟩)
    (fun _ => rxDesc s.cfg i + rxdLen) 2 (fun j => BitVec.ofNat 64 j.frame.length)

/-- A descriptor field of the controller's own, any value (R89). -/
def State.rxField (s : State) (i : Slot) (off : Addr) (n : Nat) (v : BitVec 64) : State :=
  s.rxStore i (fun _ => true) (fun _ => s.nic) (fun _ => rxDesc s.cfg i + off) n (fun _ => v)

/-- The status byte: with the done bit set last of all, after the frame and its length (R89, R85). Before that a byte
with the done bit clear and any other bits may stand there (U13, R215 item 8; DESIGN CHOICE, assumption 41). -/
def State.rxFinish (s : State) (i : Slot) (v : Byte) : State :=
  s.rxStore i (fun j => j.sized || !doneBit v) (fun _ => if doneBit v then s.nic.dropRxJob i else s.nic)
    (fun _ => rxDesc s.cfg i + rxdStatus) 1 (fun _ => v.setWidth 64)

/-! ### Transmit (R88) -/

/-- The transmitter may be running (R74, R91). -/
def Nic.transmits (n : Nic) : Bool := n.txOn || n.resetPending

/-- The slot is handed to the controller and not yet taken: it lies from the head up to but not including the tail
(R85, R88). The controller holds none after a completed reset until `REG_TDT` is written (R88, R172). Where head or tail
is not known otherwise, every slot it could be counts. -/
def Nic.txHolds (n : Nic) (i : Slot) : Bool :=
  (n.txGiven || n.resetPending) &&
  match n.txHead, n.txTail with
  | some h, some t => n.txFull || decide ((i - h).val < (t - h).val)
  | _, _ => true

/-- The slot the controller may take next: the one at its head, if it is handed over (R88). -/
def Nic.txOffers (n : Nic) (i : Slot) : Bool := n.txHolds i && (n.txHead.isNone || n.txHead == some i)

/-- The controller takes the slot at its head, and the head advances (R88). -/
def State.txFetch (s : State) (i : Slot) : State :=
  if s.mastersBus && s.nic.transmits && s.nic.txOffers i then
    { s with
      nic := { s.nic with
        txHead := s.nic.txHead.map nextSlot, txFull := false, txJobs := s.nic.txJobs ++ [⟨i, false, [], []⟩] } }
  else s

/-- Bytes as a number, the first least significant (R70). -/
def bytesLE : List Byte → BitVec 64
  | [] => 0
  | b :: bs => b.setWidth 64 ||| (bytesLE bs <<< 8)

/-- The `n`-byte field at an offset of a fetched descriptor (R111). -/
def descField (desc : List Byte) (off : Addr) (n : Nat) : BitVec 64 := bytesLE ((desc.drop off.toNat).take n)

/-- A fetched descriptor asks for a status report (R112, R88): all bits of `TXCMD_RS` are set in its command byte. R8 puts
no constraint on the mask; that one of several bits must be set whole, and that a mask of 0 always asks, is the model's
choice (DESIGN CHOICE, assumption 40). -/
def asksReport (c : Cfg) (desc : List Byte) : Bool :=
  (descField desc txdCmd 1).setWidth 8 &&& c.txcmdRs == c.txcmdRs

/-- The whole descriptor of the slot is fetched. -/
def TxJob.described (j : TxJob) : Bool := decide (Config.descSize ≤ j.desc.length)

/-- The descriptor and as many bytes of the frame as it says are fetched (R88). -/
def TxJob.fetched (j : TxJob) : Bool :=
  j.described && decide ((descField j.desc txdLen 2).toNat ≤ j.frame.length)

/-- A status report of the slot is asked for; of a slot of which nothing is known it may be (assumption 7). -/
def TxJob.reports (c : Cfg) (j : TxJob) : Bool := j.stale || (j.described && asksReport c j.desc)

/-- The send of the slot may be complete and reported (R88). -/
def TxJob.due (c : Cfg) (j : TxJob) : Bool := j.stale || (j.fetched && asksReport c j.desc)

/-- The controller goes on with the `k`-th slot taken, if it masters the bus and the slot is at a stage that `ok`
admits. -/
def State.txAdvance (s : State) (k : Nat) (ok : TxJob → Bool) (next : TxJob → State) : State :=
  match s.nic.txJobs[k]? with
  | some j => if s.mastersBus && ok j then next j else s
  | none => s

/-- What is fetched for the `k`-th slot taken. -/
def State.setTxJob (s : State) (k : Nat) (j : TxJob) : State :=
  { s with nic := { s.nic with txJobs := s.nic.txJobs.set k j } }

/-- The `k`-th slot taken is given back. -/
def State.dropTxJob (s : State) (k : Nat) : State :=
  { s with nic := { s.nic with txJobs := s.nic.txJobs.eraseIdx k } }

/-- The next byte of the descriptor, as memory holds it then (R88, R93). -/
def State.txReadDesc (s : State) (k : Nat) : State :=
  s.txAdvance k (fun j => !j.stale && !j.described) (fun j =>
    s.setTxJob k { j with
      desc := j.desc ++ [s.mem.read (txDesc s.cfg j.slot + BitVec.ofNat 64 j.desc.length).toNat] })

/-- The next byte of the frame, from the buffer the fetched descriptor names, as memory holds it then (R88, R93, R262). -/
def State.txReadFrame (s : State) (k : Nat) : State :=
  s.txAdvance k (fun j => !j.stale && j.described && !j.fetched) (fun j =>
    s.setTxJob k { j with
      frame := j.frame ++
        [s.mem.read (descField j.desc txdAddr 8 + BitVec.ofNat 64 j.frame.length).toNat] })

/-- A frame whose descriptor asks for no report is sent: nothing is written back (R88, R112). -/
def State.txSend (s : State) (k : Nat) : State :=
  s.txAdvance k (fun j => !j.stale && j.fetched && !asksReport s.cfg j.desc) (fun _ => s.dropTxJob k)

/-- The status byte of a taken slot: with the done bit set when its send is complete, which gives it back, late
completions included (R85, R88, R262). While the done bit is clear a byte with it clear and any other bits may stand
there, the slot staying taken (U13, R205 item 5; R88 and R90 neither grant nor exclude it: DESIGN CHOICE, assumption
41). A done bit is never cleared (R90). -/
def State.txStore (s : State) (k : Nat) (v : Byte) : State :=
  s.txAdvance k (fun j => if doneBit v then j.due s.cfg else j.reports s.cfg && !txDone s.cfg s.mem j.slot) (fun j =>
    { (if doneBit v then s.dropTxJob k else s) with
      mem := s.mem.writeLE 1 (txDesc s.cfg j.slot + txdStatus) (v.setWidth 64) })

/-! ### The controller's accesses -/

/-- The end of a device reset (R31, R91): what was under way is dropped and any interrupt causes may be pending after it.
Of what was written while it ran it may overwrite the receiver's enable, the transmitter's enable and the ring
registers, each by itself: that leaves the receiver off, the transmitter off, the rings unknown (DESIGN CHOICE,
assumption 18). The PCI command register stays as it was, at the end as at the start, since the spec does not say that a
device reset reaches it (DESIGN CHOICE, assumption 43). -/
def Nic.resetEnds (n : Nic) (rxLost txLost ringsLost : Bool) (causes : Word) : Nic :=
  if n.resetPending then
    { n with
      icause := causes, resetPending := false, rxOn := n.rxOn && !rxLost, txOn := n.txOn && !txLost
      txHead := if ringsLost then none else n.txHead, txTail := if ringsLost then none else n.txTail
      txFull := n.txFull && !ringsLost, txJobs := []
      rxHead := if ringsLost then none else n.rxHead, rxWaiting := [], rxJobs := [] }
  else n

/-- One access of the controller (R86 to R91). An access the contract does not allow does not happen. -/
def State.nicMove (s : State) : NicMove → State
  | .cause bits => { s with nic := { s.nic with icause := s.nic.icause ||| bits } }
  | .resetDone rxLost txLost ringsLost causes =>
    { s with nic := s.nic.resetEnds rxLost txLost ringsLost causes }
  | .txStart => { s with nic := { s.nic with txOn := true } }
  | .txFetch i => s.txFetch i
  | .txDescByte k => s.txReadDesc k
  | .txFrameByte k => s.txReadFrame k
  | .txSent k => s.txSend k
  | .txStatus k v => s.txStore k v
  | .rxArrive frame => s.rxArrive frame
  | .rxDrop => { s with nic := { s.nic with rxWaiting := s.nic.rxWaiting.tail } }
  | .rxTake i => s.rxTake i
  | .rxData i => s.rxByte i
  | .rxLen i => s.rxLength i
  | .rxCsum i v => s.rxField i rxdCsum 2 (v.setWidth 64)
  | .rxErrors i v => s.rxField i rxdErrors 1 (v.setWidth 64)
  | .rxSpecial i v => s.rxField i rxdSpecial 2 (v.setWidth 64)
  | .rxStatus i v => s.rxFinish i v

/-- The controller acts, as often as it wants, before the block's next event (R79, R81 item 4). -/
def State.nicTurn (s : State) : State :=
  { s.env.moves.foldl State.nicMove s with env := s.env.advance }

/-! ### Register writes -/

/-- The slot a head or tail register value names, a slot index 0 to 7 (R38, R39); any other value names none. -/
def slotAt (v : Word) : Option Slot := if v.toNat < 8 then some (slotOf v) else none

/-- The controller after a write whose effect on it is not stated: it may be receiving, transmitting, in a reset, and
hold or have taken any TX slot (assumptions 9, 10). -/
def Nic.disturbed (n : Nic) : Nic :=
  { n with
    rxOn := true, txOn := true, resetPending := true, txHead := none, txTail := none, txFull := false, txGiven := true
    txJobs := staleJobs, rxHead := none }

/-- A device reset starts (R31): receiver and transmitter off (DESIGN CHOICE, assumption 18), and the ring registers may
be stale or reset (R252); the TX slots of the ring before it are no longer handed over once it has ended (R88, R172). That the PCI command register stays as it was, and with it what the controller may do on the
bus, is the model's choice: the spec does not say whether a device reset reaches it (DESIGN CHOICE, assumption 43). -/
def Nic.startReset (n : Nic) : Nic :=
  { n with
    resetPending := true, rxOn := false, txOn := false, txHead := none, txTail := none, txFull := false
    txGiven := false, rxHead := none }

/-- The slot a tail of `v` moves past last carries a clear done bit: the block has marked it as the controller's, as it
does "before handing the slot over" (R27, R85). `INIT` marks every slot as already sent (R171). -/
def slotMarked (c : Cfg) (m : Memory) (v : Word) : Bool := !txDone c m (slotOf v - 1)

/-- The tail register takes a value, which may hand slots over (R85, R88); `marked` says whether the last slot before the
new tail is marked as the controller's. A tail that comes to stand on the head leaves the ring empty or full by the
controller's own convention (R262). It counts as full, and so as handed over, if that slot is marked (R88: a send may
succeed from every state), or the tail moved there, or stood there while the transmitter may be running; else as empty
(R172; DESIGN CHOICE, assumption 11). -/
def Nic.takeTail (n : Nic) (marked : Bool) (v : Word) : Nic :=
  { n with
    txTail := slotAt v, txGiven := true
    txFull := (slotAt v).isSome && n.txHead == slotAt v &&
      (marked || (n.txTail.isSome && (n.txTail != slotAt v || n.transmits))) }

/-- The head register takes a value (R39, R172). A head that only `WRITE_REG` can put onto the known tail leaves the ring
empty or full: the spec does not say which. It counts as full exactly if the transmitter may be running, whatever the
done bits of the slots say (DESIGN CHOICE, assumption 46). -/
def Nic.takeHead (n : Nic) (v : Word) : Nic :=
  { n with txHead := slotAt v, txFull := (slotAt v).isSome && n.txTail == slotAt v && n.transmits }

/-- The controller takes a write of a named register (R31, R35, R36, R38, R74, R88). That the bits of `REG_CTRL` other than
`CTRL_RST`, which are "unknown to this spec" (R31), and the registers not listed here do nothing to what the controller
does is the model's choice (DESIGN CHOICE, assumption 38). -/
def Nic.take (n : Nic) (c : Cfg) (m : Memory) (r : Reg) (v : Word) : Nic :=
  match r with
  | .ctrl => if v &&& c.ctrlRst ≠ 0 then { n.startReset with regs := n.regs.set .ctrl v }
    else { n with regs := n.regs.set .ctrl v }
  | .rctl => { n with regs := n.regs.set .rctl v, rxOn := hasBits v c.rctlEn }
  | .tctl => { n with regs := n.regs.set .tctl v, txOn := hasBits v c.tctlEn }
  | .rdh => { n with regs := n.regs.set .rdh v, rxHead := slotAt v }
  | .tdh => { n.takeHead v with regs := n.regs.set .tdh v }
  | .tdt => { n.takeTail (slotMarked c m v) v with regs := n.regs.set .tdt v }
  | r => { n with regs := n.regs.set r v }

end Sys2Proof.Machine
end

