-- ==== Sys2Proof/Machine/Ops.lean ====
section
/-! DEFINITION. The operations every meaning is written over: the events of the ports (R12, R13), the register interface
(R140 to R144), byte runs, and the end of a command by a response or by the refusal of R105. The block has no trap: the
one shared "exception" is `State.refuse` (R15, R224, R228). -/

namespace Sys2Proof.Machine

/-- An event joins the history. -/
def State.record (s : State) (e : Event) : State := { s with events := e :: s.events }

/-- `MemRead(addr, n)` of ordinary memory: the value and the state after it (R12, R81 item 3). -/
def State.memRead (s : State) (a : Addr) (n : Nat) : BitVec 64 × State :=
  (s.nicTurn.mem.readLE n a, s.nicTurn.record (.memRead a n (s.nicTurn.mem.readLE n a)))

/-- Replace the memory. -/
def State.setMem (s : State) (m : Memory) : State := { s with mem := m }

/-- `MemWrite(addr, n, v)` to ordinary memory (R12). -/
def State.memWrite (s : State) (a : Addr) (n : Nat) (v : BitVec 64) : State :=
  (s.nicTurn.setMem (s.nicTurn.mem.writeLE n a v)).record (.memWrite a n v)

/-- `Fence()`: an event that changes no state (R83). -/
def State.fence (s : State) : State := s.nicTurn.record .fence

/-- `n` `Spin()` events: time for the controller and nothing else (R142). -/
def State.delay (s : State) (n : Nat) : State := if n = 0 then s else s.nicTurn.record (.spin n)

/-- `Emit(bytes)` (R68). -/
def State.emit (s : State) (line : List Byte) : State := s.nicTurn.record (.emit line)

/-- All `n` bytes at an address lie in the four regions. -/
def ramCovers (c : Cfg) (n : Nat) (a : Addr) : Bool :=
  (List.range n).all (fun k => decide (c.inRam (a + BitVec.ofNat 64 k).toNat))

/-- Those of the `n` bytes at an address that lie in the four regions take the value (R254 (a); assumption 9). -/
def ramStore (c : Cfg) (m : Memory) : Nat → Addr → BitVec 64 → Memory
  | 0, _, _ => m
  | n + 1, a, v =>
    ramStore c (if c.inRam a.toNat then m.write a.toNat (v.setWidth 8) else m) n (a + 1) (v >>> 8)

/-- An access at `s.base + off` reaches the controller's interrupt cause register: the window is discovered and decoded
(R86) and the offset is `REG_ICAUSE`. That every base but 0 is the controller's window, whatever kind of window the
base-address register described, is the model's choice (U8, R267; DESIGN CHOICE, assumption 36). -/
def State.reachesCause (s : State) (off : Word) : Bool :=
  decide (s.base ≠ 0) && s.decodesMemory && s.cfg.regAt off == some .icause

/-- The value a read at `s.base + off` answers: the bytes of ordinary memory if that is where the address lies, the
pending cause bits at `REG_ICAUSE` of the window, else a draw (R33, R81 item 3, R87, U1, U5). A base other than 0 is
taken as the controller's window (DESIGN CHOICE, assumption 36). -/
def State.regAnswer (s : State) (off : Word) : Word :=
  if ramCovers s.cfg 4 (regAddr s.base off) then (s.mem.readLE 4 (regAddr s.base off)).setWidth 32
  else if s.reachesCause off then s.nic.icause
  else s.env.busAnswer

/-- What a read at `s.base + off` changes outside the block: `REG_ICAUSE` is read-to-clear (R33, R74). "The side effects
of reading any other controller register are not in the document" (R74): that such a read, at a named or an unnamed
offset, changes nothing in the controller is the model's choice (DESIGN CHOICE, assumption 37), and so is that a base
other than 0 is the controller's window (DESIGN CHOICE, assumption 36). -/
def State.regReadEffect (s : State) (off : Word) : State :=
  if ramCovers s.cfg 4 (regAddr s.base off) then s
  else if s.reachesCause off then { s with nic := { s.nic with icause := 0 } }
  else { s with env := s.env.busAnswered }

/-- `MemRead(s.base + off, 4)`: one volatile access (R140). -/
def State.busRead (s : State) (off : Word) : State :=
  (s.nicTurn.regReadEffect off).record
    (.memRead (regAddr s.base off) 4 ((s.nicTurn.regAnswer off).setWidth 64))

/-- `readReg(off)`: one read and one fence; the value read and the state after both (R140, R144). -/
def State.readReg (s : State) (off : Word) : Word × State :=
  (s.nicTurn.regAnswer off, (s.busRead off).fence)

/-- The controller after a write at `s.base + off` of a named register. It takes the write if it decodes its window
(R86); with `s.base = 0` where the write lands is not stated (R254 (a), U1; assumption 9). That every base but 0 is the
controller's window, whatever kind of window the base-address register described, is the model's choice (U8, R267;
DESIGN CHOICE, assumption 36). -/
def State.nicAfterNamed (s : State) (r : Reg) (v : Word) : Nic :=
  if !s.decodesMemory then { s.nic with regs := s.nic.regs.set r v }
  else if s.base = 0 then { s.nic.disturbed with regs := s.nic.regs.set r v }
  else s.nic.take s.cfg s.mem r v

/-- The controller after a write at `s.base + off`. The effect of an offset that the document does not name is not
stated (U6; assumption 10); a controller that does not decode its window sees none (R86). A base other than 0 is taken
as the controller's window (DESIGN CHOICE, assumption 36). -/
def State.nicAfterWrite (s : State) (off v : Word) : Nic :=
  match s.cfg.regAt off with
  | some r => s.nicAfterNamed r v
  | none =>
    if ramCovers s.cfg 4 (regAddr s.base off) || !s.decodesMemory then s.nic else s.nic.disturbed

/-- What a write at `s.base + off` changes: the bytes of ordinary memory that lie there, and the controller. -/
def State.regWriteEffect (s : State) (off v : Word) : State :=
  { s with
    mem := ramStore s.cfg s.mem 4 (regAddr s.base off) (v.setWidth 64)
    nic := s.nicAfterWrite off v }

/-- `MemWrite(s.base + off, 4, v)`: one volatile access (R141). -/
def State.busWrite (s : State) (off v : Word) : State :=
  (s.nicTurn.regWriteEffect off v).record (.memWrite (regAddr s.base off) 4 (v.setWidth 64))

/-- `writeReg(off, v)`: one write and one fence (R141, R144). -/
def State.writeReg (s : State) (off v : Word) : State := (s.busWrite off v).fence

/-- `readReg` of a named register. -/
def State.readNamed (s : State) (r : Reg) : Word × State := s.readReg (s.cfg.offset r)

/-- `writeReg` of a named register. -/
def State.writeNamed (s : State) (r : Reg) (v : Word) : State := s.writeReg (s.cfg.offset r) v

/-- `CfgRead(bus, slot, 0, off)`: the value and the state after it (R66). -/
def State.cfgRead (s : State) (bus slot : Nat) (off : Byte) : Word × State :=
  (s.nicTurn.env.cfgAnswer bus slot,
   { s.nicTurn with env := s.nicTurn.env.cfgAnswered }.record
     (.cfgRead bus slot 0 off (s.nicTurn.env.cfgAnswer bus slot)))

/-- `CfgWrite(bus, slot, 0, PCI_CMD_OFF, v)`, the one configuration write of the block (R66, R150). A second `FIND_DEVICE`
may match another function (R151 item 7), and the spec does not say whose command register and whose controller state
count then. The model keeps one `pciCommand` and one `nic` for whatever function is written: the write replaces
`pciCommand`, and `nic` goes on as it was (DESIGN CHOICE, assumption 45). -/
def State.cfgWriteCommand (s : State) (bus slot : Nat) (v : Word) : State :=
  { s.nicTurn with pciCommand := v }.record (.cfgWrite bus slot 0 s.cfg.pciCmdOff v)

/-- Write bytes one at a time, ascending (R71, R185). -/
def State.writeBytes (s : State) (a : Addr) : List Byte → State
  | [] => s
  | b :: bs => (s.memWrite a 1 (b.setWidth 64)).writeBytes (a + 1) bs

/-- Read bytes one at a time, ascending (R182). -/
def State.readBytes (s : State) (a : Addr) : Nat → List Byte × State
  | 0 => ([], s)
  | n + 1 =>
    ((s.memRead a 1).1.setWidth 8 :: ((s.memRead a 1).2.readBytes (a + 1) n).1,
     ((s.memRead a 1).2.readBytes (a + 1) n).2)

/-- Read one byte (R73). -/
def State.readByte (s : State) (a : Addr) : Byte × State :=
  ((s.memRead a 1).1.setWidth 8, (s.memRead a 1).2)

/-- A command ends with its response (R104). -/
def State.respond (s : State) (r : Response) : State := { s with response := some r }

/-- The refusal of a command: `err = 1`, no event, no other change (R105, R224). -/
def State.refuse (s : State) : State := s.respond refusedResponse

/-- The sequencer register takes a value (R24). -/
def State.setPhase (s : State) (p : Phase) : State := { s with phase := p }
/-- The TX tail cursor takes a value (R23). -/
def State.setTxTail (s : State) (v : Word) : State := { s with txTail := v }
/-- The RX tail cursor takes a value (R23). -/
def State.setRxTail (s : State) (v : Word) : State := { s with rxTail := v }
/-- The MMIO base takes a value (R21). -/
def State.setBase (s : State) (v : Word) : State := { s with base := v }

end Sys2Proof.Machine
end

