-- ==== Sys2Proof/Machine/Command.lean ====
section
/-! DEFINITION. The command port: taking the caller's next command, waiting for one, and placing one (R67, R80, R100). -/

namespace Sys2Proof.Machine

/-- The command on the port is taken; the caller's next one follows it (R80). -/
def State.takeCommand (s : State) : State := { s with caller := s.caller.tail }

/-- No command is presented: the block waits and only the controller acts (R79, R250). -/
def State.waitForCommand (s : State) : State := s.nicTurn

/-- The caller presents this command next, in place of the one it would have presented. -/
def State.present (s : State) (c : Command) : State := { s with caller := c :: s.caller.tail }

end Sys2Proof.Machine
end

