-- ==== Sys2Proof/Machine/Discovery.lean ====
section
/-! DEFINITION. Device discovery: FIND_DEVICE (R150 to R152). -/

namespace Sys2Proof.Machine

/-- The functions the scan probes, in order: bus outer, slot inner, both ascending (R150). -/
def pciFunctions : List (Nat × Nat) :=
  (List.range Config.pciBusCount).flatMap (fun b => (List.range Config.pciSlotCount).map (fun t => (b, t)))

/-- What a match does: command register read and written back with the enable bits, then the base-address register
read and `s.base` written (R150). -/
def State.claimDevice (s : State) (bus slot : Nat) : State :=
  let cmd := s.cfgRead bus slot s.cfg.pciCmdOff
  let bar := (cmd.2.cfgWriteCommand bus slot (pciCommandValue s.cfg cmd.1)).cfgRead bus slot s.cfg.pciBar0Off
  bar.2.setBase (mmioBase bar.1)

/-- The scan: whether a function matched, and the state after it (R150). -/
def State.scan (s : State) : List (Nat × Nat) → Bool × State
  | [] => (false, s)
  | p :: ps =>
    if isMatch s.cfg (s.cfgRead p.1 p.2 s.cfg.pciIdOff).1 then
      (true, (s.cfgRead p.1 p.2 s.cfg.pciIdOff).2.claimDevice p.1 p.2)
    else (s.cfgRead p.1 p.2 s.cfg.pciIdOff).2.scan ps

/-- `FIND_DEVICE` (R150). -/
def execFindDevice (s : State) : Host.Outcome State Fault Refusal :=
  .next ((s.scan pciFunctions).2.respond
    (responseOf (s.scan pciFunctions).1 (s.scan pciFunctions).2.base))

end Sys2Proof.Machine
end

