-- ==== Sys2Proof/Machine/Receive.lean ====
section
/-! DEFINITION. The receive engine: CHECK_REPLY (R210 to R216). -/

namespace Sys2Proof.Machine

/-- Recycle slot `j`: status and length cleared, a fence, the tail register, then the cursor (R210). -/
def State.recycleRx (s : State) (j : Slot) : State :=
  ((((s.memWrite (rxDesc s.cfg j + rxdStatus) 1 0).memWrite (rxDesc s.cfg j + rxdLen) 2 0).fence).writeNamed
    .rdt (slotWord j)).setRxTail (slotWord j)

/-- The slot holds a frame: read the length and two bytes, recycle whatever they are, answer the classification
(R210, R211). -/
def State.consumeRx (s : State) (j : Slot) : State :=
  let len := s.memRead (rxDesc s.cfg j + rxdLen) 2
  let b23 := len.2.readByte (rxBuf s.cfg j + 23)
  let b34 := b23.2.readByte (rxBuf s.cfg j + 34)
  (b34.2.recycleRx j).respond (responseOf (isReply (len.1.setWidth 16) b23.1 b34.1) 0)

/-- Inspect slot `j`: status, fence, and the frame if the done bit is set (R210, R212). -/
def State.inspectRx (s : State) (j : Slot) : State :=
  let st := s.readByte (rxDesc s.cfg j + rxdStatus)
  if doneBit st.1 then st.2.fence.consumeRx j else st.2.fence.respond (responseOf false 0)

/-- `CHECK_REPLY` (R210): only the single next-expected slot. -/
def execCheckReply (s : State) : Host.Outcome State Fault Refusal :=
  .next (s.inspectRx (nextSlot (slotOf s.rxTail)))

end Sys2Proof.Machine
end

