-- ==== Sys2Proof/Machine/RegisterInterface.lean ====
section
/-! DEFINITION. The register interface: READ_REG, WRITE_REG, DELAY, FENCE (R140 to R143). -/

namespace Sys2Proof.Machine

/-- `READ_REG off` (R140). An offset that is not a multiple of 4 is given no meaning (R72, U6). -/
def execReadReg (off : Word) (s : State) : Host.Outcome State Fault Refusal :=
  if off.toNat % 4 = 0 then .next ((s.readReg off).2.respond (responseOf true (s.readReg off).1))
  else .refused .misalignedRegisterOffset

/-- `WRITE_REG off, value` (R141). An offset that is not a multiple of 4 is given no meaning (R72, U6). -/
def execWriteReg (off value : Word) (s : State) : Host.Outcome State Fault Refusal :=
  if off.toNat % 4 = 0 then .next ((s.writeReg off value).respond (responseOf true 0))
  else .refused .misalignedRegisterOffset

/-- `DELAY n` (R142). -/
def execDelay (n : Word) (s : State) : Host.Outcome State Fault Refusal :=
  .next ((s.delay n.toNat).respond (responseOf true 0))

/-- `FENCE` (R143). -/
def execFence (s : State) : Host.Outcome State Fault Refusal :=
  .next (s.fence.respond (responseOf true 0))

end Sys2Proof.Machine
end

