-- ==== Sys2Proof/Machine/RingInit.lean ====
section
/-! DEFINITION. The descriptor ring controller: INIT, one definition per step (R160 to R175). -/

namespace Sys2Proof.Machine

/-- Step 1 (R162): mask all interrupts, then a fixed delay. -/
def State.initStep1 (s : State) : State := (s.writeNamed .imask s.cfg.imaskAll).delay s.cfg.delayMask

/-- Step 2 (R163): clear the pending interrupt causes by reading them. -/
def State.initStep2 (s : State) : State := (s.readNamed .icause).2

/-- Step 3 (R164): set the device-reset bit, preserving the other bits. -/
def State.initStep3 (s : State) : State :=
  (s.readNamed .ctrl).2.writeNamed .ctrl ((s.readNamed .ctrl).1 ||| s.cfg.ctrlRst)

/-- Step 4 (R165): wait; the end of the reset is not observed. -/
def State.initStep4 (s : State) : State := s.delay s.cfg.delayReset

/-- Step 5 (R166): clear the causes again and mask again. -/
def State.initStep5 (s : State) : State :=
  ((s.readNamed .icause).2.writeNamed .imask s.cfg.imaskAll).setPhase .reset

/-- The six writes of one RX descriptor (R167). -/
def State.clearRxDesc (s : State) (i : Slot) : State :=
  (((((s.memWrite (rxDesc s.cfg i + rxdAddr) 8 (rxBuf s.cfg i)).memWrite (rxDesc s.cfg i + rxdLen) 2 0).memWrite
    (rxDesc s.cfg i + rxdCsum) 2 0).memWrite (rxDesc s.cfg i + rxdStatus) 1 0).memWrite
    (rxDesc s.cfg i + rxdErrors) 1 0).memWrite (rxDesc s.cfg i + rxdSpecial) 2 0

/-- Step 6 (R167): every RX descriptor, ascending. -/
def State.initStep6 (s : State) : State := allSlots.foldl State.clearRxDesc s

/-- Step 7 (R168): the RX ring registers, and the cursor with the tail register's value. -/
def State.initStep7 (s : State) : State :=
  (((((s.writeNamed .rdbal (baseLow s.cfg.rxDescBase)).writeNamed .rdbah (baseHigh s.cfg.rxDescBase)).writeNamed
    .rdlen ringLength).writeNamed .rdh 0).writeNamed .rdt 7).setRxTail 7

/-- Step 8 (R169): the MAC filter pair, low register first. -/
def State.initStep8 (s : State) : State :=
  ((s.writeNamed .macfLo (macfLo s.mac)).writeNamed .macfHi (macfHi s.mac)).setPhase .rxConfigured

/-- Step 9 (R170): enable the receiver. -/
def State.initStep9 (s : State) : State := (s.writeNamed .rctl (rctlValue s.cfg)).setPhase .rxEnabled

/-- The seven writes of one TX descriptor, status 1 (R171). -/
def State.clearTxDesc (s : State) (i : Slot) : State :=
  ((((((s.memWrite (txDesc s.cfg i + txdAddr) 8 (txBuf s.cfg i)).memWrite (txDesc s.cfg i + txdLen) 2 0).memWrite
    (txDesc s.cfg i + txdCso) 1 0).memWrite (txDesc s.cfg i + txdCmd) 1 0).memWrite
    (txDesc s.cfg i + txdStatus) 1 1).memWrite (txDesc s.cfg i + txdCss) 1 0).memWrite
    (txDesc s.cfg i + txdSpecial) 2 0

/-- Step 10 (R171): every TX descriptor, ascending. -/
def State.initStep10 (s : State) : State := allSlots.foldl State.clearTxDesc s

/-- Step 11 (R172): the TX ring registers, the inter-packet gap, and the cursor. -/
def State.initStep11 (s : State) : State :=
  (((((((s.writeNamed .tdbal (baseLow s.cfg.txDescBase)).writeNamed .tdbah (baseHigh s.cfg.txDescBase)).writeNamed
    .tdlen ringLength).writeNamed .tdh 0).writeNamed .tdt 0).writeNamed .tipg s.cfg.tipgValue).setTxTail 0).setPhase
    .txConfigured

/-- Step 12 (R173): enable the transmitter. -/
def State.initStep12 (s : State) : State := (s.writeNamed .tctl (tctlValue s.cfg)).setPhase .ready

/-- Steps 1 to 5: the controller reset requested and assumed complete (R162 to R166). -/
def State.initReset (s : State) : State := s.initStep1.initStep2.initStep3.initStep4.initStep5

/-- Steps 6 to 9: the receive side (R167 to R170). -/
def State.initReceive (s : State) : State := s.initStep6.initStep7.initStep8.initStep9

/-- Steps 10 to 12: the transmit side (R171 to R173). -/
def State.initTransmit (s : State) : State := s.initStep10.initStep11.initStep12

/-- `INIT` (R160): the twelve steps in order, none skipped, from any state (R175, R254; assumption 12). -/
def execInit (s : State) : Host.Outcome State Fault Refusal :=
  .next (s.initReset.initReceive.initTransmit.respond (responseOf true 0))

end Sys2Proof.Machine
end

