-- ==== Sys2Proof/Machine/FrameBuilder.lean ====
section
/-! DEFINITION. The checksum engine and the frame builder: CHECKSUM and BUILD_FRAME (R180 to R187). -/

namespace Sys2Proof.Machine

/-- The bytes of a range of the TX slot `s.tx_tail`, read ascending (R182). -/
def State.checksumBytes (s : State) (start len : Nat) : List Byte × State :=
  s.readBytes (txBuf s.cfg (slotOf s.txTail) + BitVec.ofNat 64 start) len

/-- The engine's work on an accepted range: the reads and the response (R182). -/
def State.runChecksum (s : State) (start len : Nat) : State :=
  (s.checksumBytes start len).2.respond
    (responseOf true ((cksum (s.checksumBytes start len).1).setWidth 32))

/-- `CHECKSUM start, len` (R182): refused when the range does not lie in the slot. -/
def execChecksum (start len : Word) (s : State) : Host.Outcome State Fault Refusal :=
  .next (if start.toNat + len.toNat > Config.bufSize then s.refuse else s.runChecksum start.toNat len.toNat)

/-- Compute the checksum of `len` bytes of the slot from byte `start` and write it, high byte first, at byte `field`
(R185). -/
def State.insertChecksum (s : State) (b : Addr) (start len field : Nat) : State :=
  let r := s.readBytes (b + BitVec.ofNat 64 start) len
  (r.2.memWrite (b + BitVec.ofNat 64 field) 1 ((hiByte (cksum r.1)).setWidth 64)).memWrite
    (b + BitVec.ofNat 64 (field + 1)) 1 ((loByte (cksum r.1)).setWidth 64)

/-- Build the frame of a sequence number into the TX slot `s.tx_tail` (R185). -/
def State.buildFrame (s : State) (seq : Half) : State :=
  ((s.writeBytes (txBuf s.cfg (slotOf s.txTail)) (rawFrame s.cfg s.mac seq)).insertChecksum
    (txBuf s.cfg (slotOf s.txTail)) 14 20 24).insertChecksum (txBuf s.cfg (slotOf s.txTail)) 34 64 36

/-- `BUILD_FRAME seq` (R185). -/
def execBuildFrame (seq : Half) (s : State) : Host.Outcome State Fault Refusal :=
  .next ((s.buildFrame seq).respond (responseOf true (BitVec.ofNat 32 Config.frameLen)))

end Sys2Proof.Machine
end

