-- ==== Sys2Proof/Machine/Transmit.lean ====
section
/-! DEFINITION. The transmit engine: SEND_ECHO (R200 to R206). -/

namespace Sys2Proof.Machine

/-- The three descriptor writes of a send: length, command, status 0 (R200). -/
def State.fillTxDesc (s : State) (i : Slot) : State :=
  ((s.memWrite (txDesc s.cfg i + txdLen) 2 (BitVec.ofNat 64 Config.frameLen)).memWrite
    (txDesc s.cfg i + txdCmd) 1 ((txCommand s.cfg).setWidth 64)).memWrite (txDesc s.cfg i + txdStatus) 1 0

/-- Hand the slot over: a fence, the tail register, then the cursor with the same value (R200). -/
def State.publishTx (s : State) (i : Slot) : State :=
  (s.fence.writeNamed .tdt (slotWord (nextSlot i))).setTxTail (slotWord (nextSlot i))

/-- The first half of a send (R200): build, fill the descriptor, publish. -/
def State.enqueue (s : State) (seq : Half) : State :=
  ((s.buildFrame seq).fillTxDesc (slotOf s.txTail)).publishTx (slotOf s.txTail)

/-- The bounded poll of a slot's done bit: read, fence, test, delay (R201). -/
def State.pollTx (i : Slot) : Nat → State → Bool × State
  | 0, s => (false, s)
  | p + 1, s =>
    if doneBit (s.readByte (txDesc s.cfg i + txdStatus)).1 then
      (true, (s.readByte (txDesc s.cfg i + txdStatus)).2.fence)
    else State.pollTx i p ((s.readByte (txDesc s.cfg i + txdStatus)).2.fence.delay s.cfg.txPollDelay)

/-- A timeout is logged; nothing is undone (R202). -/
def State.finishTx (r : Bool × State) : State := if r.1 then r.2 else r.2.emit r.2.cfg.msgTxTimeout

/-- `SEND_ECHO seq` (R200 to R202). -/
def execSendEcho (seq : Half) (s : State) : Host.Outcome State Fault Refusal :=
  .next ((State.finishTx (State.pollTx (slotOf s.txTail) s.cfg.txPollMax (s.enqueue seq))).respond
    (responseOf (State.pollTx (slotOf s.txTail) s.cfg.txPollMax (s.enqueue seq)).1 (slotWord (slotOf s.txTail))))

end Sys2Proof.Machine
end

