-- ==== Sys2Proof/Machine/Dispatch.lean ====
section
/-! DEFINITION. One arm per operation of R102, each a direct call of its meaning. -/

namespace Sys2Proof.Machine

/-- The effect of one command of the block (R102). -/
def exec (i : Instr) (s : State) : Host.Outcome State Fault Refusal :=
  match i with
  | .findDevice => Sys2Proof.Machine.execFindDevice s
  | .init => Sys2Proof.Machine.execInit s
  | .sendEcho seq => Sys2Proof.Machine.execSendEcho seq s
  | .checkReply => Sys2Proof.Machine.execCheckReply s
  | .readReg off => Sys2Proof.Machine.execReadReg off s
  | .writeReg off value => Sys2Proof.Machine.execWriteReg off value s
  | .delay n => Sys2Proof.Machine.execDelay n s
  | .fence => Sys2Proof.Machine.execFence s
  | .checksum start len => Sys2Proof.Machine.execChecksum start len s
  | .buildFrame seq => Sys2Proof.Machine.execBuildFrame seq s

end Sys2Proof.Machine
end

