-- ==== Sys2Proof/Machine/Step.lean ====
section
/-! DEFINITION. One step of the machine: one command from the port to its response (R80), a refusal of an illegal command
word (R105), or waiting. -/

namespace Sys2Proof.Machine

/-- One step. A step is a whole command, since one command runs to its response before the next is accepted (R80). -/
def step (s : State) : Host.Outcome State Fault Refusal :=
  match s.caller with
  | [] => .next s.waitForCommand
  | c :: _ =>
    match decode c with
    | .ok i => exec i s.takeCommand
    | .error _ => .next s.takeCommand.refuse

/-- The state in which the caller presents the table word `w` next (assumption 13). -/
def State.withFetchWord (s : State) (nbits w : Nat) : State := s.present (tableCommand nbits w)

end Sys2Proof.Machine
end

