-- ==== Sys2Proof/Safety.lean ====
section
/-! DEFINITION. The terms claims are stated in: what the controller may touch, a silent environment, frames, the
invariants of the machine (R28, R46, R84), the premise `ResetCompletes` (R91), and reference functions of the spec's
own derivations (R152, R181, R203). -/

namespace Sys2Proof.Machine

/-- The controller makes no access from here on. -/
abbrev State.Quiet (s : State) : Prop := s.env.script = [] ∧ s.env.silent = true

/-- An address the controller may ever write: a byte of an RX buffer, one of the fields of an RX descriptor after its
address field, or a TX status byte (R88 to R90). -/
abbrev nicMay (c : Cfg) (a : Nat) : Prop :=
  (∃ i : Slot, ∃ k : Fin 2048, a = (rxBuf c i + BitVec.ofNat 64 k.val).toNat) ∨
  (∃ i : Slot, ∃ k : Fin 8, a = (rxDesc c i + BitVec.ofNat 64 (8 + k.val)).toNat) ∨
  (∃ i : Slot, a = (txDesc c i + txdStatus).toNat)

/-- An address is one of the `n` bytes from `b`. -/
abbrev isByteOf (b : Addr) (n : Nat) (a : Nat) : Prop := ∃ k : Fin n, a = (b + BitVec.ofNat 64 k.val).toNat

/-- Every byte outside `stored` reads as before: all of them if the controller is silent, else those it may never
write. -/
def MemFrame (s t : State) (stored : Nat → Prop) : Prop :=
  ∀ a, ¬ stored a → (s.Quiet ∨ ¬ nicMay s.cfg a) → t.mem.read a = s.mem.read a

/-- The block's registers other than the two tails and the base, the parameter record, and the caller are unchanged. -/
abbrev KeepsFixed (s t : State) : Prop :=
  t.cfg = s.cfg ∧ t.mac = s.mac ∧ t.caller = s.caller

/-- Every session register and the sequencer register are unchanged (R20, R24). -/
abbrev KeepsSession (s t : State) : Prop :=
  KeepsFixed s t ∧ t.base = s.base ∧ t.txTail = s.txTail ∧ t.rxTail = s.rxTail ∧ t.phase = s.phase

/-- The controller's registers hold what the block last wrote before, and a silent controller is unchanged. -/
abbrev KeepsNic (s t : State) : Prop := t.nic.regs = s.nic.regs ∧ (s.Quiet → t.nic = s.nic)

/-- A 4-byte access: in this machine, an access of a controller register (R73). -/
def isRegAccess : Event → Bool
  | .memRead _ n _ => n == 4
  | .memWrite _ n _ => n == 4
  | _ => false

/-- In a history, newest first, every register access has a fence directly after it; `f` says that the event after the
list is a fence (R84). -/
def fencedBefore : Bool → List Event → Bool
  | _, [] => true
  | f, e :: es => (!isRegAccess e || f) && fencedBefore (e == .fence) es

/-- Every register access of the history is immediately followed by a fence (R84). -/
abbrev Fenced (es : List Event) : Prop := fencedBefore false es = true

/-- Bus-master and memory-space enable are set in the PCI command register: so the block leaves it (R122, R150), and
so it may be before (R251; assumption 8). -/
abbrev State.BusEnabled (s : State) : Prop := s.mastersBus = true ∧ s.decodesMemory = true

/-- A frame on its way into a slot has 1 to 2048 bytes, no more of them are written than it has, and all of them once its
length is written (R89). -/
def RxJob.ok (j : RxJob) : Bool :=
  frameOk j.frame && decide (j.count ≤ j.frame.length) && (!j.sized || decide (j.count = j.frame.length))

/-- Every frame that waits or is on its way into a slot is as R89 says. -/
abbrev Nic.JobsOk (n : Nic) : Prop := (∀ j ∈ n.rxJobs, j.ok = true) ∧ ∀ f ∈ n.rxWaiting, frameOk f = true

/-- The invariant of the machine: cursors in range (R20, D31), the MAC constant (R22), the base aligned (R21), memory in
canonical form, the fence discipline (R84), the controller enabled on the bus (R86, R122), and the frames on their way
(R89). -/
abbrev State.Inv (s : State) : Prop :=
  s.txTail.toNat < 8 ∧ s.rxTail.toNat < 8 ∧ s.mac = s.cfg.macAddr ∧ s.base &&& 0xF = 0 ∧ s.mem.wf ∧ Fenced s.events ∧
  s.BusEnabled ∧ s.nic.JobsOk

/-- Each tail register was last written with the value of its cursor (R28, R263). -/
abbrev State.TailsCoherent (s : State) : Prop := s.nic.regs.tdt = s.txTail ∧ s.nic.regs.rdt = s.rxTail

/-- Descriptor `i` addresses buffer slot `i`, in both rings (R46). -/
abbrev State.RingsAddressed (s : State) : Prop :=
  ∀ i : Slot, s.mem.readLE 8 (txDesc s.cfg i + txdAddr) = txBuf s.cfg i ∧
    s.mem.readLE 8 (rxDesc s.cfg i + rxdAddr) = rxBuf s.cfg i

/-- The instruction is no `WRITE_REG` that reaches ordinary memory (R253 item 9, R254 (a)). -/
def sparesRam (s : State) : Instr → Prop
  | .writeReg off _ => ∀ k : Fin 4, ¬ s.cfg.inRam (regAddr s.base off + BitVec.ofNat 64 k.val).toNat
  | _ => True

/-- The instruction is no `WRITE_REG` to a tail register (R253 item 9). -/
def sparesTails (c : Cfg) : Instr → Prop
  | .writeReg off _ => off ≠ c.offset .tdt ∧ off ≠ c.offset .rdt
  | _ => True

/-- The controller owns no TX slot: none is handed over to it and it has none taken (R85, R172). -/
abbrev Nic.OwnsNoTxSlot (n : Nic) : Prop := n.txJobs = [] ∧ ∀ i : Slot, n.txHolds i = false

/-- `ResetCompletes` (R91): the controller's reset is complete before step 5 of an `INIT` begun in `s`. -/
abbrev ResetCompletes (s : State) : Prop :=
  s.initStep1.initStep2.initStep3.initStep4.nic.resetPending = false

/-- `SEND_ECHO` for each sequence number in turn (R203). -/
def sendAll : List Half → State → Host.Outcome State Fault Refusal
  | [], s => .next s
  | q :: qs, s =>
    match exec (.sendEcho q) s with
    | .next t => sendAll qs t
    | .fault f => .fault f
    | .refused r => .refused r

/-- The sum of consecutive big-endian 16-bit words in the natural numbers, an odd last byte as a high byte (R180). -/
def natWordSum : List Byte → Nat
  | [] => 0
  | [b] => b.toNat * 256
  | b :: d :: rest => b.toNat * 256 + d.toNat + natWordSum rest

/-- What a scan's identification reads answer when these are the coming draws: a function that does not exist answers
all-ones whatever its draw (R66, R150). -/
def idAnswers (e : Env) (draws : List Word) : List Word :=
  draws.zipIdx.map (fun p => if e.present (p.2 / 32) (p.2 % 32) then p.1 else 0xFFFFFFFF)

/-- The history of a poll whose reads answered these status bytes, newest first: a read and a fence each, and a delay
after each that did not show the done bit (R201, R206). -/
def pollHistory (a : Addr) (d : Nat) : List Byte → List Event
  | [] => []
  | st :: rest =>
    pollHistory a d rest ++ (if doneBit st ∨ d = 0 then [] else [Event.spin d]) ++
      [.fence, .memRead a 1 (st.setWidth 64)]

/-- The accesses by which the controller writes a waiting frame of `n` bytes into an RX slot (R89). -/
def reception (i : Slot) (n : Nat) (st : Byte) : List NicMove :=
  [.rxTake i] ++ List.replicate n (.rxData i) ++ [.rxLen i, .rxStatus i st]

/-- One-byte writes of a run of bytes, ascending, oldest first. -/
def byteWrites (a : Addr) (bytes : List Byte) : List Event :=
  bytes.zipIdx.map (fun p => .memWrite (a + BitVec.ofNat 64 p.2) 1 (p.1.setWidth 64))

/-- One-byte reads that answer a run of bytes, ascending, oldest first. -/
def byteReads (a : Addr) (bytes : List Byte) : List Event :=
  bytes.zipIdx.map (fun p => .memRead (a + BitVec.ofNat 64 p.2) 1 (p.1.setWidth 64))

/-- The events of `BUILD_FRAME` into the buffer at `b`, oldest first (R185): the frame with zero checksums, the IPv4
header read back and its checksum written, the ICMP message read back and its checksum written. -/
def buildEvents (c : Cfg) (m : Mac) (seq : Half) (b : Addr) : List Event :=
  byteWrites b (rawFrame c m seq) ++
  byteReads (b + 14) (ipv4Header c 0) ++ byteWrites (b + 24) [hiByte (ipv4Checksum c), loByte (ipv4Checksum c)] ++
  byteReads (b + 34) (icmpMessage c seq 0) ++
  byteWrites (b + 36) [hiByte (icmpChecksum c seq), loByte (icmpChecksum c seq)]

/-- The identification reads of a scan that got these answers, newest first (R150, R152). -/
def idReads (c : Cfg) (answers : List Word) : List Event :=
  (answers.zipIdx.map (fun p => Event.cfgRead (p.2 / 32) (p.2 % 32) 0 c.pciIdOff p.1)).reverse

/-- A fence event. -/
def isFence (e : Event) : Bool := e == .fence
/-- A one-byte write event. -/
def isByteWrite : Event → Bool
  | .memWrite _ n _ => n == 1
  | _ => false
/-- A one-byte read event. -/
def isByteRead : Event → Bool
  | .memRead _ n _ => n == 1
  | _ => false
/-- A register write event. -/
def isRegWrite : Event → Bool
  | .memWrite _ n _ => n == 4
  | _ => false
/-- A register read event. -/
def isRegRead : Event → Bool
  | .memRead _ n _ => n == 4
  | _ => false
/-- A write of a descriptor field or a buffer byte. -/
def isRamWrite : Event → Bool
  | .memWrite _ n _ => n != 4
  | _ => false
/-- How many `Spin()` events an entry of the history stands for. -/
def spinsOf : Event → Nat
  | .spin n => n
  | _ => 0

end Sys2Proof.Machine
end

