-- ==== Sys2Proof/Certificates/Slice0/Obligations.lean ====
section
/-! DEFINITION. The statements for the provers. Each is about every state, every parameter record that meets the
constraints it names, and every behaviour of the environment unless it says that the controller is silent. -/

open Sys2Proof Sys2Proof.Machine

/-! ## Reset, the step and the command port -/

/-- R250: what block reset leaves, and that the block then waits for a command. The parameter record of the reset state
is free (assumption 1). -/
def Obligations.BlockResetLeavesSessionZeroAndWaits : Prop :=
  State.reset.base = 0 ∧ State.reset.txTail = 0 ∧ State.reset.rxTail = 0 ∧
  State.reset.mac = State.reset.cfg.macAddr ∧ State.reset.phase = .disabled ∧ State.reset.response = none ∧
  State.reset.events = [] ∧
  ∃ t, step State.reset = .next t ∧ KeepsSession State.reset t ∧ t.response = none ∧ t.events = []

/-- The machine's invariant holds at reset. That both enable bits are set then is the model's choice of a reset value
(assumption 8), and that no frame waits or is on its way, which makes the bounds on frames hold, is its choice too
(assumption 7). -/
def Obligations.InvariantHoldsAtReset : Prop := State.reset.Inv

/-- The machine's invariant is kept by every step, from every state that has it: cursors below 8, `s.mac` the constant,
`s.base` with its low four bits 0, memory in canonical form, every register access directly followed by a fence, both
enable bits set in the PCI command register (that a device reset leaves them set is the model's choice, assumption 43), and
every frame that waits or is on its way into a slot within R89's bounds. -/
def Obligations.EveryStepKeepsInvariant : Prop :=
  ∀ s t, s.Inv → step s = .next t → t.Inv

/-- A step runs the instruction that the command on the port decodes to, in the state with that command taken (that a
step is a whole command is the model's choice, assumption 15). -/
def Obligations.StepRunsDecodedCommand : Prop :=
  ∀ (s : State) (c : Command) (rest : List Command) (i : Instr),
    s.caller = c :: rest → decode c = .ok i → step s = exec i { s with caller := rest }

/-- A presented table word runs as the very next step (how a program comes to run is the model's choice, assumption
13). -/
def Obligations.PresentedWordRunsNext : Prop :=
  ∀ (s : State) (nbits w : Nat) (i : Instr), decodeTableWord nbits w = some i →
    step (s.withFetchWord nbits w) = exec i { s with caller := s.caller.tail }

/-- R105: an illegal command is refused with `err = 1, ok = 0, value = 0`, no event and no other change. -/
def Obligations.IllegalCommandIsRefused : Prop :=
  ∀ (s : State) (c : Command) (rest : List Command), s.caller = c :: rest →
    (c.cw.toNat / 2 ^ 24 ∉ [0x01, 0x02, 0x03, 0x04, 0x10, 0x11, 0x12, 0x13, 0x18, 0x19] ∨
      c.cw.toNat / 2 ^ 16 % 256 ≠ 0 ∨
      (c.cw.toNat % 2 ^ 16 ≠ 0 ∧ c.cw.toNat / 2 ^ 24 ≠ 0x03 ∧ c.cw.toNat / 2 ^ 24 ≠ 0x19) ∨
      (c.cw.toNat / 2 ^ 24 = 0x18 ∧ c.a0.toNat + c.a1.toNat > 2048)) →
    step s = .next { s with caller := rest, response := some ⟨true, false, 0⟩ }

/-- No step faults, which holds by the type (the spec has no fault, assumption 26); a step is refused only at a register
access whose offset is not a multiple of 4 (that this is a refusal of the model, and that an access outside the window
is none, is the model's reading: assumptions 14 and 10). -/
def Obligations.NoFaultAndOnlyMisalignedRefused : Prop :=
  ∀ s : State, (∀ f, step s ≠ .fault f) ∧
    ∀ r, step s = .refused r → r = .misalignedRegisterOffset ∧
      ∃ c rest, s.caller = c :: rest ∧
        ((∃ off, decode c = .ok (.readReg off) ∧ off.toNat % 4 ≠ 0) ∨
         (∃ off v, decode c = .ok (.writeReg off v) ∧ off.toNat % 4 ≠ 0))

/-- Every instruction with well-formed operands completes with a response that is not a refusal, in every state. -/
def Obligations.EveryWellFormedCommandCompletes : Prop :=
  ∀ (i : Instr) (s : State), i.wf = true →
    ∃ t ok v, exec i s = .next t ∧ t.response = some ⟨false, ok, v⟩

/-- Which instruction can change which register of the block, the PCI command register and the controller's registers;
none changes `s.mac`. -/
def Obligations.OnlyTheirWritersChangeRegisters : Prop :=
  ∀ (i : Instr) (s t : State), exec i s = .next t →
    KeepsFixed s t ∧
    (t.base ≠ s.base → i = .findDevice) ∧
    (t.phase ≠ s.phase → i = .init) ∧
    (t.txTail ≠ s.txTail → i = .init ∨ ∃ q, i = .sendEcho q) ∧
    (t.rxTail ≠ s.rxTail → i = .init ∨ i = .checkReply) ∧
    (t.pciCommand ≠ s.pciCommand → i = .findDevice) ∧
    (t.nic.regs ≠ s.nic.regs → i = .init ∨ i = .checkReply ∨ (∃ q, i = .sendEcho q) ∨ ∃ off v, i = .writeReg off v)

/-- Events are only ever added to the history. -/
def Obligations.HistoryOnlyGrows : Prop :=
  ∀ s t, step s = .next t → ∃ es, t.events = es ++ s.events

/-! ## Encoding -/

/-- Words written out from the table of R102 decode to the instruction they stand for. -/
def Obligations.SampleWordsDecode : Prop :=
  decode ⟨0x01000000, 5, 6⟩ = .ok .findDevice ∧
  decode ⟨0x0300FFFF, 0, 0⟩ = .ok (.sendEcho 0xFFFF) ∧
  decode ⟨0x11000000, 0x3818, 1⟩ = .ok (.writeReg 0x3818 1) ∧
  decode ⟨0x18000000, 14, 20⟩ = .ok (.checksum 14 20) ∧
  decode ⟨0x19000100, 7, 0⟩ = .ok (.buildFrame 0x0100) ∧
  decode ⟨0x03010000, 0, 0⟩ = .error .reservedField

/-- Decoding an encoded instruction gives it back, and a command that decodes carries the word and the operands that
its instruction encodes to, every operand word the instruction ignores apart. -/
def Obligations.DecodeAndEncodeAgree : Prop :=
  (∀ i : Instr, decode (encode i) = .ok i) ∧
  ∀ (c : Command) (i : Instr), decode c = .ok i →
    c.cw = (encode i).cw ∧
    (match i with
      | .readReg _ => c.a0 = (encode i).a0
      | .delay _ => c.a0 = (encode i).a0
      | .writeReg _ _ => c.a0 = (encode i).a0 ∧ c.a1 = (encode i).a1
      | .checksum _ _ => c.a0 = (encode i).a0 ∧ c.a1 = (encode i).a1
      | .findDevice => True
      | .init => True
      | .sendEcho _ => True
      | .checkReply => True
      | .fence => True
      | .buildFrame _ => True)

/-- A command word selects the row whose match it equals under the row's mask; it selects at most one row, and a word
that selects none is refused. -/
def Obligations.CommandWordSelectsItsRow : Prop :=
  ∀ c : Command,
    ((∃ i, decode c = .ok i) ↔ ∃ j : Instr, c.cw &&& j.rowMask = j.rowMatch) ∧
    ∀ i, decode c = .ok i → ∀ j : Instr, c.cw &&& j.rowMask = j.rowMatch → j.mnemonic = i.mnemonic

/-! ## Register interface -/

/-- `READ_REG` at a multiple of 4: one read and one fence, the value read in the response, nothing else of the block,
of the controller's registers or of memory changed by the instruction. -/
def Obligations.ReadRegReadsOnceAndFences : Prop :=
  ∀ (off : Word) (s : State), off.toNat % 4 = 0 →
    ∃ t v, exec (.readReg off) s = .next t ∧ t.response = some ⟨false, true, v⟩ ∧
      t.events = .fence :: .memRead (regAddr s.base off) 4 (v.setWidth 64) :: s.events ∧
      KeepsSession s t ∧ t.pciCommand = s.pciCommand ∧ t.nic.regs = s.nic.regs ∧ MemFrame s t (fun _ => False)

/-- What `READ_REG` answers: the environment's draw at a register of a discovered window other than the interrupt cause
register, whatever was last written there. -/
def Obligations.ReadRegAnswersTheDraw : Prop :=
  ∀ (r : Reg) (s : State) (v : Word) (vs : List Word), s.cfg.WF → s.cfg.windowClear s.base → r ≠ .icause →
    s.env.busReads = v :: vs →
    ∃ t, exec (.readReg (s.cfg.offset r)) s = .next t ∧ t.response = some ⟨false, true, v⟩ ∧ t.env.busReads = vs

/-- The interrupt cause register is read-to-clear (R33; that the pending bits are held in the state is assumption 17, and
that a base other than 0 is the controller's window assumption 36): with a silent controller that decodes its window a
read answers the pending bits and leaves none pending, and changes nothing else of the controller. -/
def Obligations.InterruptCauseIsReadToClear : Prop :=
  ∀ s : State, s.cfg.WF → s.cfg.windowClear s.base → s.base ≠ 0 → s.BusEnabled → s.Quiet →
    ∃ t, exec (.readReg (s.cfg.offset .icause)) s = .next t ∧
      t.response = some ⟨false, true, s.nic.icause⟩ ∧ t.nic = { s.nic with icause := 0 }

/-- A register access at an offset that is not a multiple of 4 is given no meaning: R72 and U6 say to treat it as
`refuse` (assumption 14). -/
def Obligations.MisalignedRegisterAccessIsRefused : Prop :=
  ∀ (off v : Word) (s : State), off.toNat % 4 ≠ 0 →
    exec (.readReg off) s = .refused .misalignedRegisterOffset ∧
    exec (.writeReg off v) s = .refused .misalignedRegisterOffset

/-- `WRITE_REG` at a multiple of 4: one write and one fence; a named register was last written with the value and no
other was written; memory changes only where the four bytes lie in one of the regions (the model's choice, assumption
9). -/
def Obligations.WriteRegWritesOnceAndFences : Prop :=
  ∀ (off v : Word) (s : State), off.toNat % 4 = 0 →
    ∃ t, exec (.writeReg off v) s = .next t ∧ t.response = some ⟨false, true, 0⟩ ∧
      t.events = .fence :: .memWrite (regAddr s.base off) 4 (v.setWidth 64) :: s.events ∧
      KeepsSession s t ∧ t.pciCommand = s.pciCommand ∧
      (∀ r, s.cfg.regAt off = some r → t.nic.regs = s.nic.regs.set r v) ∧
      (s.cfg.regAt off = none → t.nic.regs = s.nic.regs) ∧
      MemFrame s t (fun a => isByteOf (regAddr s.base off) 4 a ∧ s.cfg.inRam a) ∧
      ∀ k : Fin 4, s.cfg.inRam (regAddr s.base off + BitVec.ofNat 64 k.val).toNat →
        (s.Quiet ∨ ¬ nicMay s.cfg (regAddr s.base off + BitVec.ofNat 64 k.val).toNat) →
        t.mem.read (regAddr s.base off + BitVec.ofNat 64 k.val).toNat = v.extractLsb' (8 * k.val) 8

/-- A named register of a window clear of the regions keeps the last value written to it, and the write leaves every
other named register's last value. -/
def Obligations.NamedRegisterKeepsLastWrite : Prop :=
  ∀ (r : Reg) (v : Word) (s : State), s.cfg.WF →
    ∃ t, exec (.writeReg (s.cfg.offset r) v) s = .next t ∧ t.nic.regs.get r = v ∧
      ∀ q, q ≠ r → t.nic.regs.get q = s.nic.regs.get q

/-- How a controller that decodes its window takes a register write with a discovered base (assumption 36), if it makes
no access of its own: a control-register write with the device-reset bit starts a reset (that this turns receiver and
transmitter off is the model's choice, assumption 18; the other bits do nothing, assumption 38); a receive-control or
transmit-control write with the enable bits turns the receiver or the transmitter on and one without turns it off
(assumption 30); a write of a head register sets that head (assumptions 11, 42); a transmit-tail write hands over the slots
from the head up to but not including the tail (for a tail that comes to stand on the head see assumption 11, for a head
that comes to stand on the tail assumption 46). -/
def Obligations.RegisterWritesReachTheController : Prop :=
  ∀ (s : State) (v : Word), s.cfg.WF → s.cfg.windowClear s.base → s.base ≠ 0 → s.BusEnabled → s.Quiet →
    (∃ t, exec (.writeReg (s.cfg.offset .ctrl) v) s = .next t ∧
      t.nic.resetPending = (s.nic.resetPending || v &&& s.cfg.ctrlRst != 0) ∧
      t.nic.rxOn = (s.nic.rxOn && v &&& s.cfg.ctrlRst == 0) ∧ t.nic.txOn = (s.nic.txOn && v &&& s.cfg.ctrlRst == 0)) ∧
    (∃ t, exec (.writeReg (s.cfg.offset .rctl) v) s = .next t ∧
      (t.nic.rxOn = true ↔ v &&& s.cfg.rctlEn = s.cfg.rctlEn)) ∧
    (∃ t, exec (.writeReg (s.cfg.offset .tctl) v) s = .next t ∧
      (t.nic.txOn = true ↔ v &&& s.cfg.tctlEn = s.cfg.tctlEn)) ∧
    (∃ t, exec (.writeReg (s.cfg.offset .rdh) v) s = .next t ∧ (v.toNat < 8 → t.nic.rxHead = some (slotOf v))) ∧
    (∃ t, exec (.writeReg (s.cfg.offset .tdh) v) s = .next t ∧ (v.toNat < 8 → t.nic.txHead = some (slotOf v))) ∧
    (∃ t, exec (.writeReg (s.cfg.offset .tdt) v) s = .next t ∧
      (v.toNat < 8 → ∀ h, s.nic.txHead = some h → h ≠ slotOf v →
        ∀ i : Slot, t.nic.txHolds i = true ↔ (i - h).val < (slotOf v - h).val))

/-- R142: `DELAY n` is `n` spins and no bus access or fence; it changes no state of the block. That the `n` spins are one
entry of the history is the model's choice (assumption 35). -/
def Obligations.DelayOnlySpins : Prop :=
  ∀ (n : Word) (s : State), ∃ t, exec (.delay n) s = .next t ∧ t.response = some ⟨false, true, 0⟩ ∧
    t.events = (if n = 0 then [] else [Event.spin n.toNat]) ++ s.events ∧
    KeepsSession s t ∧ t.pciCommand = s.pciCommand ∧ KeepsNic s t ∧ MemFrame s t (fun _ => False) ∧
    (n = 0 → t = { s with response := some ⟨false, true, 0⟩ })

/-- `FENCE` is one fence event and changes no state. -/
def Obligations.FenceOnlyFences : Prop :=
  ∀ s : State, ∃ t, exec .fence s = .next t ∧ t.response = some ⟨false, true, 0⟩ ∧
    t.events = .fence :: s.events ∧
    KeepsSession s t ∧ t.pciCommand = s.pciCommand ∧ KeepsNic s t ∧ MemFrame s t (fun _ => False)

/-! ## Device discovery -/

/-- R150: the scan. A function that does not exist answers all-ones, any other its draw (R66). If the first 256
identification words do not match, 256 reads, no write, failure, nothing changed. If word number k (below 256) is the
first that matches, the command register gets the enable bits with its other bits preserved, `s.base` becomes the
base-address register with its low four bits cleared, and success. The order bus outer, slot inner, ascending, with a
stop at the first match, and the split of the identification word in the match are the spec's decision D17 (assumption
34); that one PCI command register stands for every function is the model's choice (assumption 45). -/
def Obligations.FindDeviceTakesFirstMatch : Prop :=
  ∀ s : State,
    (∀ draws ids rest, s.env.cfgReads = draws ++ rest → draws.length = 256 → ids = idAnswers s.env draws →
      (∀ x ∈ ids, isMatch s.cfg x = false) →
      ∃ t, exec .findDevice s = .next t ∧ t.response = some ⟨false, false, s.base⟩ ∧
        t.events = idReads s.cfg ids ++ s.events ∧ KeepsSession s t ∧ t.pciCommand = s.pciCommand) ∧
    (∀ draws ids id cmd bar rest, s.env.cfgReads = draws ++ id :: cmd :: bar :: rest → draws.length < 256 →
      ids = idAnswers s.env draws → (∀ x ∈ ids, isMatch s.cfg x = false) →
      s.env.present (ids.length / 32) (ids.length % 32) = true → isMatch s.cfg id = true →
      ∃ t, exec .findDevice s = .next t ∧ t.base = bar &&& 0xFFFFFFF0 ∧
        t.response = some ⟨false, true, bar &&& 0xFFFFFFF0⟩ ∧
        t.pciCommand = cmd ||| s.cfg.pciCmdBme ||| s.cfg.pciCmdMse ∧
        t.events =
          .cfgRead (ids.length / 32) (ids.length % 32) 0 s.cfg.pciBar0Off bar ::
          .cfgWrite (ids.length / 32) (ids.length % 32) 0 s.cfg.pciCmdOff
            (cmd ||| s.cfg.pciCmdBme ||| s.cfg.pciCmdMse) ::
          .cfgRead (ids.length / 32) (ids.length % 32) 0 s.cfg.pciCmdOff cmd ::
          (idReads s.cfg (ids ++ [id]) ++ s.events) ∧
        KeepsFixed s t ∧ t.txTail = s.txTail ∧ t.rxTail = s.rxTail ∧ t.phase = s.phase)

/-- `FIND_DEVICE` whatever the configuration space answers: it completes; on failure `s.base` and the PCI command
register are unchanged, and in no case does it write memory, a controller register, a cursor or the phase. That one PCI
command register and one controller stand for every function a scan may match is the model's choice (assumption 45). -/
def Obligations.FindDeviceFrame : Prop :=
  ∀ s : State, ∃ t ok, exec .findDevice s = .next t ∧ t.response = some ⟨false, ok, t.base⟩ ∧
    (ok = false → t.base = s.base ∧ t.pciCommand = s.pciCommand) ∧ (ok = true → t.base &&& 0xF = 0) ∧
    KeepsFixed s t ∧ t.txTail = s.txTail ∧ t.rxTail = s.rxTail ∧ t.phase = s.phase ∧
    KeepsNic s t ∧ MemFrame s t (fun _ => False)

/-! ## Ring initializer -/

/-- Each step of `INIT` leaves `s.phase` as the table of R160 says, and the other steps leave it alone. -/
def Obligations.InitEntersPhasesInOrder : Prop :=
  ∀ s : State,
    s.initStep1.phase = s.phase ∧ s.initStep2.phase = s.phase ∧ s.initStep3.phase = s.phase ∧
    s.initStep4.phase = s.phase ∧ s.initStep5.phase = .reset ∧ s.initStep6.phase = s.phase ∧
    s.initStep7.phase = s.phase ∧ s.initStep8.phase = .rxConfigured ∧ s.initStep9.phase = .rxEnabled ∧
    s.initStep10.phase = s.phase ∧ s.initStep11.phase = .txConfigured ∧ s.initStep12.phase = .ready ∧
    exec .init s = .next ((s.initStep1.initStep2.initStep3.initStep4.initStep5.initStep6.initStep7.initStep8.initStep9
      |>.initStep10 |>.initStep11 |>.initStep12).respond ⟨false, true, 0⟩)

/-- `INIT` completes from every state with `s.phase = Ready`, `s.rx_tail = 7`, `s.tx_tail = 0`, `s.base` and `s.mac`
unchanged, and every byte outside the two descriptor arrays is unchanged but for the controller's own writes. The PCI command
register is unchanged as the block last wrote it (assumptions 23, 43). With a window that the controller decodes (a base
other than 0, assumption 36) and under `ResetCompletes` (R91, assumption 18) the controller owns no TX slot then (R172),
though its transmitter may have run before (assumption 39): it takes no slot between the end of the reset and the write
of the tail register (R88), and the ring that head = tail = 0 leaves is empty and not full, since slot 7 is marked as
already sent (R171; assumption 11). -/
def Obligations.InitLeavesReadySession : Prop :=
  ∀ s : State, s.cfg.windowClear s.base →
    ∃ t, exec .init s = .next t ∧ t.response = some ⟨false, true, 0⟩ ∧ t.phase = .ready ∧
      t.txTail = 0 ∧ t.rxTail = 7 ∧ t.base = s.base ∧ KeepsFixed s t ∧ t.pciCommand = s.pciCommand ∧
      MemFrame s t (fun a => ∃ i : Slot, isByteOf (txDesc s.cfg i) 16 a ∨ isByteOf (rxDesc s.cfg i) 16 a) ∧
      (s.cfg.WF → s.base ≠ 0 → s.BusEnabled → ResetCompletes s → t.nic.OwnsNoTxSlot)

/-- The values `INIT` last writes to the controller's registers; the control register gets the value step 3 read with
the device-reset bit set. -/
def Obligations.InitProgramsTheController : Prop :=
  ∀ (s : State) (v : Word), s.cfg.WF → v = (s.initStep1.initStep2.readNamed .ctrl).1 →
    ∃ t, exec .init s = .next t ∧ t.nic.regs =
    { ctrl := v ||| s.cfg.ctrlRst, status := s.nic.regs.status, icause := s.nic.regs.icause,
      imask := s.cfg.imaskAll, rctl := rctlValue s.cfg, tctl := tctlValue s.cfg, tipg := s.cfg.tipgValue,
      rdbal := baseLow s.cfg.rxDescBase, rdbah := baseHigh s.cfg.rxDescBase, rdlen := 128, rdh := 0, rdt := 7,
      tdbal := baseLow s.cfg.txDescBase, tdbah := baseHigh s.cfg.txDescBase, tdlen := 128, tdh := 0, tdt := 0,
      macfLo := macfLo s.mac, macfHi := macfHi s.mac }

/-- Whatever the controller does, `INIT` leaves every TX descriptor with its buffer's address, the done bit set and every
byte but the status byte 0, and every RX descriptor with its buffer's address; bits 7 to 1 of a TX status byte are the
controller's (U13). If the controller writes nothing, every TX status byte is 1 (R174). -/
def Obligations.InitWritesTxDescriptors : Prop :=
  ∀ s : State, s.cfg.WF → s.cfg.windowClear s.base → ∃ t, exec .init s = .next t ∧
    ∀ i : Slot, t.mem.readLE 8 (txDesc s.cfg i) = txBuf s.cfg i ∧
      t.mem.readLE 4 (txDesc s.cfg i + 8) = 0 ∧ txDone s.cfg t.mem i = true ∧
      t.mem.readLE 3 (txDesc s.cfg i + 13) = 0 ∧
      t.mem.readLE 8 (rxDesc s.cfg i) = rxBuf s.cfg i ∧
      (s.Quiet → t.mem.readLE 8 (txDesc s.cfg i + 8) = 0x0000000100000000)

/-- If the controller writes nothing, `INIT` leaves every RX descriptor with its buffer's address and all else 0. -/
def Obligations.InitZeroesRxDescriptors : Prop :=
  ∀ s : State, s.cfg.WF → s.cfg.windowClear s.base → s.Quiet → ∃ t, exec .init s = .next t ∧
    ∀ i : Slot, t.mem.readLE 8 (rxDesc s.cfg i) = rxBuf s.cfg i ∧ t.mem.readLE 8 (rxDesc s.cfg i + 8) = 0

/-- The events of `INIT`: 18 register writes, 3 register reads, 21 fences, 104 descriptor writes and `DELAY_MASK +
DELAY_RESET` spins. -/
def Obligations.InitEventCounts : Prop :=
  ∀ s : State, ∃ t es, exec .init s = .next t ∧ t.events = es ++ s.events ∧
    es.countP isRegWrite = 18 ∧ es.countP isRegRead = 3 ∧ es.countP isFence = 21 ∧ es.countP isRamWrite = 104 ∧
    (es.map spinsOf).sum = s.cfg.delayMask + s.cfg.delayReset

/-- Under `ResetCompletes` (R91, assumption 18) and with a discovered base (assumption 36), the bus enables standing through
the reset (assumption 43), the controller leaves the RX
ring alone while `INIT` writes it: after step 8 every RX descriptor is as step 6 wrote it, whatever the controller
does. -/
def Obligations.RxRingUntouchedUntilEnabled : Prop :=
  ∀ s : State, s.cfg.WF → s.cfg.windowClear s.base → s.base ≠ 0 → s.BusEnabled → ResetCompletes s →
    ∀ i : Slot, ∀ m, m = (s.initReset.initStep6.initStep7.initStep8).mem →
      m.readLE 8 (rxDesc s.cfg i) = rxBuf s.cfg i ∧ m.readLE 8 (rxDesc s.cfg i + 8) = 0

/-- Descriptor i addresses buffer slot i, and every instruction keeps it so but a `WRITE_REG` into ordinary memory. -/
def Obligations.EveryInstructionKeepsRingAddresses : Prop :=
  ∀ (i : Instr) (s t : State), s.cfg.WF → s.cfg.windowClear s.base → s.RingsAddressed → sparesRam s i →
    exec i s = .next t → t.RingsAddressed

/-- The tail registers and the cursors stay equal under every instruction but a `WRITE_REG` to a tail register, and
`INIT` makes them equal. -/
def Obligations.TailRegistersFollowCursors : Prop :=
  ∀ (i : Instr) (s t : State), s.cfg.WF → sparesTails s.cfg i → exec i s = .next t →
    (s.TailsCoherent ∨ i = .init) → t.TailsCoherent

/-! ## Checksum engine and frame builder -/

/-- R182: `CHECKSUM start, len` answers the checksum of the bytes of the slot `s.tx_tail`, which it reads ascending and
only reads; a range that leaves the slot is refused. -/
def Obligations.ChecksumOfSlotRange : Prop :=
  ∀ (start len : Word) (s : State), s.cfg.WF → ∀ b, b = txBuf s.cfg (slotOf s.txTail) →
    (start.toNat + len.toNat > 2048 →
      exec (.checksum start len) s = .next { s with response := some ⟨true, false, 0⟩ }) ∧
    (start.toNat + len.toNat ≤ 2048 → ∀ bytes,
      bytes = (List.range len.toNat).map (fun k => s.mem.read (b + BitVec.ofNat 64 (start.toNat + k)).toNat) →
      ∃ t, exec (.checksum start len) s = .next t ∧
        t.response = some ⟨false, true, (cksum bytes).setWidth 32⟩ ∧
        t.events = ((List.range len.toNat).map (fun k =>
          Event.memRead (b + BitVec.ofNat 64 (start.toNat + k)) 1
            ((s.mem.read (b + BitVec.ofNat 64 (start.toNat + k)).toNat).setWidth 64))).reverse ++ s.events ∧
        KeepsSession s t ∧ t.pciCommand = s.pciCommand ∧ KeepsNic s t ∧ MemFrame s t (fun _ => False))

/-- Up to 2048 bytes the 32-bit accumulator holds the exact sum, and two fold passes reduce any 32-bit sum to 16 bits
without changing it modulo 0xFFFF. -/
def Obligations.ChecksumAccumulatorIsExact : Prop :=
  (∀ bs : List Byte, bs.length ≤ 2048 → (wordSum bs).toNat = natWordSum bs) ∧
  ∀ v : Word, (foldCarries v).toNat ≤ 0xFFFF ∧ (foldCarries v).toNat % 0xFFFF = v.toNat % 0xFFFF ∧
    ((foldCarries v).toNat = 0 ↔ v.toNat = 0)

/-- The checksum of an all-zero input of any length is 0xFFFF. -/
def Obligations.ChecksumOfZerosIsAllOnes : Prop := ∀ n, cksum (List.replicate n 0) = 0xFFFF

/-- The validation identity: a checksum computed with its field zero, stored big-endian in that field at an even
offset, makes the checksum of the whole 0x0000. -/
def Obligations.ChecksumValidationIdentity : Prop :=
  ∀ before after : List Byte, before.length % 2 = 0 → before.length + 2 + after.length ≤ 2048 →
    ∀ c, c = cksum (before ++ [0, 0] ++ after) → cksum (before ++ [hiByte c, loByte c] ++ after) = 0

/-- The two checksums of the frame in closed form: the constants 0x8556 and 0x67A90. -/
def Obligations.FrameChecksumsClosedForm : Prop :=
  ∀ (c : Cfg) (seq : Half),
    ipv4Checksum c = ~~~ (foldCarries (0x8556 + (c.srcIp.b0 ++ c.srcIp.b1).setWidth 32 +
      (c.srcIp.b2 ++ c.srcIp.b3).setWidth 32 + (c.dstIp.b0 ++ c.dstIp.b1).setWidth 32 +
      (c.dstIp.b2 ++ c.dstIp.b3).setWidth 32)).setWidth 16 ∧
    icmpChecksum c seq = ~~~ (foldCarries (0x0800 + c.icmpIdent.setWidth 32 + seq.setWidth 32 + 0x67A90)).setWidth 16

/-- Sequence numbers 0x0000 and 0xFFFF give the same ICMP checksum, and both regions of every finished frame verify. -/
def Obligations.FrameChecksumsVerify : Prop :=
  ∀ (c : Cfg) (m : Mac) (seq : Half), icmpChecksum c 0x0000 = icmpChecksum c 0xFFFF ∧
    cksum (((finishedFrame c m seq).drop 14).take 20) = 0 ∧ cksum ((finishedFrame c m seq).drop 34) = 0

/-- Where everything stands in the frame: addresses, the fixed bytes of both headers, the two checksums, the source and
the destination address, the identifier, the sequence number and the payload. -/
def Obligations.FrameLayoutIsFixed : Prop :=
  ∀ (c : Cfg) (m : Mac) (seq : Half) (f : List Byte), f = finishedFrame c m seq →
    f.length = 98 ∧ f.take 6 = List.replicate 6 0xFF ∧ (f.drop 6).take 6 = [m.b0, m.b1, m.b2, m.b3, m.b4, m.b5] ∧
    (f.drop 12).take 12 = [0x08, 0x00, 0x45, 0x00, 0x00, 0x54, 0x00, 0x01, 0x00, 0x00, 0x40, 0x01] ∧
    (f.drop 24).take 2 = [hiByte (ipv4Checksum c), loByte (ipv4Checksum c)] ∧
    (f.drop 26).take 4 = [c.srcIp.b0, c.srcIp.b1, c.srcIp.b2, c.srcIp.b3] ∧
    (f.drop 30).take 4 = [c.dstIp.b0, c.dstIp.b1, c.dstIp.b2, c.dstIp.b3] ∧
    (f.drop 34).take 2 = [0x08, 0x00] ∧
    (f.drop 36).take 2 = [hiByte (icmpChecksum c seq), loByte (icmpChecksum c seq)] ∧
    (f.drop 38).take 2 = [hiByte c.icmpIdent, loByte c.icmpIdent] ∧
    (f.drop 40).take 2 = [hiByte seq, loByte seq] ∧
    ∀ k, k < 56 → f[42 + k]? = some (BitVec.ofNat 8 (0x20 + k))

/-- `BUILD_FRAME seq` leaves the finished frame in bytes 0 to 97 of the slot `s.tx_tail`, whatever the controller does,
and changes nothing else of the block, of its descriptors or of the controller's registers. -/
def Obligations.BuildFrameLeavesFinishedFrame : Prop :=
  ∀ (seq : Half) (s : State), s.cfg.WF → ∀ b, b = txBuf s.cfg (slotOf s.txTail) →
    ∃ t, exec (.buildFrame seq) s = .next t ∧ t.response = some ⟨false, true, 98⟩ ∧
      (∀ k : Fin 98, some (t.mem.read (b + BitVec.ofNat 64 k.val).toNat) = (finishedFrame s.cfg s.mac seq)[k.val]?) ∧
      KeepsSession s t ∧ t.pciCommand = s.pciCommand ∧ KeepsNic s t ∧ MemFrame s t (isByteOf b 98)

/-- The builder's 102 one-byte writes and 84 one-byte reads and nothing else; and, in the order of R185 (the spec's
decision D22), which bytes of the slot `s.tx_tail` they are and what they carry, whatever the controller does. -/
def Obligations.BuildFrameEventCounts : Prop :=
  ∀ (seq : Half) (s : State), ∃ t es, exec (.buildFrame seq) s = .next t ∧ t.events = es ++ s.events ∧
    es.length = 186 ∧ es.countP isByteWrite = 102 ∧ es.countP isByteRead = 84 ∧
    (s.cfg.WF → es = (buildEvents s.cfg s.mac seq (txBuf s.cfg (slotOf s.txTail))).reverse)

/-! ## Transmit engine -/

/-- `SEND_ECHO seq`, whatever the controller does: the finished frame in the slot, length 98 and the command byte in
its descriptor, the next index in the tail register and the cursor, the used slot in the response, and nothing else. -/
def Obligations.SendEchoBuildsAndPublishes : Prop :=
  ∀ (seq : Half) (s : State), s.cfg.WF → s.cfg.windowClear s.base → ∀ i, i = slotOf s.txTail →
    ∃ t ok, exec (.sendEcho seq) s = .next t ∧ t.response = some ⟨false, ok, slotWord i⟩ ∧
      t.txTail = slotWord (nextSlot i) ∧ t.nic.regs = s.nic.regs.set .tdt (slotWord (nextSlot i)) ∧
      (∀ k : Fin 98,
        some (t.mem.read (txBuf s.cfg i + BitVec.ofNat 64 k.val).toNat) = (finishedFrame s.cfg s.mac seq)[k.val]?) ∧
      t.mem.readLE 2 (txDesc s.cfg i + txdLen) = 98 ∧
      t.mem.read (txDesc s.cfg i + txdCmd).toNat = s.cfg.txcmdEop ||| s.cfg.txcmdIfcs ||| s.cfg.txcmdRs ∧
      KeepsFixed s t ∧ t.base = s.base ∧ t.rxTail = s.rxTail ∧ t.phase = s.phase ∧ t.pciCommand = s.pciCommand ∧
      MemFrame s t (fun a => isByteOf (txBuf s.cfg i) 98 a ∨ isByteOf (txDesc s.cfg i + txdLen) 2 a ∨
        a = (txDesc s.cfg i + txdCmd).toNat ∨ a = (txDesc s.cfg i + txdStatus).toNat)

/-- The order in which a send publishes its slot, after the frame is built and before the poll: length, command, status
0, fence, tail register, fence. -/
def Obligations.SendEchoPublishesAfterFence : Prop :=
  ∀ (seq : Half) (s : State) (i : Slot), i = slotOf s.txTail →
    ∃ t es, exec (.sendEcho seq) s = .next t ∧ t.events = es ++ (s.enqueue seq).events ∧
      (∀ e ∈ es, isRegAccess e = false ∧ isRamWrite e = false) ∧
      (s.enqueue seq).events =
        .fence :: .memWrite (regAddr s.base (s.cfg.offset .tdt)) 4 ((slotWord (nextSlot i)).setWidth 64) :: .fence ::
        .memWrite (txDesc s.cfg i + 12) 1 0 :: .memWrite (txDesc s.cfg i + 11) 1 ((txCommand s.cfg).setWidth 64) ::
        .memWrite (txDesc s.cfg i + 8) 2 98 :: (s.buildFrame seq).events

/-- A silent controller: the send times out, `TX_POLL_MAX` polls see the done bit clear, one line is emitted last, the
status byte stays 0. -/
def Obligations.SendEchoTimesOutWhenSilent : Prop :=
  ∀ (seq : Half) (s : State), s.cfg.WF → s.cfg.windowClear s.base → s.Quiet → ∀ i, i = slotOf s.txTail →
    ∃ t es, exec (.sendEcho seq) s = .next t ∧ t.response = some ⟨false, false, slotWord i⟩ ∧
      t.events = .emit s.cfg.msgTxTimeout :: (es ++ (s.enqueue seq).events) ∧
      es.countP (fun e => e == .memRead (txDesc s.cfg i + txdStatus) 1 0) = s.cfg.txPollMax ∧
      es.countP isFence = s.cfg.txPollMax ∧ (es.map spinsOf).sum = s.cfg.txPollMax * s.cfg.txPollDelay ∧
      t.mem.read (txDesc s.cfg i + txdStatus).toNat = 0

/-- From every state a send may succeed and may time out (R88): there is a behaviour of the environment for each. The
controller is enabled on the bus (R86), as in every state a run reaches (`EveryStepKeepsInvariant`; assumptions 8, 43). A
full ring, also where the tail comes to stand on the head after a reset (assumption 11), a transmitter that the block has
not enabled (assumption 39) and the mask that asks for the report (assumption 40) are the model's reading. -/
def Obligations.SendEchoMaySucceedOrTimeOut : Prop :=
  ∀ (seq : Half) (s : State), s.cfg.WF → s.cfg.windowClear s.base → s.BusEnabled →
    (∃ e t v, exec (.sendEcho seq) { s with env := e } = .next t ∧ t.response = some ⟨false, true, v⟩) ∧
    (∃ e t v, exec (.sendEcho seq) { s with env := e } = .next t ∧ t.response = some ⟨false, false, v⟩)

/-- The ring index invariant of R203, and the slot used, which the spec derives from R200: after N sends from
`s.tx_tail = 0` the cursor is N mod 8, the tail register was last written with it, and the last send used slot (N - 1)
mod 8. -/
def Obligations.CursorCountsSendsModuloRing : Prop :=
  ∀ (q : Half) (qs : List Half) (s : State), s.cfg.WF → s.txTail = 0 →
    ∃ t ok, sendAll (q :: qs) s = .next t ∧ t.txTail = BitVec.ofNat 32 ((qs.length + 1) % 8) ∧
      t.nic.regs.tdt = t.txTail ∧ t.response = some ⟨false, ok, BitVec.ofNat 32 (qs.length % 8)⟩

/-! ## Receive engine -/

/-- R211: the classifier, with its boundary. -/
def Obligations.ClassifierTestsThreeThings : Prop :=
  ∀ (len : Half) (b23 b34 : Byte),
    (isReply len b23 b34 = true ↔ 34 < len.toNat ∧ b23 = 1 ∧ b34 = 0) ∧
    isReply 34 b23 b34 = false ∧ isReply 35 1 0 = true

/-- Nothing arrived: the done bit of the next expected slot reads 0, one read and one fence, no write, no match. -/
def Obligations.CheckReplyFindsNothing : Prop :=
  ∀ (s : State) (j : Slot), j = nextSlot (slotOf s.rxTail) → rxDone s.cfg s.nicTurn.mem j = false →
    ∃ t v, exec .checkReply s = .next t ∧ t.response = some ⟨false, false, 0⟩ ∧
      t.events = .fence :: .memRead (rxDesc s.cfg j + rxdStatus) 1 v :: s.events ∧
      KeepsSession s t ∧ t.pciCommand = s.pciCommand ∧ KeepsNic s t ∧ MemFrame s t (fun _ => False)

/-- A frame is there: the match is the classifier's answer on the length and the two bytes the slot held, the slot is
recycled whatever the answer, and the tail register and the cursor become the slot's index. -/
def Obligations.CheckReplyConsumesOneFrame : Prop :=
  ∀ (s : State) (j : Slot) (m : Memory) (len : Half) (b23 b34 : Byte), s.cfg.WF → s.cfg.windowClear s.base →
    j = nextSlot (slotOf s.rxTail) → m = s.nicTurn.mem → rxDone s.cfg m j = true →
    len = (m.readLE 2 (rxDesc s.cfg j + rxdLen)).setWidth 16 →
    b23 = m.read (rxBuf s.cfg j + 23).toNat → b34 = m.read (rxBuf s.cfg j + 34).toNat →
    ∃ t st, exec .checkReply s = .next t ∧ t.response = some ⟨false, isReply len b23 b34, 0⟩ ∧
      t.rxTail = slotWord j ∧ t.nic.regs = s.nic.regs.set .rdt (slotWord j) ∧
      t.events =
        .fence :: .memWrite (regAddr s.base (s.cfg.offset .rdt)) 4 ((slotWord j).setWidth 64) :: .fence ::
        .memWrite (rxDesc s.cfg j + rxdLen) 2 0 :: .memWrite (rxDesc s.cfg j + rxdStatus) 1 0 ::
        .memRead (rxBuf s.cfg j + 34) 1 (b34.setWidth 64) :: .memRead (rxBuf s.cfg j + 23) 1 (b23.setWidth 64) ::
        .memRead (rxDesc s.cfg j + rxdLen) 2 (len.setWidth 64) :: .fence ::
        .memRead (rxDesc s.cfg j + rxdStatus) 1 st :: s.events ∧
      KeepsFixed s t ∧ t.base = s.base ∧ t.txTail = s.txTail ∧ t.phase = s.phase ∧ t.pciCommand = s.pciCommand ∧
      MemFrame s t (fun a => a = (rxDesc s.cfg j + rxdStatus).toNat ∨ isByteOf (rxDesc s.cfg j + rxdLen) 2 a)

/-- With a silent controller the consumed slot's status and length are 0 afterwards. -/
def Obligations.CheckReplyClearsConsumedSlot : Prop :=
  ∀ (s : State) (j : Slot), s.cfg.WF → s.cfg.windowClear s.base → s.Quiet → j = nextSlot (slotOf s.rxTail) →
    rxDone s.cfg s.mem j = true →
    ∃ t, exec .checkReply s = .next t ∧ t.mem.read (rxDesc s.cfg j + rxdStatus).toNat = 0 ∧
      t.mem.readLE 2 (rxDesc s.cfg j + rxdLen) = 0 ∧ t.nic.regs.rdt = slotWord j ∧ t.rxTail = slotWord j

/-- In every case at most one frame is consumed: the cursor stays or moves to the next slot, and with it the tail
register. -/
def Obligations.CheckReplyAdvancesAtMostOne : Prop :=
  ∀ s : State, s.cfg.WF → ∃ t, exec .checkReply s = .next t ∧
    ((t.rxTail = s.rxTail ∧ t.nic.regs = s.nic.regs) ∨
     (t.rxTail = slotWord (nextSlot (slotOf s.rxTail)) ∧ t.nic.regs.rdt = t.rxTail))

/-! ## Memory, register values, the controller -/

/-- Little-endian access (the spec's decision D9, assumption 21): of n bytes just written (n at most 8) byte k holds bits
8k to 8k + 7 of the value, reading them back gives the low 8n bits of the value, and a byte outside them reads as
before. -/
def Obligations.MemoryReadsBackLittleEndian : Prop :=
  ∀ (m : Memory) (a : Addr) (v : BitVec 64) (n : Nat), n ≤ 8 →
    (∀ k, k < n → (m.writeLE n a v).read (a + BitVec.ofNat 64 k).toNat = v.extractLsb' (8 * k) 8) ∧
    (((m.writeLE n a v).readLE n a).toNat = v.toNat % 2 ^ (8 * n)) ∧
    ∀ x, ¬ isByteOf a n x → (m.writeLE n a v).read x = m.read x

/-- R120: the MAC filter pair. -/
def Obligations.MacFilterPairPacking : Prop :=
  ∀ m : Mac,
    (macfLo m).toNat = m.b0.toNat + m.b1.toNat * 2 ^ 8 + m.b2.toNat * 2 ^ 16 + m.b3.toNat * 2 ^ 24 ∧
    (macfHi m).toNat = m.b4.toNat + m.b5.toNat * 2 ^ 8 + 2 ^ 31

/-- R90 (assumption 16): what no access of the controller ever does: write a descriptor's buffer-address field, a TX
buffer, an RX slot whose done bit is 1, memory outside the four regions or a session register, or clear a done bit. -/
def Obligations.ControllerNeverDoes : Prop :=
  ∀ (s t : State) (mv : NicMove), s.cfg.WF → t = s.nicMove mv →
    KeepsSession s t ∧
    (∀ i : Slot, t.mem.readLE 8 (txDesc s.cfg i + txdAddr) = s.mem.readLE 8 (txDesc s.cfg i + txdAddr) ∧
      t.mem.readLE 8 (rxDesc s.cfg i + rxdAddr) = s.mem.readLE 8 (rxDesc s.cfg i + rxdAddr)) ∧
    (∀ a, s.cfg.txBufRegion.has a → t.mem.read a = s.mem.read a) ∧
    (∀ i : Slot, rxDone s.cfg s.mem i = true → ∀ a, (isByteOf (rxDesc s.cfg i) 16 a ∨ isByteOf (rxBuf s.cfg i) 2048 a) →
      t.mem.read a = s.mem.read a) ∧
    (∀ a, ¬ s.cfg.inRam a → t.mem.read a = s.mem.read a) ∧
    (∀ i : Slot, (txDone s.cfg s.mem i = true → txDone s.cfg t.mem i = true) ∧
      (rxDone s.cfg s.mem i = true → rxDone s.cfg t.mem i = true))

/-! ## Waiting, the poll, the controller's completions -/

/-- With no command presented the block waits: it keeps its session registers, the response, the PCI command register,
the last written register values and the history; only the controller acts. -/
def Obligations.IdleStepOnlyWaits : Prop :=
  ∀ s : State, s.caller = [] →
    ∃ t, step s = .next t ∧ KeepsSession s t ∧ t.response = s.response ∧ t.events = s.events ∧
      t.pciCommand = s.pciCommand ∧ KeepsNic s t ∧ MemFrame s t (fun _ => False)

/-- The poll of a send, whatever the controller does: a success is a status read with the done bit set after none or
more without, at most `TX_POLL_MAX` in all, and emits nothing; a timeout is `TX_POLL_MAX` reads without the bit and one
line. Every read has its fence, and every read without the bit its delay (one entry of the history, assumption 35). -/
def Obligations.SendEchoPollsUntilDone : Prop :=
  ∀ (seq : Half) (s : State) (i : Slot), i = slotOf s.txTail →
    ∃ t ok sts, exec (.sendEcho seq) s = .next t ∧ t.response = some ⟨false, ok, slotWord i⟩ ∧
      t.events = (if ok then [] else [.emit s.cfg.msgTxTimeout]) ++
        (pollHistory (txDesc s.cfg i + txdStatus) s.cfg.txPollDelay sts ++ (s.enqueue seq).events) ∧
      (ok = true → sts.length ≤ s.cfg.txPollMax ∧
        ∃ before last, sts = before ++ [last] ∧ (∀ x ∈ before, doneBit x = false) ∧ doneBit last = true) ∧
      (ok = false → sts.length = s.cfg.txPollMax ∧ ∀ x ∈ sts, doneBit x = false)

/-- R89: a frame of 1 to 2048 bytes that arrives while the receiver may be running waits behind those before it (R48 (d);
assumption 42); and the waiting frame that the controller writes into an RX slot it may write is there, from byte 0, its
length is in the descriptor, the done bit is set, and no other byte of memory is changed. -/
def Obligations.ReceptionDeliversFrame : Prop :=
  ∀ (s : State) (frame : List Byte), 1 ≤ frame.length → frame.length ≤ 2048 →
    (s.nic.receives = true → (s.nicMove (.rxArrive frame)).nic.rxWaiting = s.nic.rxWaiting ++ [frame]) ∧
    ∀ (t : State) (i : Slot) (st : Byte) (rest : List (List Byte)), s.cfg.WF → s.rxOpen i = true →
      s.nic.rxWaiting = frame :: rest → doneBit st = true → t = (reception i frame.length st).foldl State.nicMove s →
      t.nic.rxWaiting = rest ∧
      (∀ k b, frame[k]? = some b → t.mem.read (rxBuf s.cfg i + BitVec.ofNat 64 k).toNat = b) ∧
      t.mem.readLE 2 (rxDesc s.cfg i + rxdLen) = BitVec.ofNat 64 frame.length ∧
      t.mem.read (rxDesc s.cfg i + rxdStatus).toNat = st ∧
      ∀ a, ¬ isByteOf (rxBuf s.cfg i) frame.length a → ¬ isByteOf (rxDesc s.cfg i + rxdLen) 2 a →
        a ≠ (rxDesc s.cfg i + rxdStatus).toNat → t.mem.read a = s.mem.read a

/-- R85, R88, R89: the controller gives a slot back only by its completion. An RX done bit is set only by the status write
of a frame whose length is written; a TX done bit only by the status write of a slot the controller has taken and fetched,
whose descriptor asks for the report; and it takes a TX slot only when the slot is handed over. R88 says less than the TX
clauses, which rest on choices of the model: `asksReport` reads `TXCMD_RS` as a mask all of whose bits must be set
(assumption 40), `txHolds` counts every slot of a ring that may be full or whose head or tail is not known as handed over
(assumption 11), a slot that a controller nobody has reset yet may hold may be reported whatever was fetched for it (`stale`,
assumptions 7, 9, 10), and the bytes of descriptor and frame are fetched in ascending order (assumption 44). -/
def Obligations.SlotsAreGivenBackOnCompletion : Prop :=
  ∀ (s t : State) (mv : NicMove) (i : Slot), s.cfg.WF → t = s.nicMove mv →
    (rxDone s.cfg s.mem i = false → rxDone s.cfg t.mem i = true →
      ∃ st j, mv = .rxStatus i st ∧ s.nic.rxJob i = some j ∧ j.sized = true) ∧
    (txDone s.cfg s.mem i = false → txDone s.cfg t.mem i = true →
      ∃ k st j, mv = .txStatus k st ∧ s.nic.txJobs[k]? = some j ∧ j.slot = i ∧
        (j.stale = true ∨ j.fetched = true ∧ asksReport s.cfg j.desc = true)) ∧
    ((∀ j ∈ s.nic.txJobs, j.slot ≠ i) → (∃ j ∈ t.nic.txJobs, j.slot = i) → mv = .txFetch i ∧ s.nic.txHolds i = true)

/-- R86: a controller whose bus-master bit is clear changes no memory, and one whose memory-space bit is clear sees no
access of its registers: a write only counts as last written (assumption 23), and a read clears nothing. -/
def Obligations.BusEnablesGateTheController : Prop :=
  (∀ (s : State) (mv : NicMove), s.mastersBus = false → (s.nicMove mv).mem = s.mem) ∧
  ∀ (s : State) (r : Reg) (v : Word), s.cfg.WF → s.Quiet → s.decodesMemory = false →
    (∃ t, exec (.writeReg (s.cfg.offset r) v) s = .next t ∧ t.nic = { s.nic with regs := s.nic.regs.set r v }) ∧
    ∃ t, exec (.readReg (s.cfg.offset r)) s = .next t ∧ t.nic = s.nic
end

