-- ==== Sys2Proof/Laws/Memory.lean ====
section
/-! SUPPORT. The laws of memory and of the register file: reading after a write, writes elsewhere, the canonical form, and
addresses of multi-byte accesses. -/

namespace Sys2Proof.Machine

theorem lookupCell_putCell_self (a : Nat) (b : Byte) (cs : List Host.Cell) :
    lookupCell (putCell a b cs) a = some b := by
  induction cs with
  | nil => simp [putCell, lookupCell]
  | cons c cs ih =>
    unfold putCell
    split_ifs with h1 h2
    · simp [lookupCell]
    · simp [lookupCell]
    · have h : ¬ c.1 = a := fun h => h2 h.symm
      simp [lookupCell, h, ih]

theorem lookupCell_putCell_of_ne {a x : Nat} (h : x ≠ a) (b : Byte) (cs : List Host.Cell) :
    lookupCell (putCell a b cs) x = lookupCell cs x := by
  induction cs with
  | nil => simp [putCell, lookupCell, h.symm]
  | cons c cs ih =>
    unfold putCell
    split_ifs with h1 h2
    · simp [lookupCell, h.symm]
    · have hc : ¬ c.1 = x := fun e => h (by rw [h2, e])
      simp [lookupCell, h.symm, hc]
    · simp [lookupCell, ih]

theorem lookupCell_dropCell_self (a : Nat) (cs : List Host.Cell) : lookupCell (dropCell a cs) a = none := by
  induction cs with
  | nil => rfl
  | cons c cs ih =>
    unfold dropCell
    split_ifs with h
    · exact ih
    · simp [lookupCell, h, ih]

theorem lookupCell_dropCell_of_ne {a x : Nat} (h : x ≠ a) (cs : List Host.Cell) :
    lookupCell (dropCell a cs) x = lookupCell cs x := by
  induction cs with
  | nil => rfl
  | cons c cs ih =>
    unfold dropCell
    split_ifs with hc
    · have : ¬ c.1 = x := fun e => h (by rw [← e, hc])
      simp [lookupCell, this, ih]
    · simp [lookupCell, ih]

theorem mem_putCell {a : Nat} {b : Byte} {cs : List Host.Cell} {x : Host.Cell} (h : x ∈ putCell a b cs) :
    x = (a, b) ∨ x ∈ cs := by
  induction cs with
  | nil => simpa [putCell] using h
  | cons c cs ih =>
    unfold putCell at h
    split_ifs at h with h1 h2
    · simpa using h
    · rcases List.mem_cons.1 h with h | h <;> simp [h]
    · rcases List.mem_cons.1 h with h | h
      · simp [h]
      · rcases ih h with h | h <;> simp [h]

theorem mem_dropCell {a : Nat} {cs : List Host.Cell} {x : Host.Cell} (h : x ∈ dropCell a cs) : x ∈ cs := by
  induction cs with
  | nil => simp [dropCell] at h
  | cons c cs ih =>
    unfold dropCell at h
    split_ifs at h
    · exact List.mem_cons_of_mem _ (ih h)
    · rcases List.mem_cons.1 h with h | h
      · simp [h]
      · exact List.mem_cons_of_mem _ (ih h)

theorem putCell_rising {a : Nat} {b : Byte} {cs : List Host.Cell}
    (h : (cs.map Prod.fst).Pairwise (· < ·)) : ((putCell a b cs).map Prod.fst).Pairwise (· < ·) := by
  induction cs with
  | nil => simp [putCell]
  | cons c cs ih =>
    simp only [List.map_cons, List.pairwise_cons, List.mem_map] at h
    unfold putCell
    split_ifs with h1 h2
    · simp only [List.map_cons, List.pairwise_cons, List.mem_cons, List.mem_map]
      refine ⟨?_, ?_, h.2⟩
      · rintro k (rfl | ⟨x, hx, rfl⟩)
        · exact h1
        · exact h1.trans (h.1 _ ⟨x, hx, rfl⟩)
      · rintro k ⟨x, hx, rfl⟩
        exact h.1 _ ⟨x, hx, rfl⟩
    · simp only [List.map_cons, List.pairwise_cons, List.mem_map]
      refine ⟨?_, h.2⟩
      rintro k ⟨x, hx, rfl⟩
      exact h2 ▸ h.1 _ ⟨x, hx, rfl⟩
    · simp only [List.map_cons, List.pairwise_cons, List.mem_map]
      refine ⟨?_, ih h.2⟩
      rintro k ⟨x, hx, rfl⟩
      rcases mem_putCell hx with rfl | hx
      · show c.1 < a
        omega
      · exact h.1 _ ⟨x, hx, rfl⟩

theorem dropCell_rising {a : Nat} {cs : List Host.Cell}
    (h : (cs.map Prod.fst).Pairwise (· < ·)) : ((dropCell a cs).map Prod.fst).Pairwise (· < ·) := by
  induction cs with
  | nil => simp [dropCell]
  | cons c cs ih =>
    simp only [List.map_cons, List.pairwise_cons, List.mem_map] at h
    unfold dropCell
    split_ifs
    · exact ih h.2
    · simp only [List.map_cons, List.pairwise_cons, List.mem_map]
      refine ⟨?_, ih h.2⟩
      rintro k ⟨x, hx, rfl⟩
      exact h.1 _ ⟨x, mem_dropCell hx, rfl⟩

@[simp] theorem Memory.write_blank (m : Memory) (a x : Nat) (b : Byte) : (m.write a b).blank x = m.blank x := rfl

/-- Read after a write of the same byte. -/
@[simp] theorem Memory.read_write_self (m : Memory) (a : Nat) (b : Byte) : (m.write a b).read a = b := by
  unfold Memory.read
  rw [Memory.write_blank]
  unfold Memory.write
  split_ifs with h
  · simp [lookupCell_dropCell_self, h]
  · simp [lookupCell_putCell_self]

/-- A write leaves every other byte alone. -/
theorem Memory.read_write_of_ne (m : Memory) {a x : Nat} (h : x ≠ a) (b : Byte) : (m.write a b).read x = m.read x := by
  unfold Memory.read
  rw [Memory.write_blank]
  unfold Memory.write
  split_ifs
  · simp [lookupCell_dropCell_of_ne h]
  · simp [lookupCell_putCell_of_ne h]

/-- Every byte write keeps the canonical form. -/
theorem Memory.write_wf {m : Memory} (h : m.wf) (a : Nat) (b : Byte) : (m.write a b).wf := by
  refine ⟨?_, ?_⟩
  · unfold Memory.write
    split_ifs
    · exact dropCell_rising h.1
    · exact putCell_rising h.1
  · intro c hc
    rw [Memory.write_blank]
    unfold Memory.write at hc
    split_ifs at hc with hb
    · exact h.2 c (mem_dropCell hc)
    · rcases mem_putCell hc with rfl | hc
      · exact hb
      · exact h.2 c hc

/-- Every wider write keeps the canonical form. -/
theorem Memory.writeLE_wf {m : Memory} (h : m.wf) (n : Nat) (a : Addr) (v : BitVec 64) : (m.writeLE n a v).wf := by
  induction n generalizing m a v with
  | zero => exact h
  | succ n ih => exact ih (Memory.write_wf h _ _) _ _

/-- A register write that lands in ordinary memory keeps the canonical form. -/
theorem ramStore_wf {m : Memory} (h : m.wf) (c : Cfg) (n : Nat) (a : Addr) (v : BitVec 64) :
    (ramStore c m n a v).wf := by
  induction n generalizing m a v with
  | zero => exact h
  | succ n ih =>
    unfold ramStore
    split_ifs
    · exact ih (Memory.write_wf h _ _) _ _
    · exact ih h _ _

theorem addr_succ (a : Addr) (k : Nat) : a + 1 + BitVec.ofNat 64 k = a + BitVec.ofNat 64 (k + 1) := by
  rw [BitVec.add_assoc]
  congr 1
  rw [Nat.add_comm k 1, BitVec.ofNat_add]
  rfl

/-- A wider write leaves every byte outside it alone. -/
theorem Memory.read_writeLE_of_not_mem (m : Memory) (n : Nat) (a : Addr) (v : BitVec 64) (x : Nat)
    (h : ¬ isByteOf a n x) : (m.writeLE n a v).read x = m.read x := by
  induction n generalizing m a v with
  | zero => rfl
  | succ n ih =>
    unfold Memory.writeLE
    rw [ih]
    · refine Memory.read_write_of_ne _ ?_ _
      rintro rfl
      exact h ⟨0, by simp⟩
    · rintro ⟨k, hk⟩
      refine h ⟨k.succ, ?_⟩
      rw [hk, addr_succ]
      rfl

/-- A register write changes only bytes of the access that lie in the four regions. -/
theorem read_ramStore_of_not_mem (c : Cfg) (m : Memory) (n : Nat) (a : Addr) (v : BitVec 64) (x : Nat)
    (h : ¬ (isByteOf a n x ∧ c.inRam x)) : (ramStore c m n a v).read x = m.read x := by
  induction n generalizing m a v with
  | zero => rfl
  | succ n ih =>
    unfold ramStore
    rw [ih]
    · split_ifs with hr
      · refine Memory.read_write_of_ne _ ?_ _
        rintro rfl
        exact h ⟨⟨0, by simp⟩, hr⟩
      · rfl
    · rintro ⟨⟨k, hk⟩, hx⟩
      refine h ⟨⟨k.succ, ?_⟩, hx⟩
      rw [hk, addr_succ]
      rfl

/-- A register write none of whose bytes lies in the four regions changes no memory. -/
theorem ramStore_of_not_inRam (c : Cfg) (m : Memory) (n : Nat) (a : Addr) (v : BitVec 64)
    (h : ∀ k : Fin n, ¬ c.inRam (a + BitVec.ofNat 64 k.val).toNat) : ramStore c m n a v = m := by
  induction n generalizing m a v with
  | zero => rfl
  | succ n ih =>
    unfold ramStore
    have h0 : ¬ c.inRam a.toNat := by simpa using h 0
    rw [if_neg h0]
    refine ih _ _ _ ?_
    intro k
    rw [addr_succ]
    exact h k.succ

/-- The register file after a write: the written register. -/
@[simp] theorem RegFile.get_set_self (f : RegFile) (r : Reg) (v : Word) : (f.set r v).get r = v := by
  cases r <;> rfl

/-- The register file after a write: every other register. -/
theorem RegFile.get_set_of_ne (f : RegFile) {r q : Reg} (h : q ≠ r) (v : Word) : (f.set r v).get q = f.get q := by
  cases r <;> cases q <;> first | rfl | exact absurd rfl h

theorem find_of_nodup_map {f : Reg → Word} {l : List Reg} (h : (l.map f).Nodup) {r : Reg} (hr : r ∈ l) :
    l.find? (fun q => f q == f r) = some r := by
  induction l with
  | nil => simp at hr
  | cons q l ih =>
    simp only [List.map_cons, List.nodup_cons] at h
    rw [List.find?_cons]
    by_cases hq : f q = f r
    · have : r = q := by
        rcases List.mem_cons.1 hr with e | e
        · exact e
        · exact absurd (hq ▸ List.mem_map_of_mem e) h.1
      simp [this]
    · have : r ∈ l := by
        rcases List.mem_cons.1 hr with e | e
        · exact absurd (by rw [e]) hq
        · exact e
      rw [show (f q == f r) = false by simpa using hq]
      exact ih h.2 this

/-- With distinct offsets a named register's offset finds that register (R8). -/
theorem regAt_offset {c : Cfg} (h : c.WF) (r : Reg) : c.regAt (c.offset r) = some r :=
  find_of_nodup_map h.2.1.2 (by cases r <;> simp [allRegs])

/-- An offset that finds a named register is that register's offset. -/
theorem offset_of_regAt {c : Cfg} {off : Word} {r : Reg} (h : c.regAt off = some r) : c.offset r = off := by
  have := List.find?_some h
  simpa using this

end Sys2Proof.Machine
end

