-- ==== Sys2Proof/Laws/State.lean ====
section
/-! SUPPORT. One lemma per field per update of the state, true by definition, so that no later proof unfolds a record
update. -/

namespace Sys2Proof.Machine

@[simp] theorem State.record_cfg (s : State) (e : Event) : (s.record e).cfg = s.cfg := rfl
@[simp] theorem State.record_base (s : State) (e : Event) : (s.record e).base = s.base := rfl
@[simp] theorem State.record_mac (s : State) (e : Event) : (s.record e).mac = s.mac := rfl
@[simp] theorem State.record_txTail (s : State) (e : Event) : (s.record e).txTail = s.txTail := rfl
@[simp] theorem State.record_rxTail (s : State) (e : Event) : (s.record e).rxTail = s.rxTail := rfl
@[simp] theorem State.record_phase (s : State) (e : Event) : (s.record e).phase = s.phase := rfl
@[simp] theorem State.record_mem (s : State) (e : Event) : (s.record e).mem = s.mem := rfl
@[simp] theorem State.record_nic (s : State) (e : Event) : (s.record e).nic = s.nic := rfl
@[simp] theorem State.record_pciCommand (s : State) (e : Event) : (s.record e).pciCommand = s.pciCommand := rfl
@[simp] theorem State.record_caller (s : State) (e : Event) : (s.record e).caller = s.caller := rfl
@[simp] theorem State.record_response (s : State) (e : Event) : (s.record e).response = s.response := rfl
@[simp] theorem State.record_env (s : State) (e : Event) : (s.record e).env = s.env := rfl
@[simp] theorem State.record_events (s : State) (e : Event) : (s.record e).events = e :: s.events := rfl

@[simp] theorem State.setMem_cfg (s : State) (m : Memory) : (s.setMem m).cfg = s.cfg := rfl
@[simp] theorem State.setMem_base (s : State) (m : Memory) : (s.setMem m).base = s.base := rfl
@[simp] theorem State.setMem_mac (s : State) (m : Memory) : (s.setMem m).mac = s.mac := rfl
@[simp] theorem State.setMem_txTail (s : State) (m : Memory) : (s.setMem m).txTail = s.txTail := rfl
@[simp] theorem State.setMem_rxTail (s : State) (m : Memory) : (s.setMem m).rxTail = s.rxTail := rfl
@[simp] theorem State.setMem_phase (s : State) (m : Memory) : (s.setMem m).phase = s.phase := rfl
@[simp] theorem State.setMem_mem (s : State) (m : Memory) : (s.setMem m).mem = m := rfl
@[simp] theorem State.setMem_nic (s : State) (m : Memory) : (s.setMem m).nic = s.nic := rfl
@[simp] theorem State.setMem_pciCommand (s : State) (m : Memory) : (s.setMem m).pciCommand = s.pciCommand := rfl
@[simp] theorem State.setMem_caller (s : State) (m : Memory) : (s.setMem m).caller = s.caller := rfl
@[simp] theorem State.setMem_response (s : State) (m : Memory) : (s.setMem m).response = s.response := rfl
@[simp] theorem State.setMem_env (s : State) (m : Memory) : (s.setMem m).env = s.env := rfl
@[simp] theorem State.setMem_events (s : State) (m : Memory) : (s.setMem m).events = s.events := rfl

@[simp] theorem State.respond_cfg (s : State) (r : Response) : (s.respond r).cfg = s.cfg := rfl
@[simp] theorem State.respond_base (s : State) (r : Response) : (s.respond r).base = s.base := rfl
@[simp] theorem State.respond_mac (s : State) (r : Response) : (s.respond r).mac = s.mac := rfl
@[simp] theorem State.respond_txTail (s : State) (r : Response) : (s.respond r).txTail = s.txTail := rfl
@[simp] theorem State.respond_rxTail (s : State) (r : Response) : (s.respond r).rxTail = s.rxTail := rfl
@[simp] theorem State.respond_phase (s : State) (r : Response) : (s.respond r).phase = s.phase := rfl
@[simp] theorem State.respond_mem (s : State) (r : Response) : (s.respond r).mem = s.mem := rfl
@[simp] theorem State.respond_nic (s : State) (r : Response) : (s.respond r).nic = s.nic := rfl
@[simp] theorem State.respond_pciCommand (s : State) (r : Response) : (s.respond r).pciCommand = s.pciCommand := rfl
@[simp] theorem State.respond_caller (s : State) (r : Response) : (s.respond r).caller = s.caller := rfl
@[simp] theorem State.respond_response (s : State) (r : Response) : (s.respond r).response = some r := rfl
@[simp] theorem State.respond_env (s : State) (r : Response) : (s.respond r).env = s.env := rfl
@[simp] theorem State.respond_events (s : State) (r : Response) : (s.respond r).events = s.events := rfl

@[simp] theorem State.setPhase_cfg (s : State) (p : Phase) : (s.setPhase p).cfg = s.cfg := rfl
@[simp] theorem State.setPhase_base (s : State) (p : Phase) : (s.setPhase p).base = s.base := rfl
@[simp] theorem State.setPhase_mac (s : State) (p : Phase) : (s.setPhase p).mac = s.mac := rfl
@[simp] theorem State.setPhase_txTail (s : State) (p : Phase) : (s.setPhase p).txTail = s.txTail := rfl
@[simp] theorem State.setPhase_rxTail (s : State) (p : Phase) : (s.setPhase p).rxTail = s.rxTail := rfl
@[simp] theorem State.setPhase_phase (s : State) (p : Phase) : (s.setPhase p).phase = p := rfl
@[simp] theorem State.setPhase_mem (s : State) (p : Phase) : (s.setPhase p).mem = s.mem := rfl
@[simp] theorem State.setPhase_nic (s : State) (p : Phase) : (s.setPhase p).nic = s.nic := rfl
@[simp] theorem State.setPhase_pciCommand (s : State) (p : Phase) : (s.setPhase p).pciCommand = s.pciCommand := rfl
@[simp] theorem State.setPhase_caller (s : State) (p : Phase) : (s.setPhase p).caller = s.caller := rfl
@[simp] theorem State.setPhase_response (s : State) (p : Phase) : (s.setPhase p).response = s.response := rfl
@[simp] theorem State.setPhase_env (s : State) (p : Phase) : (s.setPhase p).env = s.env := rfl
@[simp] theorem State.setPhase_events (s : State) (p : Phase) : (s.setPhase p).events = s.events := rfl

@[simp] theorem State.setTxTail_cfg (s : State) (v : Word) : (s.setTxTail v).cfg = s.cfg := rfl
@[simp] theorem State.setTxTail_base (s : State) (v : Word) : (s.setTxTail v).base = s.base := rfl
@[simp] theorem State.setTxTail_mac (s : State) (v : Word) : (s.setTxTail v).mac = s.mac := rfl
@[simp] theorem State.setTxTail_txTail (s : State) (v : Word) : (s.setTxTail v).txTail = v := rfl
@[simp] theorem State.setTxTail_rxTail (s : State) (v : Word) : (s.setTxTail v).rxTail = s.rxTail := rfl
@[simp] theorem State.setTxTail_phase (s : State) (v : Word) : (s.setTxTail v).phase = s.phase := rfl
@[simp] theorem State.setTxTail_mem (s : State) (v : Word) : (s.setTxTail v).mem = s.mem := rfl
@[simp] theorem State.setTxTail_nic (s : State) (v : Word) : (s.setTxTail v).nic = s.nic := rfl
@[simp] theorem State.setTxTail_pciCommand (s : State) (v : Word) : (s.setTxTail v).pciCommand = s.pciCommand := rfl
@[simp] theorem State.setTxTail_caller (s : State) (v : Word) : (s.setTxTail v).caller = s.caller := rfl
@[simp] theorem State.setTxTail_response (s : State) (v : Word) : (s.setTxTail v).response = s.response := rfl
@[simp] theorem State.setTxTail_env (s : State) (v : Word) : (s.setTxTail v).env = s.env := rfl
@[simp] theorem State.setTxTail_events (s : State) (v : Word) : (s.setTxTail v).events = s.events := rfl

@[simp] theorem State.setRxTail_cfg (s : State) (v : Word) : (s.setRxTail v).cfg = s.cfg := rfl
@[simp] theorem State.setRxTail_base (s : State) (v : Word) : (s.setRxTail v).base = s.base := rfl
@[simp] theorem State.setRxTail_mac (s : State) (v : Word) : (s.setRxTail v).mac = s.mac := rfl
@[simp] theorem State.setRxTail_txTail (s : State) (v : Word) : (s.setRxTail v).txTail = s.txTail := rfl
@[simp] theorem State.setRxTail_rxTail (s : State) (v : Word) : (s.setRxTail v).rxTail = v := rfl
@[simp] theorem State.setRxTail_phase (s : State) (v : Word) : (s.setRxTail v).phase = s.phase := rfl
@[simp] theorem State.setRxTail_mem (s : State) (v : Word) : (s.setRxTail v).mem = s.mem := rfl
@[simp] theorem State.setRxTail_nic (s : State) (v : Word) : (s.setRxTail v).nic = s.nic := rfl
@[simp] theorem State.setRxTail_pciCommand (s : State) (v : Word) : (s.setRxTail v).pciCommand = s.pciCommand := rfl
@[simp] theorem State.setRxTail_caller (s : State) (v : Word) : (s.setRxTail v).caller = s.caller := rfl
@[simp] theorem State.setRxTail_response (s : State) (v : Word) : (s.setRxTail v).response = s.response := rfl
@[simp] theorem State.setRxTail_env (s : State) (v : Word) : (s.setRxTail v).env = s.env := rfl
@[simp] theorem State.setRxTail_events (s : State) (v : Word) : (s.setRxTail v).events = s.events := rfl

@[simp] theorem State.setBase_cfg (s : State) (v : Word) : (s.setBase v).cfg = s.cfg := rfl
@[simp] theorem State.setBase_base (s : State) (v : Word) : (s.setBase v).base = v := rfl
@[simp] theorem State.setBase_mac (s : State) (v : Word) : (s.setBase v).mac = s.mac := rfl
@[simp] theorem State.setBase_txTail (s : State) (v : Word) : (s.setBase v).txTail = s.txTail := rfl
@[simp] theorem State.setBase_rxTail (s : State) (v : Word) : (s.setBase v).rxTail = s.rxTail := rfl
@[simp] theorem State.setBase_phase (s : State) (v : Word) : (s.setBase v).phase = s.phase := rfl
@[simp] theorem State.setBase_mem (s : State) (v : Word) : (s.setBase v).mem = s.mem := rfl
@[simp] theorem State.setBase_nic (s : State) (v : Word) : (s.setBase v).nic = s.nic := rfl
@[simp] theorem State.setBase_pciCommand (s : State) (v : Word) : (s.setBase v).pciCommand = s.pciCommand := rfl
@[simp] theorem State.setBase_caller (s : State) (v : Word) : (s.setBase v).caller = s.caller := rfl
@[simp] theorem State.setBase_response (s : State) (v : Word) : (s.setBase v).response = s.response := rfl
@[simp] theorem State.setBase_env (s : State) (v : Word) : (s.setBase v).env = s.env := rfl
@[simp] theorem State.setBase_events (s : State) (v : Word) : (s.setBase v).events = s.events := rfl

@[simp] theorem State.refuse_cfg (s : State) : s.refuse.cfg = s.cfg := rfl
@[simp] theorem State.refuse_base (s : State) : s.refuse.base = s.base := rfl
@[simp] theorem State.refuse_mac (s : State) : s.refuse.mac = s.mac := rfl
@[simp] theorem State.refuse_txTail (s : State) : s.refuse.txTail = s.txTail := rfl
@[simp] theorem State.refuse_rxTail (s : State) : s.refuse.rxTail = s.rxTail := rfl
@[simp] theorem State.refuse_phase (s : State) : s.refuse.phase = s.phase := rfl
@[simp] theorem State.refuse_mem (s : State) : s.refuse.mem = s.mem := rfl
@[simp] theorem State.refuse_nic (s : State) : s.refuse.nic = s.nic := rfl
@[simp] theorem State.refuse_pciCommand (s : State) : s.refuse.pciCommand = s.pciCommand := rfl
@[simp] theorem State.refuse_caller (s : State) : s.refuse.caller = s.caller := rfl
@[simp] theorem State.refuse_response (s : State) : s.refuse.response = some refusedResponse := rfl
@[simp] theorem State.refuse_env (s : State) : s.refuse.env = s.env := rfl
@[simp] theorem State.refuse_events (s : State) : s.refuse.events = s.events := rfl

@[simp] theorem State.takeCommand_cfg (s : State) : s.takeCommand.cfg = s.cfg := rfl
@[simp] theorem State.takeCommand_base (s : State) : s.takeCommand.base = s.base := rfl
@[simp] theorem State.takeCommand_mac (s : State) : s.takeCommand.mac = s.mac := rfl
@[simp] theorem State.takeCommand_txTail (s : State) : s.takeCommand.txTail = s.txTail := rfl
@[simp] theorem State.takeCommand_rxTail (s : State) : s.takeCommand.rxTail = s.rxTail := rfl
@[simp] theorem State.takeCommand_phase (s : State) : s.takeCommand.phase = s.phase := rfl
@[simp] theorem State.takeCommand_mem (s : State) : s.takeCommand.mem = s.mem := rfl
@[simp] theorem State.takeCommand_nic (s : State) : s.takeCommand.nic = s.nic := rfl
@[simp] theorem State.takeCommand_pciCommand (s : State) : s.takeCommand.pciCommand = s.pciCommand := rfl
@[simp] theorem State.takeCommand_caller (s : State) : s.takeCommand.caller = s.caller.tail := rfl
@[simp] theorem State.takeCommand_response (s : State) : s.takeCommand.response = s.response := rfl
@[simp] theorem State.takeCommand_env (s : State) : s.takeCommand.env = s.env := rfl
@[simp] theorem State.takeCommand_events (s : State) : s.takeCommand.events = s.events := rfl

@[simp] theorem Env.advance_script (e : Env) : e.advance.script = e.script.tail := rfl
@[simp] theorem Env.advance_silent (e : Env) : e.advance.silent = e.silent := rfl
@[simp] theorem Env.advance_busReads (e : Env) : e.advance.busReads = e.busReads := rfl
@[simp] theorem Env.advance_cfgReads (e : Env) : e.advance.cfgReads = e.cfgReads := rfl
@[simp] theorem Env.advance_functions (e : Env) : e.advance.functions = e.functions := rfl
@[simp] theorem Env.advance_tick (e : Env) : e.advance.tick = e.tick + 1 := rfl
@[simp] theorem Env.busAnswered_script (e : Env) : e.busAnswered.script = e.script := rfl
@[simp] theorem Env.busAnswered_silent (e : Env) : e.busAnswered.silent = e.silent := rfl
@[simp] theorem Env.busAnswered_cfgReads (e : Env) : e.busAnswered.cfgReads = e.cfgReads := rfl
@[simp] theorem Env.busAnswered_functions (e : Env) : e.busAnswered.functions = e.functions := rfl
@[simp] theorem Env.busAnswered_busReads (e : Env) : e.busAnswered.busReads = e.busReads.tail := rfl
@[simp] theorem Env.cfgAnswered_script (e : Env) : e.cfgAnswered.script = e.script := rfl
@[simp] theorem Env.cfgAnswered_silent (e : Env) : e.cfgAnswered.silent = e.silent := rfl
@[simp] theorem Env.cfgAnswered_busReads (e : Env) : e.cfgAnswered.busReads = e.busReads := rfl
@[simp] theorem Env.cfgAnswered_cfgReads (e : Env) : e.cfgAnswered.cfgReads = e.cfgReads.tail := rfl
@[simp] theorem Env.cfgAnswered_functions (e : Env) : e.cfgAnswered.functions = e.functions := rfl
@[simp] theorem Env.present_advance (e : Env) (b t : Nat) : e.advance.present b t = e.present b t := rfl
@[simp] theorem Env.present_busAnswered (e : Env) (b t : Nat) : e.busAnswered.present b t = e.present b t := rfl
@[simp] theorem Env.present_cfgAnswered (e : Env) (b t : Nat) : e.cfgAnswered.present b t = e.present b t := rfl

@[simp] theorem Nic.putRxJob_regs (n : Nic) (j : RxJob) : (n.putRxJob j).regs = n.regs := rfl
@[simp] theorem Nic.putRxJob_rxWaiting (n : Nic) (j : RxJob) : (n.putRxJob j).rxWaiting = n.rxWaiting := rfl
@[simp] theorem Nic.putRxJob_receives (n : Nic) (j : RxJob) : (n.putRxJob j).receives = n.receives := rfl
@[simp] theorem Nic.dropRxJob_regs (n : Nic) (i : Slot) : (n.dropRxJob i).regs = n.regs := rfl
@[simp] theorem Nic.dropRxJob_rxWaiting (n : Nic) (i : Slot) : (n.dropRxJob i).rxWaiting = n.rxWaiting := rfl
@[simp] theorem Nic.dropRxJob_receives (n : Nic) (i : Slot) : (n.dropRxJob i).receives = n.receives := rfl
@[simp] theorem Nic.disturbed_regs (n : Nic) : n.disturbed.regs = n.regs := rfl
@[simp] theorem Nic.disturbed_rxJobs (n : Nic) : n.disturbed.rxJobs = n.rxJobs := rfl
@[simp] theorem Nic.disturbed_rxWaiting (n : Nic) : n.disturbed.rxWaiting = n.rxWaiting := rfl
@[simp] theorem Nic.startReset_regs (n : Nic) : n.startReset.regs = n.regs := rfl
@[simp] theorem Nic.startReset_rxJobs (n : Nic) : n.startReset.rxJobs = n.rxJobs := rfl
@[simp] theorem Nic.startReset_rxWaiting (n : Nic) : n.startReset.rxWaiting = n.rxWaiting := rfl
@[simp] theorem Nic.takeTail_regs (n : Nic) (b : Bool) (v : Word) : (n.takeTail b v).regs = n.regs := rfl
@[simp] theorem Nic.takeTail_rxJobs (n : Nic) (b : Bool) (v : Word) : (n.takeTail b v).rxJobs = n.rxJobs := rfl
@[simp] theorem Nic.takeTail_rxWaiting (n : Nic) (b : Bool) (v : Word) : (n.takeTail b v).rxWaiting = n.rxWaiting := rfl
@[simp] theorem Nic.takeTail_txTail (n : Nic) (b : Bool) (v : Word) : (n.takeTail b v).txTail = slotAt v := rfl
@[simp] theorem Nic.takeTail_txHead (n : Nic) (b : Bool) (v : Word) : (n.takeTail b v).txHead = n.txHead := rfl
@[simp] theorem Nic.takeHead_regs (n : Nic) (v : Word) : (n.takeHead v).regs = n.regs := rfl
@[simp] theorem Nic.takeHead_rxJobs (n : Nic) (v : Word) : (n.takeHead v).rxJobs = n.rxJobs := rfl
@[simp] theorem Nic.takeHead_rxWaiting (n : Nic) (v : Word) : (n.takeHead v).rxWaiting = n.rxWaiting := rfl
@[simp] theorem Nic.takeHead_txTail (n : Nic) (v : Word) : (n.takeHead v).txTail = n.txTail := rfl
@[simp] theorem Nic.takeHead_txHead (n : Nic) (v : Word) : (n.takeHead v).txHead = slotAt v := rfl

end Sys2Proof.Machine
end

