-- ==== Sys2Proof/Laws/Controller.lean ====
section
/-! SUPPORT. What the controller's turn between two events can do: it changes memory where the contract lets it, its own
hidden state and the event number, and nothing else; a silent controller changes only the event number. -/

namespace Sys2Proof.Machine

/-- What one access of the controller can do to the state. -/
structure NicKeeps (s t : State) : Prop where
  cfg : t.cfg = s.cfg
  base : t.base = s.base
  mac : t.mac = s.mac
  txTail : t.txTail = s.txTail
  rxTail : t.rxTail = s.rxTail
  phase : t.phase = s.phase
  pciCommand : t.pciCommand = s.pciCommand
  caller : t.caller = s.caller
  response : t.response = s.response
  events : t.events = s.events
  regs : t.nic.regs = s.nic.regs
  powerOn : t.mem.powerOn = s.mem.powerOn
  read : ∀ a, ¬ nicMay s.cfg a → t.mem.read a = s.mem.read a
  wf : s.mem.wf → t.mem.wf
  jobs : s.nic.JobsOk → t.nic.JobsOk

theorem NicKeeps.refl (s : State) : NicKeeps s s := by
  constructor <;> first | rfl | exact fun _ _ => rfl | exact id

theorem NicKeeps.trans {s t u : State} (h : NicKeeps s t) (g : NicKeeps t u) : NicKeeps s u where
  cfg := g.cfg.trans h.cfg
  base := g.base.trans h.base
  mac := g.mac.trans h.mac
  txTail := g.txTail.trans h.txTail
  rxTail := g.rxTail.trans h.rxTail
  phase := g.phase.trans h.phase
  pciCommand := g.pciCommand.trans h.pciCommand
  caller := g.caller.trans h.caller
  response := g.response.trans h.response
  events := g.events.trans h.events
  regs := g.regs.trans h.regs
  powerOn := g.powerOn.trans h.powerOn
  read := fun a ha => (g.read a (by rw [h.cfg]; exact ha)).trans (h.read a ha)
  wf := fun hw => g.wf (h.wf hw)
  jobs := fun hj => g.jobs (h.jobs hj)

@[simp] theorem Memory.writeLE_powerOn (m : Memory) (n : Nat) (a : Addr) (v : BitVec 64) :
    (m.writeLE n a v).powerOn = m.powerOn := by
  induction n generalizing m a v with
  | zero => rfl
  | succ n ih => exact ih _ _ _

@[simp] theorem ramStore_powerOn (c : Cfg) (m : Memory) (n : Nat) (a : Addr) (v : BitVec 64) :
    (ramStore c m n a v).powerOn = m.powerOn := by
  induction n generalizing m a v with
  | zero => rfl
  | succ n ih =>
    unfold ramStore
    rw [ih]
    split_ifs <;> rfl

/-- A write of memory whose bytes the controller may write keeps what the controller keeps. -/
theorem NicKeeps.of_writeLE (s : State) (n : Nat) (a : Addr) (v : BitVec 64) (nic : Nic)
    (hn : nic.regs = s.nic.regs) (hj : s.nic.JobsOk → nic.JobsOk) (h : ∀ x, isByteOf a n x → nicMay s.cfg x) :
    NicKeeps s { s with mem := s.mem.writeLE n a v, nic := nic } where
  cfg := rfl
  base := rfl
  mac := rfl
  txTail := rfl
  rxTail := rfl
  phase := rfl
  pciCommand := rfl
  caller := rfl
  response := rfl
  events := rfl
  regs := hn
  powerOn := by simp
  read := fun x hx => Memory.read_writeLE_of_not_mem _ _ _ _ _ (fun hb => hx (h x hb))
  wf := fun hw => Memory.writeLE_wf hw _ _ _
  jobs := hj

/-- A change of the controller alone that leaves the named registers. -/
theorem NicKeeps.of_nic (s : State) (nic : Nic) (hn : nic.regs = s.nic.regs) (hj : s.nic.JobsOk → nic.JobsOk) :
    NicKeeps s { s with nic := nic } where
  cfg := rfl
  base := rfl
  mac := rfl
  txTail := rfl
  rxTail := rfl
  phase := rfl
  pciCommand := rfl
  caller := rfl
  response := rfl
  events := rfl
  regs := hn
  powerOn := rfl
  read := fun _ _ => rfl
  wf := id
  jobs := hj

theorem Nic.rxJob_mem {n : Nic} {i : Slot} {j : RxJob} (h : n.rxJob i = some j) : j ∈ n.rxJobs ∧ j.slot = i :=
  ⟨List.mem_of_find?_eq_some h, by simpa using List.find?_some h⟩

theorem Nic.putRxJob_jobsOk {n : Nic} {j : RxJob} (hj : j.ok = true) (h : n.JobsOk) : (n.putRxJob j).JobsOk := by
  refine ⟨?_, h.2⟩
  intro k hk
  rcases List.mem_cons.1 hk with rfl | hk
  · exact hj
  · exact h.1 k (List.mem_filter.1 hk).1

theorem Nic.dropRxJob_jobsOk {n : Nic} (i : Slot) (h : n.JobsOk) : (n.dropRxJob i).JobsOk :=
  ⟨fun k hk => h.1 k (List.mem_filter.1 hk).1, h.2⟩

/-- What a write for a frame on its way into a slot can do. -/
theorem NicKeeps.of_rxStore (s : State) (i : Slot) (ok : RxJob → Bool) (next : RxJob → Nic) (a : RxJob → Addr) (n : Nat)
    (v : RxJob → BitVec 64) (hn : ∀ j, (next j).regs = s.nic.regs)
    (hj : ∀ j, s.nic.rxJob i = some j → ok j = true → s.nic.JobsOk → (next j).JobsOk)
    (h : ∀ j, ok j = true → ∀ x, isByteOf (a j) n x → nicMay s.cfg x) : NicKeeps s (s.rxStore i ok next a n v) := by
  unfold State.rxStore
  split
  · rename_i j hsome
    split_ifs with hc
    · rw [Bool.and_eq_true] at hc
      exact NicKeeps.of_writeLE s n (a j) (v j) (next j) (hn j) (hj j hsome hc.2) (h j hc.2)
    · exact NicKeeps.refl s
  · exact NicKeeps.refl s

theorem addr_add_ofNat (a : Addr) (j k : Nat) :
    a + BitVec.ofNat 64 j + BitVec.ofNat 64 k = a + BitVec.ofNat 64 (j + k) := by
  rw [BitVec.add_assoc, BitVec.ofNat_add]

/-- Bytes `j` to `j + n - 1` of an RX descriptor, from byte 8 on, are the controller's to write. -/
theorem nicMay_rxField (c : Cfg) (i : Slot) (j n : Nat) (hj : 8 ≤ j) (hn : j + n ≤ 16) (x : Nat)
    (h : isByteOf (rxDesc c i + BitVec.ofNat 64 j) n x) : nicMay c x := by
  obtain ⟨k, rfl⟩ := h
  refine Or.inr (Or.inl ⟨i, ⟨j - 8 + k.val, by omega⟩, ?_⟩)
  rw [addr_add_ofNat]
  congr 3
  show j + k.val = 8 + (j - 8 + k.val)
  omega

theorem isByteOf_one {a : Addr} {x : Nat} (h : isByteOf a 1 x) : x = a.toNat := by
  obtain ⟨k, rfl⟩ := h
  have : k = 0 := Subsingleton.elim _ _
  simp [this]

theorem NicKeeps.of_rxField (s : State) (i : Slot) (off n : Nat) (v : BitVec 64) (h1 : 8 ≤ off) (h2 : off + n ≤ 16) :
    NicKeeps s (s.rxField i (BitVec.ofNat 64 off) n v) :=
  NicKeeps.of_rxStore s i _ _ _ _ _ (fun _ => rfl) (fun _ _ _ h => h)
    (fun _ _ x h => nicMay_rxField _ i off n h1 h2 x h)

/-- What the controller can do in going on with a slot it has taken. -/
theorem NicKeeps.of_txAdvance (s : State) (k : Nat) (ok : TxJob → Bool) (next : TxJob → State)
    (h : ∀ j, ok j = true → NicKeeps s (next j)) : NicKeeps s (s.txAdvance k ok next) := by
  unfold State.txAdvance
  split
  · rename_i j _
    split_ifs with hc
    · rw [Bool.and_eq_true] at hc
      exact h j hc.2
    · exact NicKeeps.refl s
  · exact NicKeeps.refl s

/-- What one access of the controller can do. -/
theorem State.nicMove_keeps (s : State) (mv : NicMove) : NicKeeps s (s.nicMove mv) := by
  cases mv with
  | cause bits => exact NicKeeps.of_nic s _ rfl id
  | resetDone rxLost txLost ringsLost causes =>
    refine NicKeeps.of_nic s (s.nic.resetEnds rxLost txLost ringsLost causes) ?_ ?_ <;> unfold Nic.resetEnds <;>
      by_cases h : s.nic.resetPending = true
    · rw [if_pos h]
    · rw [if_neg h]
    · rw [if_pos h]
      exact fun _ => ⟨fun j hj => absurd hj List.not_mem_nil, fun f hf => absurd hf List.not_mem_nil⟩
    · rw [if_neg h]
      exact id
  | txStart => exact NicKeeps.of_nic s _ rfl id
  | txFetch i =>
    show NicKeeps s (s.txFetch i)
    unfold State.txFetch
    split_ifs
    · exact NicKeeps.of_nic s _ rfl id
    · exact NicKeeps.refl s
  | txDescByte k => exact NicKeeps.of_txAdvance s k _ _ (fun _ _ => NicKeeps.of_nic s _ rfl id)
  | txFrameByte k => exact NicKeeps.of_txAdvance s k _ _ (fun _ _ => NicKeeps.of_nic s _ rfl id)
  | txSent k => exact NicKeeps.of_txAdvance s k _ _ (fun _ _ => NicKeeps.of_nic s _ rfl id)
  | txStatus k v =>
    refine NicKeeps.of_txAdvance s k _ _ (fun j _ => ?_)
    have h : ∀ x, isByteOf (txDesc s.cfg j.slot + txdStatus) 1 x → nicMay s.cfg x :=
      fun x h => Or.inr (Or.inr ⟨j.slot, isByteOf_one h⟩)
    by_cases hd : doneBit v = true
    · simp only [if_pos hd]
      exact NicKeeps.of_writeLE s 1 _ _ _ rfl id h
    · simp only [if_neg hd]
      exact NicKeeps.of_writeLE s 1 _ _ _ rfl id h
  | rxArrive frame =>
    show NicKeeps s (s.rxArrive frame)
    unfold State.rxArrive
    split_ifs with hc
    · rw [Bool.and_eq_true] at hc
      refine NicKeeps.of_nic s _ rfl (fun h => ⟨h.1, fun f hf => ?_⟩)
      rcases List.mem_append.1 hf with hf | hf
      · exact h.2 f hf
      · rw [List.mem_singleton.1 hf]
        exact hc.2
    · exact NicKeeps.refl s
  | rxDrop => exact NicKeeps.of_nic s _ rfl (fun h => ⟨h.1, fun f hf => h.2 f (List.mem_of_mem_tail hf)⟩)
  | rxTake i =>
    show NicKeeps s (s.rxTake i)
    unfold State.rxTake
    split
    · rename_i f fs hw
      split_ifs
      · refine NicKeeps.of_nic s _ rfl (fun h => ?_)
        rw [Nic.JobsOk, hw] at h
        have hf : (RxJob.mk i f 0 false).ok = true := by simp [RxJob.ok, h.2 f List.mem_cons_self]
        have hp : (s.nic.putRxJob ⟨i, f, 0, false⟩).JobsOk :=
          Nic.putRxJob_jobsOk hf (by rw [Nic.JobsOk, hw]; exact h)
        exact ⟨hp.1, fun g hg => h.2 g (List.mem_cons_of_mem f hg)⟩
      · exact NicKeeps.refl s
    · exact NicKeeps.refl s
  | rxData i =>
    refine NicKeeps.of_rxStore s i _ _ _ _ _ (fun _ => rfl) ?_ ?_
    · intro j hj hok h
      refine Nic.putRxJob_jobsOk ?_ h
      have hb := h.1 j (Nic.rxJob_mem hj).1
      simp only [RxJob.ok, Bool.and_eq_true, Bool.or_eq_true, Bool.not_eq_true', decide_eq_true_eq] at hb hok ⊢
      refine ⟨⟨hb.1.1, by omega⟩, ?_⟩
      rcases hb.2 with h1 | h1
      · exact Or.inl h1
      · omega
    · intro j hok x h
      rw [Bool.and_eq_true, decide_eq_true_eq, decide_eq_true_eq] at hok
      exact Or.inl ⟨i, ⟨j.count, hok.2⟩, isByteOf_one h⟩
  | rxLen i =>
    refine NicKeeps.of_rxStore s i _ _ _ _ _ (fun _ => rfl) ?_
      (fun _ _ x h => nicMay_rxField _ i 8 2 (by decide) (by decide) x h)
    intro j hj hok h
    refine Nic.putRxJob_jobsOk ?_ h
    have hb := h.1 j (Nic.rxJob_mem hj).1
    simp only [RxJob.ok, Bool.and_eq_true] at hb ⊢
    exact ⟨hb.1, by simp [of_decide_eq_true hok]⟩
  | rxCsum i v => exact NicKeeps.of_rxField s i 10 2 _ (by decide) (by decide)
  | rxErrors i v => exact NicKeeps.of_rxField s i 13 1 _ (by decide) (by decide)
  | rxSpecial i v => exact NicKeeps.of_rxField s i 14 2 _ (by decide) (by decide)
  | rxStatus i v =>
    refine NicKeeps.of_rxStore s i _ _ _ _ _ (fun _ => ?_) (fun _ _ _ h => ?_)
      (fun _ _ x h => nicMay_rxField _ i 12 1 (by decide) (by decide) x h)
    · split_ifs <;> rfl
    · split_ifs
      · exact Nic.dropRxJob_jobsOk i h
      · exact h

theorem nicMoves_keep (ms : List NicMove) (s : State) : NicKeeps s (ms.foldl State.nicMove s) := by
  induction ms generalizing s with
  | nil => exact NicKeeps.refl s
  | cons m ms ih => exact (State.nicMove_keeps s m).trans (ih _)

/-- What the controller's turn can do. -/
theorem State.nicTurn_keeps (s : State) : NicKeeps s s.nicTurn := by
  have h := nicMoves_keep s.env.moves s
  constructor
  · exact h.cfg
  · exact h.base
  · exact h.mac
  · exact h.txTail
  · exact h.rxTail
  · exact h.phase
  · exact h.pciCommand
  · exact h.caller
  · exact h.response
  · exact h.events
  · exact h.regs
  · exact h.powerOn
  · exact h.read
  · exact h.wf
  · exact h.jobs

@[simp] theorem State.nicTurn_cfg (s : State) : s.nicTurn.cfg = s.cfg := s.nicTurn_keeps.cfg
@[simp] theorem State.nicTurn_base (s : State) : s.nicTurn.base = s.base := s.nicTurn_keeps.base
@[simp] theorem State.nicTurn_mac (s : State) : s.nicTurn.mac = s.mac := s.nicTurn_keeps.mac
@[simp] theorem State.nicTurn_txTail (s : State) : s.nicTurn.txTail = s.txTail := s.nicTurn_keeps.txTail
@[simp] theorem State.nicTurn_rxTail (s : State) : s.nicTurn.rxTail = s.rxTail := s.nicTurn_keeps.rxTail
@[simp] theorem State.nicTurn_phase (s : State) : s.nicTurn.phase = s.phase := s.nicTurn_keeps.phase
@[simp] theorem State.nicTurn_pciCommand (s : State) : s.nicTurn.pciCommand = s.pciCommand := s.nicTurn_keeps.pciCommand
@[simp] theorem State.nicTurn_caller (s : State) : s.nicTurn.caller = s.caller := s.nicTurn_keeps.caller
@[simp] theorem State.nicTurn_response (s : State) : s.nicTurn.response = s.response := s.nicTurn_keeps.response
@[simp] theorem State.nicTurn_events (s : State) : s.nicTurn.events = s.events := s.nicTurn_keeps.events
@[simp] theorem State.nicTurn_regs (s : State) : s.nicTurn.nic.regs = s.nic.regs := s.nicTurn_keeps.regs
@[simp] theorem State.nicTurn_env (s : State) : s.nicTurn.env = s.env.advance := rfl

/-- A silent controller's turn only counts the event. -/
theorem State.nicTurn_of_quiet {s : State} (h : s.Quiet) : s.nicTurn = { s with env := s.env.advance } := by
  unfold State.nicTurn Env.moves
  rw [h.1]
  simp [h.2]

theorem State.nicTurn_mem_of_quiet {s : State} (h : s.Quiet) : s.nicTurn.mem = s.mem := by
  rw [State.nicTurn_of_quiet h]

theorem State.nicTurn_nic_of_quiet {s : State} (h : s.Quiet) : s.nicTurn.nic = s.nic := by
  rw [State.nicTurn_of_quiet h]

/-- Silence lasts. -/
theorem State.nicTurn_quiet {s : State} (h : s.Quiet) : s.nicTurn.Quiet := by
  refine ⟨?_, ?_⟩ <;> simp [h.1, h.2]

/-! ### A TX slot on its way (R48 (c), R88) -/

@[simp] theorem State.setTxJob_cfg (s : State) (k : Nat) (j : TxJob) : (s.setTxJob k j).cfg = s.cfg := rfl
@[simp] theorem State.setTxJob_mem (s : State) (k : Nat) (j : TxJob) : (s.setTxJob k j).mem = s.mem := rfl
@[simp] theorem State.setTxJob_mastersBus (s : State) (k : Nat) (j : TxJob) :
    (s.setTxJob k j).mastersBus = s.mastersBus := rfl
@[simp] theorem State.setTxJob_txJobs (s : State) (k : Nat) (j : TxJob) :
    (s.setTxJob k j).nic.txJobs = s.nic.txJobs.set k j := rfl
@[simp] theorem State.setTxJob_setTxJob (s : State) (k : Nat) (i j : TxJob) :
    (s.setTxJob k i).setTxJob k j = s.setTxJob k j := by simp [State.setTxJob]
@[simp] theorem State.dropTxJob_cfg (s : State) (k : Nat) : (s.dropTxJob k).cfg = s.cfg := rfl
@[simp] theorem State.dropTxJob_mem (s : State) (k : Nat) : (s.dropTxJob k).mem = s.mem := rfl
@[simp] theorem State.dropTxJob_txJobs (s : State) (k : Nat) :
    (s.dropTxJob k).nic.txJobs = s.nic.txJobs.eraseIdx k := rfl

theorem State.setTxJob_self {s : State} {k : Nat} {j : TxJob} (h : s.nic.txJobs[k]? = some j) : s.setTxJob k j = s := by
  obtain ⟨hk, rfl⟩ := List.getElem?_eq_some_iff.1 h
  simp [State.setTxJob]

theorem State.setTxJob_get {s : State} {k : Nat} {i j : TxJob} (h : s.nic.txJobs[k]? = some i) :
    (s.setTxJob k j).nic.txJobs[k]? = some j := by
  obtain ⟨hk, -⟩ := List.getElem?_eq_some_iff.1 h
  simp [hk]

/-- What going on with a taken slot can be: nothing, or the step of a slot at a stage that `ok` admits. -/
theorem State.txAdvance_cases (s : State) (k : Nat) (ok : TxJob → Bool) (next : TxJob → State) :
    s.txAdvance k ok next = s ∨
    ∃ j, s.nic.txJobs[k]? = some j ∧ s.mastersBus = true ∧ ok j = true ∧ s.txAdvance k ok next = next j := by
  unfold State.txAdvance
  split
  · rename_i j hj
    split_ifs with hc
    · rw [Bool.and_eq_true] at hc
      exact Or.inr ⟨j, hj, hc.1, hc.2, rfl⟩
    · exact Or.inl rfl
  · exact Or.inl rfl

theorem State.txAdvance_eq {s : State} {k : Nat} {ok : TxJob → Bool} {next : TxJob → State} {j : TxJob}
    (hm : s.mastersBus = true) (hj : s.nic.txJobs[k]? = some j) (hok : ok j = true) : s.txAdvance k ok next = next j := by
  simp [State.txAdvance, hj, hm, hok]

/-- The `n` bytes at an address, as memory holds them. -/
def bytesAt (m : Memory) (a : Addr) (n : Nat) : List Byte :=
  (List.range n).map (fun k => m.read (a + BitVec.ofNat 64 k).toNat)

@[simp] theorem length_bytesAt (m : Memory) (a : Addr) (n : Nat) : (bytesAt m a n).length = n := by simp [bytesAt]

theorem bytesAt_succ (m : Memory) (a : Addr) (n : Nat) :
    bytesAt m a (n + 1) = bytesAt m a n ++ [m.read (a + BitVec.ofNat 64 n).toNat] := by simp [bytesAt, List.range_succ]

theorem bytesAt_cons (m : Memory) (a : Addr) (n : Nat) :
    bytesAt m a (n + 1) = m.read a.toNat :: bytesAt m (a + 1) n := by
  simp only [bytesAt, List.range_succ_eq_map, List.map_cons, List.map_map]
  congr 1
  · simp
  · refine List.map_congr_left (fun k _ => ?_)
    show m.read (a + BitVec.ofNat 64 (k + 1)).toNat = _
    rw [show a + 1 = a + BitVec.ofNat 64 1 from rfl, addr_add_ofNat, Nat.add_comm]

/-- Bytes read one at a time are the value read at once (R70). -/
theorem bytesLE_bytesAt (m : Memory) (a : Addr) (n : Nat) : bytesLE (bytesAt m a n) = m.readLE n a := by
  induction n generalizing a with
  | zero => rfl
  | succ n ih =>
    rw [bytesAt_cons, bytesLE, ih, Memory.readLE]

theorem bytesAt_drop_take (m : Memory) (a : Addr) (d n len : Nat) (h : d + n ≤ len) :
    ((bytesAt m a len).drop d).take n = bytesAt m (a + BitVec.ofNat 64 d) n := by
  refine List.ext_getElem (by simp; omega) (fun k h1 h2 => ?_)
  simp [bytesAt, addr_add_ofNat]

/-- A field of a descriptor fetched while memory stood still is the field in memory (R93). -/
theorem descField_bytesAt (m : Memory) (a off : Addr) (n len : Nat) (h : off.toNat + n ≤ len) :
    descField (bytesAt m a len) off n = m.readLE n (a + off) := by
  rw [descField, bytesAt_drop_take m a _ n len h, bytesLE_bytesAt, BitVec.ofNat_toNat, BitVec.setWidth_eq]

/-- Fetching `n` bytes of the descriptor of a slot just taken (R88, R93). -/
theorem State.fetch_desc {s : State} {k n : Nat} {i : Slot} (hm : s.mastersBus = true)
    (hj : s.nic.txJobs[k]? = some ⟨i, false, [], []⟩) (hn : n ≤ Config.descSize) :
    (List.replicate n (NicMove.txDescByte k)).foldl State.nicMove s =
      s.setTxJob k ⟨i, false, bytesAt s.mem (txDesc s.cfg i) n, []⟩ := by
  induction n with
  | zero => exact (State.setTxJob_self hj).symm
  | succ n ih =>
    rw [List.replicate_succ', List.foldl_concat, ih (by omega)]
    refine (State.txAdvance_eq (by simpa using hm) (State.setTxJob_get hj) ?_).trans ?_
    · simpa [TxJob.described] using hn
    · simp [bytesAt_succ]

/-- Fetching `n` bytes of the frame of a slot whose descriptor is fetched (R88, R93). -/
theorem State.fetch_frame {s : State} {k n : Nat} {i : Slot} {d : List Byte} (hm : s.mastersBus = true)
    (hj : s.nic.txJobs[k]? = some ⟨i, false, d, []⟩) (hd : Config.descSize ≤ d.length)
    (hn : n ≤ (descField d txdLen 2).toNat) :
    (List.replicate n (NicMove.txFrameByte k)).foldl State.nicMove s =
      s.setTxJob k ⟨i, false, d, bytesAt s.mem (descField d txdAddr 8) n⟩ := by
  induction n with
  | zero => exact (State.setTxJob_self hj).symm
  | succ n ih =>
    rw [List.replicate_succ', List.foldl_concat, ih (by omega)]
    refine (State.txAdvance_eq (by simpa using hm) (State.setTxJob_get hj) ?_).trans ?_
    · simpa [TxJob.fetched, TxJob.described, hd] using hn
    · simp [bytesAt_succ]

/-- The status write of a completed send whose report is due (R88). -/
theorem State.txStatus_done {s : State} {k : Nat} {j : TxJob} {v : Byte} (hm : s.mastersBus = true)
    (hj : s.nic.txJobs[k]? = some j) (hv : doneBit v = true) (hd : j.due s.cfg = true) :
    s.nicMove (.txStatus k v) =
      { s.dropTxJob k with mem := s.mem.writeLE 1 (txDesc s.cfg j.slot + txdStatus) (v.setWidth 64) } := by
  refine (State.txAdvance_eq hm hj ?_).trans ?_ <;> simp [hv, hd]

/-! ### A controller that owns no TX slot (R85, R88, R172) -/

/-- The TX side of the controller and its reset are unchanged. -/
structure Nic.TxSame (n m : Nic) : Prop where
  resetPending : m.resetPending = n.resetPending
  txHead : m.txHead = n.txHead
  txTail : m.txTail = n.txTail
  txFull : m.txFull = n.txFull
  txGiven : m.txGiven = n.txGiven
  txJobs : m.txJobs = n.txJobs

theorem Nic.TxSame.refl (n : Nic) : n.TxSame n := ⟨rfl, rfl, rfl, rfl, rfl, rfl⟩

theorem Nic.TxSame.txHolds {n m : Nic} (h : n.TxSame m) (i : Slot) : m.txHolds i = n.txHolds i := by
  simp only [Nic.txHolds, h.resetPending, h.txHead, h.txTail, h.txFull, h.txGiven]

theorem Nic.TxSame.ownsNoTxSlot {n m : Nic} (h : n.TxSame m) (ho : n.OwnsNoTxSlot) : m.OwnsNoTxSlot :=
  ⟨h.txJobs.trans ho.1, fun i => (h.txHolds i).trans (ho.2 i)⟩

theorem State.rxStore_txSame (s : State) (i : Slot) (ok : RxJob → Bool) (next : RxJob → Nic) (a : RxJob → Addr) (n : Nat)
    (v : RxJob → BitVec 64) (h : ∀ j, s.nic.TxSame (next j)) : s.nic.TxSame (s.rxStore i ok next a n v).nic := by
  unfold State.rxStore
  split
  · split_ifs
    · exact h _
    · exact Nic.TxSame.refl _
  · exact Nic.TxSame.refl _

/-- A controller out of reset that owns no TX slot takes none: its TX side stays as it is, whatever it does. -/
theorem State.nicMove_txSame {s : State} (mv : NicMove) (hp : s.nic.resetPending = false) (ho : s.nic.OwnsNoTxSlot) :
    s.nic.TxSame (s.nicMove mv).nic := by
  have ht : ∀ k ok next, s.txAdvance k ok next = s := fun k ok next => by simp [State.txAdvance, ho.1]
  have same : ∀ k ok next, s.nic.TxSame (s.txAdvance k ok next).nic := fun k ok next => by
    rw [ht]; exact Nic.TxSame.refl _
  cases mv with
  | cause bits => exact ⟨rfl, rfl, rfl, rfl, rfl, rfl⟩
  | resetDone a b c v =>
    show s.nic.TxSame (s.nic.resetEnds a b c v)
    simp only [Nic.resetEnds, hp]
    exact Nic.TxSame.refl _
  | txStart => exact ⟨rfl, rfl, rfl, rfl, rfl, rfl⟩
  | txFetch i =>
    show s.nic.TxSame (s.txFetch i).nic
    simp only [State.txFetch, Nic.txOffers, ho.2 i, Bool.false_and, Bool.and_false]
    exact Nic.TxSame.refl _
  | txDescByte k => exact same _ _ _
  | txFrameByte k => exact same _ _ _
  | txSent k => exact same _ _ _
  | txStatus k v => exact same _ _ _
  | rxArrive f =>
    show s.nic.TxSame (s.rxArrive f).nic
    unfold State.rxArrive
    split_ifs <;> exact ⟨rfl, rfl, rfl, rfl, rfl, rfl⟩
  | rxDrop => exact ⟨rfl, rfl, rfl, rfl, rfl, rfl⟩
  | rxTake i =>
    show s.nic.TxSame (s.rxTake i).nic
    unfold State.rxTake
    split
    · split_ifs <;> exact ⟨rfl, rfl, rfl, rfl, rfl, rfl⟩
    · exact Nic.TxSame.refl _
  | rxData i => exact s.rxStore_txSame _ _ _ _ _ _ (fun _ => ⟨rfl, rfl, rfl, rfl, rfl, rfl⟩)
  | rxLen i => exact s.rxStore_txSame _ _ _ _ _ _ (fun _ => ⟨rfl, rfl, rfl, rfl, rfl, rfl⟩)
  | rxCsum i v => exact s.rxStore_txSame _ _ _ _ _ _ (fun _ => Nic.TxSame.refl _)
  | rxErrors i v => exact s.rxStore_txSame _ _ _ _ _ _ (fun _ => Nic.TxSame.refl _)
  | rxSpecial i v => exact s.rxStore_txSame _ _ _ _ _ _ (fun _ => Nic.TxSame.refl _)
  | rxStatus i v =>
    refine s.rxStore_txSame _ _ _ _ _ _ (fun _ => ?_)
    split_ifs <;> exact ⟨rfl, rfl, rfl, rfl, rfl, rfl⟩

theorem nicMoves_txSame (ms : List NicMove) {s : State} (hp : s.nic.resetPending = false) (ho : s.nic.OwnsNoTxSlot) :
    s.nic.TxSame (ms.foldl State.nicMove s).nic := by
  induction ms generalizing s with
  | nil => exact Nic.TxSame.refl _
  | cons m ms ih =>
    have h := s.nicMove_txSame m hp ho
    have g := ih (h.resetPending.trans hp) (h.ownsNoTxSlot ho)
    exact ⟨g.1.trans h.1, g.2.trans h.2, g.3.trans h.3, g.4.trans h.4, g.5.trans h.5, g.6.trans h.6⟩

/-- The controller's turn, out of reset and while it owns no TX slot, leaves its TX side as it is (R88, R172). -/
theorem State.nicTurn_txSame {s : State} (hp : s.nic.resetPending = false) (ho : s.nic.OwnsNoTxSlot) :
    s.nic.TxSame s.nicTurn.nic := nicMoves_txSame s.env.moves hp ho

/-- A device reset that has ended leaves the controller without a TX slot if `REG_TDT` was not written meanwhile. -/
theorem Nic.resetEnds_ownsNoTxSlot {n : Nic} (rxLost txLost ringsLost : Bool) (causes : Word)
    (hp : n.resetPending = true) (hg : n.txGiven = false) :
    (n.resetEnds rxLost txLost ringsLost causes).OwnsNoTxSlot := by
  simp [Nic.resetEnds, hp, Nic.OwnsNoTxSlot, Nic.txHolds, hg]

/-- Head 0 and tail 0 written after a reset that has ended, with slot 7 marked as already sent (R171), leave the
controller without a TX slot (R172). -/
theorem Nic.takeHeadTail_ownsNoTxSlot {n : Nic} (ht : n.txTail = none) (hj : n.txJobs = []) :
    ((n.takeHead 0).takeTail false 0).OwnsNoTxSlot := by
  refine ⟨hj, fun i => ?_⟩
  simp [Nic.takeTail, Nic.takeHead, Nic.txHolds, slotAt, ht]

/-- A tail that moves past a slot marked as the controller's hands that slot over, whatever the controller's head and
tail were (R85, R88). -/
theorem Nic.takeTail_holds (n : Nic) (i : Slot) :
    (n.takeTail true (slotWord (nextSlot i))).txHolds i = true := by
  have hv : slotAt (slotWord (nextSlot i)) = some (nextSlot i) := by revert i; decide
  simp only [Nic.txHolds, Nic.takeTail, hv, Bool.true_or, Bool.true_and, Option.isSome_some, Bool.and_true]
  cases n.txHead with
  | none => rfl
  | some h =>
    have hd : ∀ h i : Slot, ((some h == some (nextSlot i)) || decide ((i - h).val < (nextSlot i - h).val)) = true := by
      decide
    exact hd h i

end Sys2Proof.Machine
end

