-- ==== Sys2Proof/Laws/Ops.lean ====
section
/-! SUPPORT. For each shared operation, once, what it can do: `OpKeeps P s t` says that the operation changes memory only
at the addresses `P` and where the controller may write, adds events, and leaves the block's registers alone. -/

namespace Sys2Proof.Machine

/-- What an operation of the bus can do, where it stores only at the addresses `P`. -/
structure OpKeeps (P : Nat → Prop) (s t : State) : Prop where
  cfg : t.cfg = s.cfg
  base : t.base = s.base
  mac : t.mac = s.mac
  txTail : t.txTail = s.txTail
  rxTail : t.rxTail = s.rxTail
  phase : t.phase = s.phase
  caller : t.caller = s.caller
  response : t.response = s.response
  grows : ∃ es, t.events = es ++ s.events
  fenced : Fenced s.events → Fenced t.events
  wf : s.mem.wf → t.mem.wf
  quiet : s.Quiet → t.Quiet
  bus : s.BusEnabled → t.BusEnabled
  jobs : s.nic.JobsOk → t.nic.JobsOk
  frame : MemFrame s t P

/-- The controller's registers and hidden state, and the PCI command register, are left alone too. -/
structure OpKeepsNic (s t : State) : Prop where
  regs : t.nic.regs = s.nic.regs
  nic : s.Quiet → t.nic = s.nic
  pciCommand : t.pciCommand = s.pciCommand

theorem OpKeepsNic.refl (s : State) : OpKeepsNic s s := ⟨rfl, fun _ => rfl, rfl⟩

theorem fencedBefore_mono {f : Bool} {es : List Event} (h : fencedBefore false es = true) : fencedBefore f es = true := by
  cases es with
  | nil => rfl
  | cons e es =>
    simp only [fencedBefore, Bool.or_false, Bool.and_eq_true] at h ⊢
    simp [h.1, h.2]

theorem fenced_cons {e : Event} {es : List Event} (he : isRegAccess e = false) (h : Fenced es) : Fenced (e :: es) := by
  show fencedBefore false (e :: es) = true
  simp [fencedBefore, he, fencedBefore_mono h]

theorem fenced_access {e : Event} {es : List Event} (h : Fenced es) : Fenced (.fence :: e :: es) := by
  show fencedBefore false (.fence :: e :: es) = true
  simp [fencedBefore, isRegAccess, fencedBefore_mono h]

theorem OpKeeps.refl (P : Nat → Prop) (s : State) : OpKeeps P s s where
  cfg := rfl
  base := rfl
  mac := rfl
  txTail := rfl
  rxTail := rfl
  phase := rfl
  caller := rfl
  response := rfl
  grows := ⟨[], rfl⟩
  fenced := id
  wf := id
  quiet := id
  bus := id
  jobs := id
  frame := fun _ _ _ => rfl

theorem OpKeeps.mono {P Q : Nat → Prop} {s t : State} (h : OpKeeps P s t) (hPQ : ∀ a, P a → Q a) : OpKeeps Q s t :=
  { h with frame := fun a ha hq => h.frame a (fun hp => ha (hPQ a hp)) hq }

theorem OpKeeps.trans {P : Nat → Prop} {s t u : State} (h : OpKeeps P s t) (g : OpKeeps P t u) : OpKeeps P s u where
  cfg := g.cfg.trans h.cfg
  base := g.base.trans h.base
  mac := g.mac.trans h.mac
  txTail := g.txTail.trans h.txTail
  rxTail := g.rxTail.trans h.rxTail
  phase := g.phase.trans h.phase
  caller := g.caller.trans h.caller
  response := g.response.trans h.response
  grows := by
    obtain ⟨es, he⟩ := h.grows
    obtain ⟨fs, hf⟩ := g.grows
    exact ⟨fs ++ es, by rw [hf, he, List.append_assoc]⟩
  fenced := fun hs => g.fenced (h.fenced hs)
  wf := fun hs => g.wf (h.wf hs)
  quiet := fun hs => g.quiet (h.quiet hs)
  bus := fun hs => g.bus (h.bus hs)
  jobs := fun hs => g.jobs (h.jobs hs)
  frame := fun a ha hq => by
    refine (g.frame a ha ?_).trans (h.frame a ha hq)
    rcases hq with hq | hq
    · exact Or.inl (h.quiet hq)
    · exact Or.inr (by rw [h.cfg]; exact hq)

theorem OpKeepsNic.trans {P : Nat → Prop} {s t u : State} (k : OpKeeps P s t) (h : OpKeepsNic s t)
    (g : OpKeepsNic t u) : OpKeepsNic s u where
  regs := g.regs.trans h.regs
  nic := fun hs => (g.nic (k.quiet hs)).trans (h.nic hs)
  pciCommand := g.pciCommand.trans h.pciCommand

/-- The controller's turn, as part of an operation. -/
theorem State.nicTurn_op (s : State) (P : Nat → Prop) : OpKeeps P s s.nicTurn where
  cfg := by simp
  base := by simp
  mac := by simp
  txTail := by simp
  rxTail := by simp
  phase := by simp
  caller := by simp
  response := by simp
  grows := ⟨[], by simp⟩
  fenced := fun h => by simpa using h
  wf := s.nicTurn_keeps.wf
  quiet := State.nicTurn_quiet
  bus := fun h => by
    unfold State.BusEnabled State.mastersBus State.decodesMemory
    rw [State.nicTurn_pciCommand, State.nicTurn_cfg]
    exact h
  jobs := s.nicTurn_keeps.jobs
  frame := fun a _ hq => by
    rcases hq with hq | hq
    · rw [State.nicTurn_mem_of_quiet hq]
    · exact s.nicTurn_keeps.read a hq

theorem State.nicTurn_opNic (s : State) : OpKeepsNic s s.nicTurn :=
  ⟨by simp, State.nicTurn_nic_of_quiet, by simp⟩

/-- An event that is no register access joins the history. -/
theorem State.record_op (s : State) (P : Nat → Prop) {e : Event} (he : isRegAccess e = false) :
    OpKeeps P s (s.record e) where
  cfg := rfl
  base := rfl
  mac := rfl
  txTail := rfl
  rxTail := rfl
  phase := rfl
  caller := rfl
  response := rfl
  grows := ⟨[e], rfl⟩
  fenced := fenced_cons he
  wf := id
  quiet := id
  bus := id
  jobs := id
  frame := fun _ _ _ => rfl

theorem State.record_opNic (s : State) (e : Event) : OpKeepsNic s (s.record e) := ⟨rfl, fun _ => rfl, rfl⟩

/-- What a fence can do. -/
theorem State.fence_op (s : State) (P : Nat → Prop) : OpKeeps P s s.fence :=
  (s.nicTurn_op P).trans (s.nicTurn.record_op P rfl)

theorem State.fence_opNic (s : State) : OpKeepsNic s s.fence :=
  OpKeepsNic.trans (s.nicTurn_op (fun _ => False)) s.nicTurn_opNic (s.nicTurn.record_opNic .fence)

@[simp] theorem State.fence_events (s : State) : s.fence.events = .fence :: s.events := by simp [State.fence]

/-- What a delay can do. -/
theorem State.delay_op (s : State) (n : Nat) (P : Nat → Prop) : OpKeeps P s (s.delay n) := by
  unfold State.delay
  split_ifs
  · exact OpKeeps.refl P s
  · exact (s.nicTurn_op P).trans (s.nicTurn.record_op P rfl)

theorem State.delay_opNic (s : State) (n : Nat) : OpKeepsNic s (s.delay n) := by
  unfold State.delay
  split_ifs
  · exact OpKeepsNic.refl s
  · exact OpKeepsNic.trans (s.nicTurn_op (fun _ => False)) s.nicTurn_opNic (s.nicTurn.record_opNic _)

theorem State.delay_events (s : State) (n : Nat) :
    (s.delay n).events = (if n = 0 then [] else [Event.spin n]) ++ s.events := by
  unfold State.delay
  split_ifs <;> simp

/-- What an emission can do. -/
theorem State.emit_op (s : State) (line : List Byte) (P : Nat → Prop) : OpKeeps P s (s.emit line) :=
  (s.nicTurn_op P).trans (s.nicTurn.record_op P rfl)

theorem State.emit_opNic (s : State) (line : List Byte) : OpKeepsNic s (s.emit line) :=
  OpKeepsNic.trans (s.nicTurn_op (fun _ => False)) s.nicTurn_opNic (s.nicTurn.record_opNic _)

@[simp] theorem State.emit_events (s : State) (line : List Byte) : (s.emit line).events = .emit line :: s.events := by
  simp [State.emit]

/-- What a read of ordinary memory can do; an access of 4 bytes would be a register access. -/
theorem State.memRead_op (s : State) (a : Addr) {n : Nat} (hn : n ≠ 4) (P : Nat → Prop) :
    OpKeeps P s (s.memRead a n).2 :=
  (s.nicTurn_op P).trans (s.nicTurn.record_op P (by simp [isRegAccess, hn]))

theorem State.memRead_opNic (s : State) (a : Addr) (n : Nat) : OpKeepsNic s (s.memRead a n).2 :=
  OpKeepsNic.trans (s.nicTurn_op (fun _ => False)) s.nicTurn_opNic (s.nicTurn.record_opNic _)

@[simp] theorem State.memRead_events (s : State) (a : Addr) (n : Nat) :
    (s.memRead a n).2.events = .memRead a n (s.memRead a n).1 :: s.events := by
  simp [State.memRead]

/-- What a write of ordinary memory can do. -/
theorem State.memWrite_op (s : State) (a : Addr) {n : Nat} (hn : n ≠ 4) (v : BitVec 64) (P : Nat → Prop)
    (hP : ∀ x, isByteOf a n x → P x) : OpKeeps P s (s.memWrite a n v) := by
  refine (s.nicTurn_op P).trans ?_
  constructor <;> try rfl
  · exact ⟨[_], rfl⟩
  · exact fenced_cons (by simp [isRegAccess, hn])
  · exact fun h => Memory.writeLE_wf h _ _ _
  · exact id
  · exact id
  · exact id
  · exact fun x hx _ => Memory.read_writeLE_of_not_mem _ _ _ _ _ (fun hb => hx (hP x hb))

theorem State.memWrite_opNic (s : State) (a : Addr) (n : Nat) (v : BitVec 64) : OpKeepsNic s (s.memWrite a n v) :=
  OpKeepsNic.trans (s.nicTurn_op (fun _ => False)) s.nicTurn_opNic ⟨rfl, fun _ => rfl, rfl⟩

@[simp] theorem State.memWrite_events (s : State) (a : Addr) (n : Nat) (v : BitVec 64) :
    (s.memWrite a n v).events = .memWrite a n v :: s.events := by
  simp [State.memWrite]

/-- What a configuration read can do. -/
theorem State.cfgRead_op (s : State) (bus slot : Nat) (off : Byte) (P : Nat → Prop) :
    OpKeeps P s (s.cfgRead bus slot off).2 := by
  refine (s.nicTurn_op P).trans ?_
  constructor <;> try rfl
  · exact ⟨[_], rfl⟩
  · exact fenced_cons rfl
  · exact id
  · exact id
  · exact id
  · exact id
  · exact fun _ _ _ => rfl

theorem State.cfgRead_opNic (s : State) (bus slot : Nat) (off : Byte) : OpKeepsNic s (s.cfgRead bus slot off).2 :=
  OpKeepsNic.trans (s.nicTurn_op (fun _ => False)) s.nicTurn_opNic ⟨rfl, fun _ => rfl, rfl⟩

@[simp] theorem State.cfgRead_events (s : State) (bus slot : Nat) (off : Byte) :
    (s.cfgRead bus slot off).2.events = .cfgRead bus slot 0 off (s.cfgRead bus slot off).1 :: s.events := by
  simp [State.cfgRead]

theorem and_mask_of_or (x y m : Word) : (x ||| m ||| y) &&& m = m := by
  ext i hi
  by_cases h : m[i] <;> simp [h]

/-- The value the block writes to the PCI command register has both enable bits set (R122). -/
theorem pciCommandValue_enables (c : Cfg) (cmd : Word) :
    hasBits (pciCommandValue c cmd) c.pciCmdBme = true ∧ hasBits (pciCommandValue c cmd) c.pciCmdMse = true := by
  unfold hasBits pciCommandValue
  rw [beq_iff_eq, beq_iff_eq]
  refine ⟨and_mask_of_or _ _ _, ?_⟩
  rw [BitVec.or_assoc cmd, BitVec.or_comm c.pciCmdBme, ← BitVec.or_assoc]
  exact and_mask_of_or _ _ _

/-- What the configuration write can do beside the PCI command register. -/
theorem State.cfgWriteCommand_op (s : State) (bus slot : Nat) (v : Word) (P : Nat → Prop)
    (hv : hasBits v s.cfg.pciCmdBme = true ∧ hasBits v s.cfg.pciCmdMse = true) :
    OpKeeps P s (s.cfgWriteCommand bus slot v) := by
  refine (s.nicTurn_op P).trans ?_
  rw [← s.nicTurn_cfg] at hv
  constructor <;> try rfl
  · exact ⟨[_], rfl⟩
  · exact fenced_cons rfl
  · exact id
  · exact id
  · exact fun _ => hv
  · exact id
  · exact fun _ _ _ => rfl

@[simp] theorem State.cfgWriteCommand_pciCommand (s : State) (bus slot : Nat) (v : Word) :
    (s.cfgWriteCommand bus slot v).pciCommand = v := rfl

@[simp] theorem State.cfgWriteCommand_events (s : State) (bus slot : Nat) (v : Word) :
    (s.cfgWriteCommand bus slot v).events = .cfgWrite bus slot 0 s.cfg.pciCmdOff v :: s.events := by
  simp [State.cfgWriteCommand]

theorem State.cfgWriteCommand_regs (s : State) (bus slot : Nat) (v : Word) :
    (s.cfgWriteCommand bus slot v).nic.regs = s.nic.regs := s.nicTurn_regs

theorem State.cfgWriteCommand_nic (s : State) (bus slot : Nat) (v : Word) (h : s.Quiet) :
    (s.cfgWriteCommand bus slot v).nic = s.nic := State.nicTurn_nic_of_quiet h

theorem State.regReadEffect_cases (s : State) (off : Word) :
    s.regReadEffect off = s ∨ s.regReadEffect off = { s with nic := { s.nic with icause := 0 } } ∨
    s.regReadEffect off = { s with env := s.env.busAnswered } := by
  unfold State.regReadEffect
  split_ifs <;> simp

/-- What `readReg` can do: memory and the block's registers as an operation that stores nothing. -/
theorem State.readReg_op (s : State) (off : Word) (P : Nat → Prop) : OpKeeps P s (s.readReg off).2 := by
  refine (s.nicTurn_op P).trans ?_
  have hb : ∀ u, u = s.nicTurn.regReadEffect off →
      u.cfg = s.nicTurn.cfg ∧ u.base = s.nicTurn.base ∧ u.mac = s.nicTurn.mac ∧ u.txTail = s.nicTurn.txTail ∧
      u.rxTail = s.nicTurn.rxTail ∧ u.phase = s.nicTurn.phase ∧ u.caller = s.nicTurn.caller ∧
      u.response = s.nicTurn.response ∧ u.events = s.nicTurn.events ∧ u.mem = s.nicTurn.mem ∧
      (s.nicTurn.Quiet → u.Quiet) ∧ (s.nicTurn.BusEnabled → u.BusEnabled) ∧
      (s.nicTurn.nic.JobsOk → u.nic.JobsOk) := by
    rintro u rfl
    rcases s.nicTurn.regReadEffect_cases off with h | h | h <;> rw [h] <;>
      exact ⟨rfl, rfl, rfl, rfl, rfl, rfl, rfl, rfl, rfl, rfl, id, id, id⟩
  obtain ⟨h1, h2, h3, h4, h5, h6, h7, h8, h9, h10, h11, h12, h13⟩ := hb _ rfl
  have hf := (s.busRead off).fence_op P
  have he : (s.busRead off).events = .memRead (regAddr s.base off) 4 ((s.nicTurn.regAnswer off).setWidth 64) ::
      s.nicTurn.events := by
    show _ :: (s.nicTurn.regReadEffect off).events = _
    rw [h9]
  refine ⟨hf.cfg.trans h1, hf.base.trans h2, hf.mac.trans h3, hf.txTail.trans h4, hf.rxTail.trans h5,
    hf.phase.trans h6, hf.caller.trans h7, hf.response.trans h8, ?_, ?_, ?_, ?_, ?_, ?_, ?_⟩
  · exact ⟨[.fence, _], by show (s.busRead off).fence.events = _; rw [State.fence_events, he]; rfl⟩
  · intro h
    show Fenced (s.busRead off).fence.events
    rw [State.fence_events, he]
    exact fenced_access h
  · intro h
    refine hf.wf ?_
    show (s.nicTurn.regReadEffect off).mem.wf
    rw [h10]
    exact h
  · exact fun h => hf.quiet (h11 h)
  · exact fun h => hf.bus (h12 h)
  · exact fun h => hf.jobs (h13 h)
  · intro a ha hq
    have : (s.busRead off).mem = s.nicTurn.mem := h10
    refine (hf.frame a ha ?_).trans (by rw [this])
    rcases hq with hq | hq
    · exact Or.inl (h11 hq)
    · refine Or.inr ?_
      rw [show (s.busRead off).cfg = s.nicTurn.cfg from h1]
      exact hq

theorem State.readReg_regs (s : State) (off : Word) : (s.readReg off).2.nic.regs = s.nic.regs := by
  have h : (s.busRead off).nic.regs = s.nicTurn.nic.regs := by
    show (s.nicTurn.regReadEffect off).nic.regs = _
    rcases s.nicTurn.regReadEffect_cases off with h | h | h <;> rw [h]
  show (s.busRead off).fence.nic.regs = _
  rw [(s.busRead off).fence_opNic.regs, h, State.nicTurn_regs]

theorem State.readReg_pciCommand (s : State) (off : Word) : (s.readReg off).2.pciCommand = s.pciCommand := by
  have h : (s.busRead off).pciCommand = s.nicTurn.pciCommand := by
    show (s.nicTurn.regReadEffect off).pciCommand = _
    rcases s.nicTurn.regReadEffect_cases off with h | h | h <;> rw [h]
  show (s.busRead off).fence.pciCommand = _
  rw [(s.busRead off).fence_opNic.pciCommand, h, State.nicTurn_pciCommand]

@[simp] theorem State.readReg_events (s : State) (off : Word) :
    (s.readReg off).2.events =
      .fence :: .memRead (regAddr s.base off) 4 ((s.readReg off).1.setWidth 64) :: s.events := by
  show (s.busRead off).fence.events = _
  rw [State.fence_events]
  congr 1
  show _ :: (s.nicTurn.regReadEffect off).events = _
  have h : (s.nicTurn.regReadEffect off).events = s.events := by
    rcases s.nicTurn.regReadEffect_cases off with h | h | h <;> rw [h] <;> simp
  rw [h]
  rfl

theorem Nic.take_regs (n : Nic) (c : Cfg) (m : Memory) (r : Reg) (v : Word) :
    (n.take c m r v).regs = n.regs.set r v := by
  unfold Nic.take
  cases r <;> simp only
  split_ifs <;> rfl

/-- A register write that the controller takes leaves the frames that wait or are on their way alone. -/
theorem Nic.take_frames (n : Nic) (c : Cfg) (m : Memory) (r : Reg) (v : Word) :
    (n.take c m r v).rxJobs = n.rxJobs ∧ (n.take c m r v).rxWaiting = n.rxWaiting := by
  unfold Nic.take
  cases r <;> first | exact ⟨rfl, rfl⟩ | (dsimp only; split_ifs <;> exact ⟨rfl, rfl⟩)

theorem State.nicAfterNamed_regs (s : State) (r : Reg) (v : Word) :
    (s.nicAfterNamed r v).regs = s.nic.regs.set r v := by
  unfold State.nicAfterNamed
  split_ifs
  · rfl
  · rfl
  · exact Nic.take_regs _ _ _ _ _

/-- A register write leaves the frames that wait or are on their way alone. -/
theorem State.nicAfterWrite_frames (s : State) (off v : Word) :
    (s.nicAfterWrite off v).rxJobs = s.nic.rxJobs ∧ (s.nicAfterWrite off v).rxWaiting = s.nic.rxWaiting := by
  unfold State.nicAfterWrite
  cases s.cfg.regAt off with
  | some r =>
    simp only [State.nicAfterNamed]
    split_ifs
    · exact ⟨rfl, rfl⟩
    · exact ⟨rfl, rfl⟩
    · exact Nic.take_frames _ _ _ _ _
  | none =>
    simp only
    split_ifs <;> exact ⟨rfl, rfl⟩

theorem State.nicAfterWrite_jobsOk (s : State) (off v : Word) (h : s.nic.JobsOk) : (s.nicAfterWrite off v).JobsOk := by
  unfold Nic.JobsOk
  rw [(s.nicAfterWrite_frames off v).1, (s.nicAfterWrite_frames off v).2]
  exact h

/-- What `writeReg` can do to memory and to the block's registers. -/
theorem State.writeReg_op (s : State) (off v : Word) (P : Nat → Prop)
    (hP : ∀ x, isByteOf (regAddr s.base off) 4 x ∧ s.cfg.inRam x → P x) : OpKeeps P s (s.writeReg off v) := by
  refine (s.nicTurn_op P).trans ?_
  have hf := (s.busWrite off v).fence_op P
  have he : (s.busWrite off v).events = .memWrite (regAddr s.base off) 4 (v.setWidth 64) :: s.nicTurn.events := rfl
  refine ⟨hf.cfg, hf.base, hf.mac, hf.txTail, hf.rxTail, hf.phase, hf.caller, hf.response, ?_, ?_, ?_, ?_, ?_, ?_, ?_⟩
  · exact ⟨[.fence, _], by show (s.busWrite off v).fence.events = _; rw [State.fence_events, he]; rfl⟩
  · intro h
    show Fenced (s.busWrite off v).fence.events
    rw [State.fence_events, he]
    exact fenced_access h
  · exact fun h => hf.wf (ramStore_wf h _ _ _ _)
  · exact fun h => hf.quiet h
  · exact fun h => hf.bus h
  · exact fun h => hf.jobs (s.nicTurn.nicAfterWrite_jobsOk off v h)
  · intro a ha hq
    refine (hf.frame a ha hq).trans ?_
    refine read_ramStore_of_not_mem _ _ _ _ _ _ ?_
    intro hx
    refine ha (hP a ?_)
    simpa using hx

@[simp] theorem State.writeReg_events (s : State) (off v : Word) :
    (s.writeReg off v).events =
      .fence :: .memWrite (regAddr s.base off) 4 (v.setWidth 64) :: s.events := by
  show (s.busWrite off v).fence.events = _
  rw [State.fence_events]
  show _ :: _ :: s.nicTurn.events = _
  rw [State.nicTurn_events]

theorem State.writeReg_pciCommand (s : State) (off v : Word) : (s.writeReg off v).pciCommand = s.pciCommand := by
  show (s.busWrite off v).fence.pciCommand = _
  rw [(s.busWrite off v).fence_opNic.pciCommand]
  exact s.nicTurn_pciCommand

/-- The controller's registers after `writeReg`: the named register at the offset was last written with the value. -/
theorem State.writeReg_regs (s : State) (off v : Word) :
    (s.writeReg off v).nic.regs =
      match s.cfg.regAt off with
      | some r => s.nic.regs.set r v
      | none => s.nic.regs := by
  show (s.busWrite off v).fence.nic.regs = _
  rw [(s.busWrite off v).fence_opNic.regs]
  show (s.nicTurn.regWriteEffect off v).nic.regs = _
  show (s.nicTurn.nicAfterWrite off v).regs = _
  unfold State.nicAfterWrite
  rw [State.nicTurn_cfg]
  cases h : s.cfg.regAt off with
  | some r =>
    simp only [State.nicAfterNamed_regs, State.nicTurn_regs]
  | none =>
    simp only
    split_ifs <;> simp

/-- `writeReg` of a named register of a well-formed parameter record. -/
theorem State.writeNamed_regs {s : State} (h : s.cfg.WF) (r : Reg) (v : Word) :
    (s.writeNamed r v).nic.regs = s.nic.regs.set r v := by
  unfold State.writeNamed
  rw [State.writeReg_regs, regAt_offset h]

/-- How the controller stands after `writeReg` of a named register, if it makes no access of its own. -/
theorem State.writeNamed_nic {s : State} (h : s.cfg.WF) (hq : s.Quiet) (r : Reg) (v : Word) :
    (s.writeNamed r v).nic = s.nicAfterNamed r v := by
  have hw : s.nicTurn.nicAfterWrite (s.cfg.offset r) v = s.nicAfterNamed r v := by
    rw [State.nicTurn_of_quiet hq]
    unfold State.nicAfterWrite
    rw [regAt_offset h]
    rfl
  show (s.busWrite _ v).fence.nic = _
  rw [(s.busWrite _ v).fence_opNic.nic (State.nicTurn_quiet hq)]
  exact hw

theorem regAddr_toNat (base off : Word) : (regAddr base off).toNat = base.toNat + off.toNat := by
  unfold regAddr
  have h1 := base.isLt
  have h2 := off.isLt
  rw [BitVec.toNat_add, BitVec.toNat_setWidth, BitVec.toNat_setWidth]
  omega

/-- No byte of a named register of a window clear of the regions lies in ordinary memory (R75). -/
theorem not_inRam_of_windowClear {c : Cfg} {base : Word} (h : c.windowClear base) (r : Reg) {x : Nat}
    (hx : isByteOf (regAddr base (c.offset r)) 4 x) : ¬ c.inRam x := by
  rintro ⟨q, hq, hin⟩
  obtain ⟨k, rfl⟩ := hx
  have hw := h r (by cases r <;> simp [allRegs]) q hq
  have h1 := base.isLt
  have h2 := (c.offset r).isLt
  have hk := k.isLt
  have ha : (regAddr base (c.offset r) + BitVec.ofNat 64 k.val).toNat =
      base.toNat + (c.offset r).toNat + k.val := by
    rw [BitVec.toNat_add, regAddr_toNat, BitVec.toNat_ofNat]
    omega
  rw [ha] at hin
  obtain ⟨h3, h4⟩ := hin
  omega

/-- A write of a named register of a window clear of the regions stores no byte of memory. -/
theorem State.writeNamed_op (s : State) (r : Reg) (v : Word) (P : Nat → Prop) (h : s.cfg.windowClear s.base) :
    OpKeeps P s (s.writeNamed r v) :=
  s.writeReg_op _ _ P (fun _ hx => absurd hx.2 (not_inRam_of_windowClear h r hx.1))

/-- What writing a run of bytes can do. -/
theorem State.writeBytes_op (bs : List Byte) (s : State) (a : Addr) (P : Nat → Prop)
    (hP : ∀ x, isByteOf a bs.length x → P x) : OpKeeps P s (s.writeBytes a bs) := by
  induction bs generalizing s a with
  | nil => exact OpKeeps.refl P s
  | cons b bs ih =>
    refine OpKeeps.trans (s.memWrite_op a (by decide) _ P ?_) (ih _ _ ?_)
    · rintro x ⟨k, rfl⟩
      have : k = 0 := Subsingleton.elim _ _
      exact hP _ ⟨0, by simp [this]⟩
    · rintro x ⟨k, rfl⟩
      refine hP _ ⟨k.succ, ?_⟩
      rw [addr_succ]
      rfl

theorem State.writeBytes_opNic (bs : List Byte) (s : State) (a : Addr) : OpKeepsNic s (s.writeBytes a bs) := by
  induction bs generalizing s a with
  | nil => exact OpKeepsNic.refl s
  | cons b bs ih =>
    exact OpKeepsNic.trans (s.memWrite_op a (by decide) _ (fun _ => True) (fun _ _ => trivial))
      (s.memWrite_opNic a 1 _) (ih _ _)

/-- What reading a run of bytes can do. -/
theorem State.readBytes_op (n : Nat) (s : State) (a : Addr) (P : Nat → Prop) : OpKeeps P s (s.readBytes a n).2 := by
  induction n generalizing s a with
  | zero => exact OpKeeps.refl P s
  | succ n ih => exact (s.memRead_op a (by decide) P).trans (ih _ _)

theorem State.readBytes_opNic (n : Nat) (s : State) (a : Addr) : OpKeepsNic s (s.readBytes a n).2 := by
  induction n generalizing s a with
  | zero => exact OpKeepsNic.refl s
  | succ n ih =>
    exact OpKeepsNic.trans (s.memRead_op a (by decide) (fun _ => True)) (s.memRead_opNic a 1) (ih _ _)

end Sys2Proof.Machine
end

