-- ==== Sys2Proof/Laws/Engines.lean ====
section
/-! SUPPORT. What the engines of the block can do, once for each shared operation: the frame builder, the transmit and
receive engines, the scan and the steps of INIT. `RunKeeps P s t` is what every one of them keeps. -/

namespace Sys2Proof.Machine

/-- What every piece of a command keeps: the parameter record, the MAC constant, the caller, the history so far, the
fence discipline, the canonical form, silence, the bus enables, the bounds of frames on their way, and every byte outside
`P` that the controller may not write. -/
structure RunKeeps (P : Nat → Prop) (s t : State) : Prop where
  cfg : t.cfg = s.cfg
  mac : t.mac = s.mac
  caller : t.caller = s.caller
  grows : ∃ es, t.events = es ++ s.events
  fenced : Fenced s.events → Fenced t.events
  wf : s.mem.wf → t.mem.wf
  quiet : s.Quiet → t.Quiet
  bus : s.BusEnabled → t.BusEnabled
  jobs : s.nic.JobsOk → t.nic.JobsOk
  frame : MemFrame s t P

theorem OpKeeps.run {P : Nat → Prop} {s t : State} (h : OpKeeps P s t) : RunKeeps P s t :=
  ⟨h.cfg, h.mac, h.caller, h.grows, h.fenced, h.wf, h.quiet, h.bus, h.jobs, h.frame⟩

theorem RunKeeps.refl (P : Nat → Prop) (s : State) : RunKeeps P s s := (OpKeeps.refl P s).run

theorem RunKeeps.mono {P Q : Nat → Prop} {s t : State} (h : RunKeeps P s t) (hPQ : ∀ a, P a → Q a) : RunKeeps Q s t :=
  { h with frame := fun a ha hq => h.frame a (fun hp => ha (hPQ a hp)) hq }

theorem RunKeeps.trans {P : Nat → Prop} {s t u : State} (h : RunKeeps P s t) (g : RunKeeps P t u) : RunKeeps P s u where
  cfg := g.cfg.trans h.cfg
  mac := g.mac.trans h.mac
  caller := g.caller.trans h.caller
  grows := by
    obtain ⟨es, he⟩ := h.grows
    obtain ⟨fs, hf⟩ := g.grows
    exact ⟨fs ++ es, by rw [hf, he, List.append_assoc]⟩
  fenced := fun hs => g.fenced (h.fenced hs)
  wf := fun hs => g.wf (h.wf hs)
  quiet := fun hs => g.quiet (h.quiet hs)
  bus := fun hs => g.bus (h.bus hs)
  jobs := fun hs => g.jobs (h.jobs hs)
  frame := fun a ha hq => by
    refine (g.frame a ha ?_).trans (h.frame a ha hq)
    rcases hq with hq | hq
    · exact Or.inl (h.quiet hq)
    · exact Or.inr (by rw [h.cfg]; exact hq)

/-! ## Updates of one register of the block -/

theorem State.setPhase_run (s : State) (p : Phase) (P : Nat → Prop) : RunKeeps P s (s.setPhase p) :=
  ⟨rfl, rfl, rfl, ⟨[], rfl⟩, id, id, id, id, id, fun _ _ _ => rfl⟩

theorem State.setTxTail_run (s : State) (v : Word) (P : Nat → Prop) : RunKeeps P s (s.setTxTail v) :=
  ⟨rfl, rfl, rfl, ⟨[], rfl⟩, id, id, id, id, id, fun _ _ _ => rfl⟩

theorem State.setRxTail_run (s : State) (v : Word) (P : Nat → Prop) : RunKeeps P s (s.setRxTail v) :=
  ⟨rfl, rfl, rfl, ⟨[], rfl⟩, id, id, id, id, id, fun _ _ _ => rfl⟩

theorem State.setBase_run (s : State) (v : Word) (P : Nat → Prop) : RunKeeps P s (s.setBase v) :=
  ⟨rfl, rfl, rfl, ⟨[], rfl⟩, id, id, id, id, id, fun _ _ _ => rfl⟩

theorem State.respond_run (s : State) (r : Response) (P : Nat → Prop) : RunKeeps P s (s.respond r) :=
  ⟨rfl, rfl, rfl, ⟨[], rfl⟩, id, id, id, id, id, fun _ _ _ => rfl⟩

/-! ## The frame builder -/

/-- Byte `j` of an area of `n` bytes is one of them. -/
theorem isByteOf_offset {a : Addr} {j n m : Nat} {x : Nat} (h : isByteOf (a + BitVec.ofNat 64 j) m x) (hj : j + m ≤ n) :
    isByteOf a n x := by
  obtain ⟨k, rfl⟩ := h
  exact ⟨⟨j + k.val, by omega⟩, by rw [addr_add_ofNat]⟩

/-- What inserting a checksum can do: it stores the two bytes of its field. -/
theorem State.insertChecksum_op (s : State) (b : Addr) (start len field : Nat) (P : Nat → Prop)
    (hP : ∀ x, isByteOf (b + BitVec.ofNat 64 field) 2 x → P x) : OpKeeps P s (s.insertChecksum b start len field) := by
  refine (State.readBytes_op len s _ P).trans ((State.memWrite_op _ _ (by decide) _ P ?_).trans
    (State.memWrite_op _ _ (by decide) _ P ?_))
  · intro x hx
    exact hP x ⟨0, by rw [isByteOf_one hx]; simp⟩
  · intro x hx
    rw [← addr_add_ofNat] at hx
    exact hP x (isByteOf_offset hx (by decide))

theorem State.insertChecksum_opNic (s : State) (b : Addr) (start len field : Nat) :
    OpKeepsNic s (s.insertChecksum b start len field) :=
  OpKeepsNic.trans (State.readBytes_op len s _ (fun _ => True)) (State.readBytes_opNic len s _)
    (OpKeepsNic.trans (State.memWrite_op _ _ (by decide) _ (fun _ => True) (fun _ _ => trivial))
      (State.memWrite_opNic _ _ _ _) (State.memWrite_opNic _ _ _ _))

theorem rawFrame_length (c : Cfg) (m : Mac) (seq : Half) : (rawFrame c m seq).length = 98 := rfl

/-- What building a frame can do: it stores bytes 0 to 97 of the slot `s.tx_tail`. -/
theorem State.buildFrame_op (s : State) (seq : Half) (P : Nat → Prop)
    (hP : ∀ x, isByteOf (txBuf s.cfg (slotOf s.txTail)) 98 x → P x) : OpKeeps P s (s.buildFrame seq) := by
  refine (State.writeBytes_op _ s _ P ?_).trans ((State.insertChecksum_op _ _ _ _ _ P ?_).trans
    (State.insertChecksum_op _ _ _ _ _ P ?_))
  · rw [rawFrame_length]
    exact hP
  · exact fun x hx => hP x (isByteOf_offset hx (by decide))
  · exact fun x hx => hP x (isByteOf_offset hx (by decide))

theorem State.buildFrame_opNic (s : State) (seq : Half) : OpKeepsNic s (s.buildFrame seq) :=
  OpKeepsNic.trans (State.writeBytes_op _ s _ (fun _ => True) (fun _ _ => trivial)) (State.writeBytes_opNic _ s _)
    (OpKeepsNic.trans (State.insertChecksum_op _ _ _ _ _ (fun _ => True) (fun _ _ => trivial))
      (State.insertChecksum_opNic _ _ _ _ _) (State.insertChecksum_opNic _ _ _ _ _))

/-! ## The transmit engine -/

/-- What filling a TX descriptor can do: it stores its length, command and status fields. -/
theorem State.fillTxDesc_op (s : State) (i : Slot) (P : Nat → Prop)
    (hP : ∀ x, (isByteOf (txDesc s.cfg i + txdLen) 2 x ∨ x = (txDesc s.cfg i + txdCmd).toNat ∨
      x = (txDesc s.cfg i + txdStatus).toNat) → P x) : OpKeeps P s (s.fillTxDesc i) := by
  have h1 := s.memWrite_op (txDesc s.cfg i + txdLen) (n := 2) (by decide) (BitVec.ofNat 64 Config.frameLen) P
    (fun x hx => hP x (Or.inl hx))
  refine h1.trans ?_
  have h2 := State.memWrite_op (s.memWrite (txDesc s.cfg i + txdLen) 2 (BitVec.ofNat 64 Config.frameLen))
    (txDesc s.cfg i + txdCmd) (n := 1) (by decide) ((txCommand s.cfg).setWidth 64) P
    (fun x hx => hP x (Or.inr (Or.inl (isByteOf_one hx))))
  exact h2.trans (State.memWrite_op _ (txDesc s.cfg i + txdStatus) (n := 1) (by decide) 0 P
    (fun x hx => hP x (Or.inr (Or.inr (isByteOf_one hx)))))

theorem State.fillTxDesc_opNic (s : State) (i : Slot) : OpKeepsNic s (s.fillTxDesc i) :=
  OpKeepsNic.trans (s.memWrite_op _ (by decide) _ (fun _ => True) (fun _ _ => trivial)) (s.memWrite_opNic _ _ _)
    (OpKeepsNic.trans (State.memWrite_op _ _ (by decide) _ (fun _ => True) (fun _ _ => trivial))
      (State.memWrite_opNic _ _ _ _) (State.memWrite_opNic _ _ _ _))

/-- What publishing a slot can do beside the tail cursor: one register write, with a fence before and after. -/
theorem State.publishTx_run (s : State) (i : Slot) (P : Nat → Prop)
    (hP : ∀ x, isByteOf (regAddr s.base (s.cfg.offset .tdt)) 4 x ∧ s.cfg.inRam x → P x) :
    RunKeeps P s (s.publishTx i) :=
  (s.fence_op P).run.trans ((State.writeReg_op s.fence _ _ P (by
    intro x hx
    refine hP x ?_
    rw [(s.fence_op P).cfg, (s.fence_op P).base] at hx
    exact hx)).run.trans (State.setTxTail_run _ _ P))

@[simp] theorem State.publishTx_txTail (s : State) (i : Slot) : (s.publishTx i).txTail = slotWord (nextSlot i) := rfl

/-- What the poll can do: it stores nothing. -/
theorem State.pollTx_op (i : Slot) (n : Nat) (s : State) (P : Nat → Prop) : OpKeeps P s (State.pollTx i n s).2 := by
  induction n generalizing s with
  | zero => exact OpKeeps.refl P s
  | succ n ih =>
    have h := (s.memRead_op (txDesc s.cfg i + txdStatus) (n := 1) (by decide) P).trans (State.fence_op _ P)
    unfold State.pollTx
    split_ifs
    · exact h
    · exact (h.trans (State.delay_op _ _ P)).trans (ih _)

theorem State.pollTx_opNic (i : Slot) (n : Nat) (s : State) : OpKeepsNic s (State.pollTx i n s).2 := by
  induction n generalizing s with
  | zero => exact OpKeepsNic.refl s
  | succ n ih =>
    have k := s.memRead_op (txDesc s.cfg i + txdStatus) (n := 1) (by decide) (fun _ => True)
    have h := OpKeepsNic.trans k (s.memRead_opNic (txDesc s.cfg i + txdStatus) 1) (State.fence_opNic _)
    have k' := k.trans (State.fence_op _ _)
    unfold State.pollTx
    split_ifs
    · exact h
    · exact OpKeepsNic.trans (k'.trans (State.delay_op _ _ _))
        (OpKeepsNic.trans k' h (State.delay_opNic _ _)) (ih _)

theorem State.finishTx_op (r : Bool × State) (P : Nat → Prop) : OpKeeps P r.2 (State.finishTx r) := by
  unfold State.finishTx
  split_ifs
  · exact OpKeeps.refl P _
  · exact State.emit_op _ _ P

theorem State.finishTx_opNic (r : Bool × State) : OpKeepsNic r.2 (State.finishTx r) := by
  unfold State.finishTx
  split_ifs
  · exact OpKeepsNic.refl _
  · exact State.emit_opNic _ _

/-! ## The receive engine -/

/-- What recycling a slot can do beside the cursor: it stores the status and length fields of its descriptor. -/
theorem State.recycleRx_run (s : State) (j : Slot) (P : Nat → Prop)
    (hP : ∀ x, (isByteOf (rxDesc s.cfg j + rxdLen) 2 x ∨ x = (rxDesc s.cfg j + rxdStatus).toNat ∨
      (isByteOf (regAddr s.base (s.cfg.offset .rdt)) 4 x ∧ s.cfg.inRam x)) → P x) : RunKeeps P s (s.recycleRx j) := by
  have h1 := s.memWrite_op (rxDesc s.cfg j + rxdStatus) (n := 1) (by decide) 0 P
    (fun x hx => hP x (Or.inr (Or.inl (isByteOf_one hx))))
  have h2 := State.memWrite_op (s.memWrite (rxDesc s.cfg j + rxdStatus) 1 0) (rxDesc s.cfg j + rxdLen) (n := 2)
    (by decide) 0 P (fun x hx => hP x (Or.inl hx))
  have h3 := (h1.trans h2).trans (State.fence_op _ P)
  refine h3.run.trans ((State.writeReg_op _ _ _ P ?_).run.trans (State.setRxTail_run _ _ P))
  intro x hx
  rw [h3.cfg, h3.base] at hx
  exact hP x (Or.inr (Or.inr hx))

@[simp] theorem State.recycleRx_rxTail (s : State) (j : Slot) : (s.recycleRx j).rxTail = slotWord j := rfl

/-! ## The scan -/

/-- What claiming the controller can do: it stores nothing in memory. -/
theorem State.claimDevice_run (s : State) (bus slot : Nat) (P : Nat → Prop) : RunKeeps P s (s.claimDevice bus slot) :=
  (s.cfgRead_op bus slot _ P).run.trans ((State.cfgWriteCommand_op _ _ _ _ P
    (by rw [(s.cfgRead_op bus slot s.cfg.pciCmdOff P).cfg]; exact pciCommandValue_enables _ _)).run.trans
    ((State.cfgRead_op _ _ _ _ P).run.trans (State.setBase_run _ _ P)))

/-- What the scan can do: it stores nothing in memory. -/
theorem State.scan_run (ps : List (Nat × Nat)) (s : State) (P : Nat → Prop) : RunKeeps P s (s.scan ps).2 := by
  induction ps generalizing s with
  | nil => exact RunKeeps.refl P s
  | cons p ps ih =>
    unfold State.scan
    split_ifs
    · exact (s.cfgRead_op _ _ _ P).run.trans (State.claimDevice_run _ _ _ P)
    · exact (s.cfgRead_op _ _ _ P).run.trans (ih _)

/-! ## The steps of INIT -/

/-- What writing one RX descriptor can do: it stores its 16 bytes. -/
theorem State.clearRxDesc_op (s : State) (i : Slot) (P : Nat → Prop)
    (hP : ∀ x, isByteOf (rxDesc s.cfg i) 16 x → P x) : OpKeeps P s (s.clearRxDesc i) := by
  have w : ∀ (u : State) (j n : Nat) (v : BitVec 64), n ≠ 4 → j + n ≤ 16 →
      OpKeeps P u (u.memWrite (rxDesc s.cfg i + BitVec.ofNat 64 j) n v) :=
    fun u j n v hn hj => u.memWrite_op _ hn v P (fun x hx => hP x (isByteOf_offset hx hj))
  exact (w _ 0 8 _ (by decide) (by decide)).trans ((w _ 8 2 _ (by decide) (by decide)).trans
    ((w _ 10 2 _ (by decide) (by decide)).trans ((w _ 12 1 _ (by decide) (by decide)).trans
      ((w _ 13 1 _ (by decide) (by decide)).trans (w _ 14 2 _ (by decide) (by decide))))))

/-- What writing one TX descriptor can do: it stores its 16 bytes. -/
theorem State.clearTxDesc_op (s : State) (i : Slot) (P : Nat → Prop)
    (hP : ∀ x, isByteOf (txDesc s.cfg i) 16 x → P x) : OpKeeps P s (s.clearTxDesc i) := by
  have w : ∀ (u : State) (j n : Nat) (v : BitVec 64), n ≠ 4 → j + n ≤ 16 →
      OpKeeps P u (u.memWrite (txDesc s.cfg i + BitVec.ofNat 64 j) n v) :=
    fun u j n v hn hj => u.memWrite_op _ hn v P (fun x hx => hP x (isByteOf_offset hx hj))
  exact (w _ 0 8 _ (by decide) (by decide)).trans ((w _ 8 2 _ (by decide) (by decide)).trans
    ((w _ 10 1 _ (by decide) (by decide)).trans ((w _ 11 1 _ (by decide) (by decide)).trans
      ((w _ 12 1 _ (by decide) (by decide)).trans ((w _ 13 1 _ (by decide) (by decide)).trans
        (w _ 14 2 _ (by decide) (by decide)))))))

/-- What step 6 can do: it stores the RX descriptor array. -/
theorem State.initStep6_op (s : State) (P : Nat → Prop)
    (hP : ∀ i : Slot, ∀ x, isByteOf (rxDesc s.cfg i) 16 x → P x) : OpKeeps P s s.initStep6 := by
  unfold State.initStep6
  suffices h : ∀ (is : List Slot) (u : State), u.cfg = s.cfg → OpKeeps P u (is.foldl State.clearRxDesc u) from h _ s rfl
  intro is
  induction is with
  | nil => exact fun u _ => OpKeeps.refl P u
  | cons i is ih =>
    intro u hu
    have h := u.clearRxDesc_op i P (by rw [hu]; exact hP i)
    exact h.trans (ih _ (h.cfg.trans hu))

/-- What step 10 can do: it stores the TX descriptor array. -/
theorem State.initStep10_op (s : State) (P : Nat → Prop)
    (hP : ∀ i : Slot, ∀ x, isByteOf (txDesc s.cfg i) 16 x → P x) : OpKeeps P s s.initStep10 := by
  unfold State.initStep10
  suffices h : ∀ (is : List Slot) (u : State), u.cfg = s.cfg → OpKeeps P u (is.foldl State.clearTxDesc u) from h _ s rfl
  intro is
  induction is with
  | nil => exact fun u _ => OpKeeps.refl P u
  | cons i is ih =>
    intro u hu
    have h := u.clearTxDesc_op i P (by rw [hu]; exact hP i)
    exact h.trans (ih _ (h.cfg.trans hu))

/-- The bytes of ordinary memory that a register access of the block could reach lie in `P`; none does if the window is
clear of the regions. -/
def RegsIn (P : Nat → Prop) (s : State) : Prop :=
  ∀ r x, isByteOf (regAddr s.base (s.cfg.offset r)) 4 x ∧ s.cfg.inRam x → P x

theorem RegsIn.of_windowClear {s : State} (h : s.cfg.windowClear s.base) (P : Nat → Prop) : RegsIn P s :=
  fun r _ hx => absurd hx.2 (not_inRam_of_windowClear h r hx.1)

theorem RegsIn.keep {P Q : Nat → Prop} {s t : State} (h : RegsIn P s) (k : OpKeeps Q s t) : RegsIn P t := by
  intro r x hx
  rw [k.cfg, k.base] at hx
  exact h r x hx

theorem RegsIn.write {P : Nat → Prop} {s : State} (h : RegsIn P s) (r : Reg) (v : Word) :
    OpKeeps P s (s.writeNamed r v) := s.writeReg_op _ v P (h r)

/-- A step of `INIT` that writes registers one after another: the next write, after what went before. -/
theorem OpKeeps.thenWrite {P : Nat → Prop} {s t : State} (k : OpKeeps P s t) (h : RegsIn P s) (r : Reg) (v : Word) :
    OpKeeps P s (t.writeNamed r v) := k.trans ((h.keep k).write r v)

theorem State.initStep1_op (s : State) (P : Nat → Prop) (h : RegsIn P s) : OpKeeps P s s.initStep1 :=
  (h.write .imask s.cfg.imaskAll).trans (State.delay_op _ _ P)

theorem State.initStep2_op (s : State) (P : Nat → Prop) : OpKeeps P s s.initStep2 := s.readReg_op _ P

theorem State.initStep3_op (s : State) (P : Nat → Prop) (h : RegsIn P s) : OpKeeps P s s.initStep3 :=
  (s.readReg_op (s.cfg.offset .ctrl) P).thenWrite h .ctrl _

theorem State.initStep4_op (s : State) (P : Nat → Prop) : OpKeeps P s s.initStep4 := s.delay_op _ P

/-- Step 5 is a piece of bus work and then the phase. -/
theorem State.initStep5_op (s : State) (P : Nat → Prop) (h : RegsIn P s) :
    ∃ u, OpKeeps P s u ∧ s.initStep5 = u.setPhase .reset :=
  ⟨_, (s.readReg_op (s.cfg.offset .icause) P).thenWrite h .imask s.cfg.imaskAll, rfl⟩

/-- Step 7 is a piece of bus work and then the RX cursor. -/
theorem State.initStep7_op (s : State) (P : Nat → Prop) (h : RegsIn P s) :
    ∃ u, OpKeeps P s u ∧ s.initStep7 = u.setRxTail 7 :=
  ⟨_, ((((h.write .rdbal (baseLow s.cfg.rxDescBase)).thenWrite h .rdbah (baseHigh s.cfg.rxDescBase)).thenWrite
    h .rdlen ringLength).thenWrite h .rdh 0).thenWrite h .rdt 7, rfl⟩

/-- Step 8 is a piece of bus work and then the phase. -/
theorem State.initStep8_op (s : State) (P : Nat → Prop) (h : RegsIn P s) :
    ∃ u, OpKeeps P s u ∧ s.initStep8 = u.setPhase .rxConfigured :=
  ⟨_, (h.write .macfLo (macfLo s.mac)).thenWrite h .macfHi (macfHi s.mac), rfl⟩

/-- Step 9 is a piece of bus work and then the phase. -/
theorem State.initStep9_op (s : State) (P : Nat → Prop) (h : RegsIn P s) :
    ∃ u, OpKeeps P s u ∧ s.initStep9 = u.setPhase .rxEnabled := ⟨_, h.write .rctl (rctlValue s.cfg), rfl⟩

/-- Step 11 is a piece of bus work and then the TX cursor and the phase. -/
theorem State.initStep11_op (s : State) (P : Nat → Prop) (h : RegsIn P s) :
    ∃ u, OpKeeps P s u ∧ s.initStep11 = (u.setTxTail 0).setPhase .txConfigured :=
  ⟨_, (((((h.write .tdbal (baseLow s.cfg.txDescBase)).thenWrite h .tdbah (baseHigh s.cfg.txDescBase)).thenWrite
    h .tdlen ringLength).thenWrite h .tdh 0).thenWrite h .tdt 0).thenWrite h .tipg s.cfg.tipgValue, rfl⟩

/-- Step 12 is a piece of bus work and then the phase. -/
theorem State.initStep12_op (s : State) (P : Nat → Prop) (h : RegsIn P s) :
    ∃ u, OpKeeps P s u ∧ s.initStep12 = u.setPhase .ready := ⟨_, h.write .tctl (tctlValue s.cfg), rfl⟩

/-! ## Publishing and recycling: a piece of bus work and then the cursor -/

theorem State.publishTx_op (s : State) (i : Slot) (P : Nat → Prop) (h : RegsIn P s) :
    ∃ u, OpKeeps P s u ∧ s.publishTx i = u.setTxTail (slotWord (nextSlot i)) :=
  ⟨_, (s.fence_op P).thenWrite h .tdt (slotWord (nextSlot i)), rfl⟩

theorem State.publishTx_regs {s : State} (h : s.cfg.WF) (i : Slot) :
    (s.publishTx i).nic.regs = s.nic.regs.set .tdt (slotWord (nextSlot i)) := by
  show (s.fence.writeNamed .tdt (slotWord (nextSlot i))).nic.regs = _
  rw [State.writeNamed_regs (by rw [(s.fence_op (fun _ => True)).cfg]; exact h), s.fence_opNic.regs]

theorem State.recycleRx_op (s : State) (j : Slot) (P : Nat → Prop) (h : RegsIn P s)
    (hP : ∀ x, (isByteOf (rxDesc s.cfg j + rxdLen) 2 x ∨ x = (rxDesc s.cfg j + rxdStatus).toNat) → P x) :
    ∃ u, OpKeeps P s u ∧ s.recycleRx j = u.setRxTail (slotWord j) := by
  have h1 := s.memWrite_op (rxDesc s.cfg j + rxdStatus) (n := 1) (by decide) 0 P
    (fun x hx => hP x (Or.inr (isByteOf_one hx)))
  have h2 := State.memWrite_op (s.memWrite (rxDesc s.cfg j + rxdStatus) 1 0) (rxDesc s.cfg j + rxdLen) (n := 2)
    (by decide) 0 P (fun x hx => hP x (Or.inl hx))
  exact ⟨_, ((h1.trans h2).trans (State.fence_op _ P)).thenWrite h .rdt (slotWord j), rfl⟩

theorem State.recycleRx_regs {s : State} (h : s.cfg.WF) (j : Slot) :
    (s.recycleRx j).nic.regs = s.nic.regs.set .rdt (slotWord j) := by
  have k : ((s.memWrite (rxDesc s.cfg j + rxdStatus) 1 0).memWrite (rxDesc s.cfg j + rxdLen) 2 0).fence.cfg = s.cfg :=
    ((State.fence_op _ (fun _ => True)).cfg.trans
      (State.memWrite_op _ _ (by decide) _ (fun _ => True) (fun _ _ => trivial)).cfg).trans
      (s.memWrite_op _ (by decide) _ (fun _ => True) (fun _ _ => trivial)).cfg
  show (State.writeNamed ((s.memWrite (rxDesc s.cfg j + rxdStatus) 1 0).memWrite
    (rxDesc s.cfg j + rxdLen) 2 0).fence .rdt (slotWord j)).nic.regs = _
  rw [State.writeNamed_regs (by rw [k]; exact h), (State.fence_opNic _).regs, (State.memWrite_opNic _ _ _ _).regs,
    (State.memWrite_opNic _ _ _ _).regs]

end Sys2Proof.Machine
end

