-- ==== Sys2Proof/Laws/Layout.lean ====
section
/-! SUPPORT. Where the bytes of the rings and pools lie under the constraints of R75: the address of every descriptor and
buffer byte as a natural number, and that the controller's bytes and the block's bytes are apart. -/

namespace Sys2Proof.Machine

theorem slot_byte_toNat {b : Addr} {size : Nat} (h : b.toNat + size ≤ 2 ^ 64) {j k : Nat} (hk : j + k < size) :
    (b + BitVec.ofNat 64 j + BitVec.ofNat 64 k).toNat = b.toNat + j + k := by
  rw [BitVec.add_assoc, ← BitVec.ofNat_add, BitVec.toNat_add, BitVec.toNat_ofNat]
  omega

/-- Byte `k` of TX buffer slot `i`. -/
theorem txBuf_byte {c : Cfg} (h : c.WF) (i : Slot) {k : Nat} (hk : k < 2048) :
    (txBuf c i + BitVec.ofNat 64 k).toNat = c.txBufBase.toNat + 2048 * i.val + k :=
  slot_byte_toNat (size := 16384) (h.2.2.2.2.1 c.txBufRegion (by simp [Cfg.regions])) (by omega)

/-- Byte `k` of RX buffer slot `i`. -/
theorem rxBuf_byte {c : Cfg} (h : c.WF) (i : Slot) {k : Nat} (hk : k < 2048) :
    (rxBuf c i + BitVec.ofNat 64 k).toNat = c.rxBufBase.toNat + 2048 * i.val + k :=
  slot_byte_toNat (size := 16384) (h.2.2.2.2.1 c.rxBufRegion (by simp [Cfg.regions])) (by omega)

/-- Byte `k` of TX descriptor `i`. -/
theorem txDesc_byte {c : Cfg} (h : c.WF) (i : Slot) {k : Nat} (hk : k < 16) :
    (txDesc c i + BitVec.ofNat 64 k).toNat = c.txDescBase.toNat + 16 * i.val + k :=
  slot_byte_toNat (size := 128) (h.2.2.2.2.1 c.txDescRegion (by simp [Cfg.regions])) (by omega)

/-- Byte `k` of RX descriptor `i`. -/
theorem rxDesc_byte {c : Cfg} (h : c.WF) (i : Slot) {k : Nat} (hk : k < 16) :
    (rxDesc c i + BitVec.ofNat 64 k).toNat = c.rxDescBase.toNat + 16 * i.val + k :=
  slot_byte_toNat (size := 128) (h.2.2.2.2.1 c.rxDescRegion (by simp [Cfg.regions])) (by omega)

/-- The four regions are apart, as six inequalities between their bases. -/
theorem regions_apart {c : Cfg} (h : c.WF) :
    c.txDescRegion.disjoint c.rxDescRegion ∧ c.txDescRegion.disjoint c.txBufRegion ∧
    c.txDescRegion.disjoint c.rxBufRegion ∧ c.rxDescRegion.disjoint c.txBufRegion ∧
    c.rxDescRegion.disjoint c.rxBufRegion ∧ c.txBufRegion.disjoint c.rxBufRegion := by
  have hp := h.2.2.2.1
  simp only [Cfg.regions, List.pairwise_cons, List.mem_cons, List.not_mem_nil, or_false, forall_eq_or_imp, forall_eq] at hp
  exact ⟨hp.1.1, hp.1.2.1, hp.1.2.2, hp.2.1.1, hp.2.1.2, hp.2.2.1⟩

/-- The bytes the controller may write, as natural numbers. -/
theorem nicMay_cases {c : Cfg} (h : c.WF) {a : Nat} (ha : nicMay c a) :
    (∃ i : Slot, ∃ k, k < 2048 ∧ a = c.rxBufBase.toNat + 2048 * i.val + k) ∨
    (∃ i : Slot, ∃ k, 8 ≤ k ∧ k < 16 ∧ a = c.rxDescBase.toNat + 16 * i.val + k) ∨
    (∃ i : Slot, a = c.txDescBase.toNat + 16 * i.val + 12) := by
  rcases ha with ⟨i, k, rfl⟩ | ⟨i, k, rfl⟩ | ⟨i, rfl⟩
  · exact Or.inl ⟨i, k.val, k.isLt, rxBuf_byte h i k.isLt⟩
  · exact Or.inr (Or.inl ⟨i, 8 + k.val, by omega, by omega, rxDesc_byte h i (by omega)⟩)
  · exact Or.inr (Or.inr ⟨i, txDesc_byte h i (k := 12) (by decide)⟩)

/-- The controller may not write a TX buffer (R90). -/
theorem not_nicMay_txBuf {c : Cfg} (h : c.WF) (i : Slot) {k : Nat} (hk : k < 2048) :
    ¬ nicMay c (txBuf c i + BitVec.ofNat 64 k).toNat := by
  intro hm
  obtain ⟨_, h2, _, h4, _, h6⟩ := regions_apart h
  simp only [Region.disjoint, Cfg.txDescRegion, Cfg.rxDescRegion, Cfg.txBufRegion, Cfg.rxBufRegion] at h2 h4 h6
  rw [txBuf_byte h i hk] at hm
  have hc := nicMay_cases h hm
  clear hm h
  rcases hc with ⟨j, k', hk', e⟩ | ⟨j, k', _, hk', e⟩ | ⟨j, e⟩ <;> omega

/-- Of a TX descriptor the controller may write the status byte only (R90). -/
theorem not_nicMay_txDesc {c : Cfg} (h : c.WF) (i : Slot) {k : Nat} (hk : k < 16) (hs : k ≠ 12) :
    ¬ nicMay c (txDesc c i + BitVec.ofNat 64 k).toNat := by
  intro hm
  obtain ⟨h1, _, h3, _, _, _⟩ := regions_apart h
  simp only [Region.disjoint, Cfg.txDescRegion, Cfg.rxDescRegion, Cfg.rxBufRegion] at h1 h3
  rw [txDesc_byte h i hk] at hm
  have hc := nicMay_cases h hm
  clear hm h
  rcases hc with ⟨j, k', hk', e⟩ | ⟨j, k', _, hk', e⟩ | ⟨j, e⟩ <;> omega

/-- Of an RX descriptor the controller may not write the address field (R90). -/
theorem not_nicMay_rxAddr {c : Cfg} (h : c.WF) (i : Slot) {k : Nat} (hk : k < 8) :
    ¬ nicMay c (rxDesc c i + BitVec.ofNat 64 k).toNat := by
  intro hm
  obtain ⟨h1, _, _, _, h5, _⟩ := regions_apart h
  simp only [Region.disjoint, Cfg.txDescRegion, Cfg.rxDescRegion, Cfg.rxBufRegion] at h1 h5
  rw [rxDesc_byte h i (by omega)] at hm
  have hc := nicMay_cases h hm
  clear hm h
  rcases hc with ⟨j, k', hk', e⟩ | ⟨j, k', _, hk', e⟩ | ⟨j, e⟩ <;> omega

end Sys2Proof.Machine
end

