-- ==== Sys2Proof/Laws/Exec.lean ====
section
/-! SUPPORT. What `exec` answers for each operation, one equation each, so that no later proof unfolds `exec`. -/

namespace Sys2Proof.Machine

theorem exec_findDevice (s : State) : exec .findDevice s =
    .next ((s.scan pciFunctions).2.respond ⟨false, (s.scan pciFunctions).1, (s.scan pciFunctions).2.base⟩) := rfl

theorem exec_init (s : State) :
    exec .init s = .next (s.initReset.initReceive.initTransmit.respond ⟨false, true, 0⟩) := rfl

theorem exec_sendEcho (seq : Half) (s : State) : exec (.sendEcho seq) s =
    .next ((State.finishTx (State.pollTx (slotOf s.txTail) s.cfg.txPollMax (s.enqueue seq))).respond
      ⟨false, (State.pollTx (slotOf s.txTail) s.cfg.txPollMax (s.enqueue seq)).1, slotWord (slotOf s.txTail)⟩) := rfl

theorem exec_checkReply (s : State) : exec .checkReply s = .next (s.inspectRx (nextSlot (slotOf s.rxTail))) := rfl

theorem exec_readReg {off : Word} (h : off.toNat % 4 = 0) (s : State) :
    exec (.readReg off) s = .next ((s.readReg off).2.respond ⟨false, true, (s.readReg off).1⟩) := if_pos h

theorem exec_readReg_misaligned {off : Word} (h : off.toNat % 4 ≠ 0) (s : State) :
    exec (.readReg off) s = .refused .misalignedRegisterOffset := if_neg h

theorem exec_writeReg {off : Word} (h : off.toNat % 4 = 0) (v : Word) (s : State) :
    exec (.writeReg off v) s = .next ((s.writeReg off v).respond ⟨false, true, 0⟩) := if_pos h

theorem exec_writeReg_misaligned {off : Word} (h : off.toNat % 4 ≠ 0) (v : Word) (s : State) :
    exec (.writeReg off v) s = .refused .misalignedRegisterOffset := if_neg h

theorem exec_delay (n : Word) (s : State) :
    exec (.delay n) s = .next ((s.delay n.toNat).respond ⟨false, true, 0⟩) := rfl

theorem exec_fence (s : State) : exec .fence s = .next (s.fence.respond ⟨false, true, 0⟩) := rfl

theorem exec_checksum {start len : Word} (h : start.toNat + len.toNat ≤ 2048) (s : State) :
    exec (.checksum start len) s = .next ((s.checksumBytes start.toNat len.toNat).2.respond
      ⟨false, true, (cksum (s.checksumBytes start.toNat len.toNat).1).setWidth 32⟩) :=
  congrArg Host.Outcome.next (if_neg (Nat.not_lt.2 h))

theorem exec_checksum_refused {start len : Word} (h : start.toNat + len.toNat > 2048) (s : State) :
    exec (.checksum start len) s = .next (s.respond ⟨true, false, 0⟩) := congrArg Host.Outcome.next (if_pos h)

theorem exec_buildFrame (seq : Half) (s : State) :
    exec (.buildFrame seq) s = .next ((s.buildFrame seq).respond ⟨false, true, 98⟩) := rfl

end Sys2Proof.Machine
end

