-- ==== Sys2Proof/Laws/PerInstr.lean ====
section
/-! SUPPORT. What holds of every instruction as syntax: its encoded command word selects its own row of R102. -/

namespace Sys2Proof

theorem commandWord_op (op : Byte) (imm : Half) : (commandWord op imm).extractLsb' 24 8 = op := by
  unfold commandWord
  ext k hk
  simp only [BitVec.getElem_extractLsb', BitVec.getLsbD_append]
  rw [if_neg (by omega), if_neg (by omega), show 24 + k - 16 - 8 = k by omega, BitVec.getLsbD_eq_getElem hk]

theorem commandWord_rsvd (op : Byte) (imm : Half) : (commandWord op imm).extractLsb' 16 8 = 0 := by
  unfold commandWord
  ext k hk
  simp only [BitVec.getElem_extractLsb', BitVec.getLsbD_append]
  rw [if_neg (by omega), if_pos (by omega)]
  simp

theorem commandWord_imm16 (op : Byte) (imm : Half) : (commandWord op imm).extractLsb' 0 16 = imm := by
  unfold commandWord
  ext k hk
  simp only [BitVec.getElem_extractLsb', BitVec.getLsbD_append]
  rw [if_pos (by omega), show 0 + k = k by omega, BitVec.getLsbD_eq_getElem hk]

/-- Under the mask that drops the immediate, only `op` is left. -/
theorem commandWord_and (op : Byte) (imm : Half) : commandWord op imm &&& 0xFFFF0000 = commandWord op 0 := by
  apply BitVec.eq_of_toNat_eq
  have e : ∀ v : Half, (commandWord op v).toNat = op.toNat * 2 ^ 24 + v.toNat := by
    intro v
    have hv := v.isLt
    unfold commandWord
    rw [BitVec.toNat_append, BitVec.toNat_append]
    simp only [BitVec.ofNat_eq_ofNat, BitVec.toNat_ofNat, Nat.zero_mod, Nat.or_zero]
    rw [← Nat.shiftLeft_add_eq_or_of_lt (by omega), Nat.shiftLeft_eq, Nat.shiftLeft_eq]
    omega
  have ho := op.isLt
  have hi := imm.isLt
  have m : ∀ n : Nat, n < 2 ^ 32 → n &&& 0xFFFF0000 = n / 2 ^ 16 * 2 ^ 16 := by
    intro n hn
    apply Nat.eq_of_testBit_eq
    intro k
    rw [Nat.testBit_and, Nat.mul_comm, Nat.testBit_two_pow_mul, Nat.testBit_div_two_pow]
    by_cases hk : k < 32
    · interval_cases k <;> simp [Nat.testBit]
    · have : n.testBit k = false := Nat.testBit_lt_two_pow (lt_of_lt_of_le hn (Nat.pow_le_pow_right (by decide) (by omega)))
      simp [this, show k - 16 + 16 = k by omega]
  rw [BitVec.toNat_and, e, e]
  show _ &&& 0xFFFF0000 = _
  rw [m _ (by omega)]
  simp
  omega

end Sys2Proof

namespace Sys2Proof.Laws

/-- The word that encodes the instruction equals its row's match under its row's mask (R102). -/
def RowMatch.Statement (i : Instr) : Prop := (encode i).cw &&& i.rowMask = i.rowMatch

theorem RowMatch.findDevice : RowMatch.Statement .findDevice := by unfold RowMatch.Statement; decide
theorem RowMatch.init : RowMatch.Statement .init := by unfold RowMatch.Statement; decide
theorem RowMatch.sendEcho (seq : Half) : RowMatch.Statement (.sendEcho seq) := commandWord_and 0x03 seq
theorem RowMatch.checkReply : RowMatch.Statement .checkReply := by unfold RowMatch.Statement; decide
theorem RowMatch.readReg (off : Word) : RowMatch.Statement (.readReg off) := by
  show commandWord 0x10 0 &&& 0xFFFFFFFF = 0x10000000
  decide
theorem RowMatch.writeReg (off value : Word) : RowMatch.Statement (.writeReg off value) := by
  show commandWord 0x11 0 &&& 0xFFFFFFFF = 0x11000000
  decide
theorem RowMatch.delay (n : Word) : RowMatch.Statement (.delay n) := by
  show commandWord 0x12 0 &&& 0xFFFFFFFF = 0x12000000
  decide
theorem RowMatch.fence : RowMatch.Statement .fence := by unfold RowMatch.Statement; decide
theorem RowMatch.checksum (start len : Word) : RowMatch.Statement (.checksum start len) := by
  show commandWord 0x18 0 &&& 0xFFFFFFFF = 0x18000000
  decide
theorem RowMatch.buildFrame (seq : Half) : RowMatch.Statement (.buildFrame seq) := commandWord_and 0x19 seq

end Sys2Proof.Laws
end

