-- ==== Sys2Proof/Tests/Slice0.lean ====
section
/-! SUPPORT. Tests. Expected results are the worked vectors of spec/95_test_vectors.md and hand calculation from the rules;
the parameter values are its example set P_EX and, for the register offsets and masks, entry G1 of
spec/93_implementation_defined.md. After them, one witness for the hypotheses of each statement. -/

namespace Sys2Proof.Tests

open Sys2Proof Sys2Proof.Machine

/-! ## The example parameters and states -/

/-- P_EX with the offsets and masks of G1. -/
def exCfg : Cfg where
  macAddr := ⟨0x52, 0x54, 0x00, 0x12, 0x34, 0x56⟩
  srcIp := ⟨10, 0, 2, 15⟩
  dstIp := ⟨10, 0, 2, 2⟩
  icmpIdent := 0x1234
  pciVendorId := 0x8086
  pciDeviceId0 := 0x100E
  pciDeviceId1 := 0x153A
  pciDeviceId2 := 0x10EA
  pciIdOff := 0x00
  pciCmdOff := 0x04
  pciBar0Off := 0x10
  pciCmdMse := 2
  pciCmdBme := 4
  regCtrl := 0x0000
  regStatus := 0x0008
  regIcause := 0x00C0
  regImask := 0x00D8
  regRctl := 0x0100
  regTctl := 0x0400
  regTipg := 0x0410
  regRdbal := 0x2800
  regRdbah := 0x2804
  regRdlen := 0x2808
  regRdh := 0x2810
  regRdt := 0x2818
  regTdbal := 0x3800
  regTdbah := 0x3804
  regTdlen := 0x3808
  regTdh := 0x3810
  regTdt := 0x3818
  regMacfLo := 0x5400
  regMacfHi := 0x5404
  ctrlRst := 0x04000000
  imaskAll := 0xFFFFFFFF
  rctlEn := 2
  rctlUnicast := 8
  rctlMpe := 0x10
  rctlBam := 0x8000
  rctlBsize2k := 0
  rctlSecrc := 0x04000000
  tctlEn := 2
  tctlPsp := 8
  tctlColl := 0x000400F0
  tipgValue := 0x0060200A
  txcmdEop := 1
  txcmdIfcs := 2
  txcmdRs := 8
  delayMask := 3
  delayReset := 5
  txPollDelay := 2
  txPollMax := 3
  txDescBase := 0x00100000
  rxDescBase := 0x00101000
  txBufBase := 0x00110000
  rxBufBase := 0x00120000
  msgTxTimeout := [0x74, 0x78]

/-- A controller after bring-up: enabled, its TX ring empty, no reset in progress. -/
def exNic : Nic where
  regs := RegFile.zero
  icause := 0
  rxOn := true
  txOn := true
  resetPending := false
  txHead := some 0
  txTail := some 0
  txFull := false
  txGiven := true
  txJobs := []
  rxHead := some 0
  rxWaiting := []
  rxJobs := []

/-- A discovered machine with these parameters, memory that powered up as zeros, every PCI function present, and a silent
controller. -/
def exState : State :=
  { State.reset with
    cfg := exCfg
    mac := exCfg.macAddr
    base := 0xFEBC0000
    mem := { powerOn := .filled 0, cells := [] }
    nic := exNic
    pciCommand := 6
    env := { tick := 0, script := [], silent := true, busReads := [], cfgReads := [], functions := .listed pciFunctions } }

/-- With frames that have arrived and wait for a slot. -/
def withArrived (fs : List (List Byte)) : State := { exState with nic := { exNic with rxWaiting := fs } }

/-- With other memory contents. -/
def withCells (cs : List Host.Cell) : State := { exState with mem := { powerOn := .filled 0, cells := cs } }

/-- With the caller's commands. -/
def withCaller (cs : List Command) : State := { exState with caller := cs }

/-- With the answers to the coming register reads. -/
def withBusReads (vs : List Word) : State := { exState with env := { exState.env with busReads := vs } }

/-- With the answers to the coming configuration reads, before discovery. -/
def withCfgReads (vs : List Word) : State :=
  { exState with base := 0, env := { exState.env with cfgReads := vs } }

/-- With the controller's coming accesses. -/
def withScript (ms : List (List NicMove)) : State := { exState with env := { exState.env with script := ms } }

/-- A frame of the given status, length and bytes 23 and 34 waits in RX slot 0, which is the next expected one. -/
def withFrame (st len b23 b34 : Byte) : State :=
  { exState with
    rxTail := 7
    mem := (((exState.mem.write 0x101008 len).write 0x10100C st).write 0x120017 b23).write 0x120022 b34 }

/-- The next state of an outcome; the example state where there is none. -/
def after (o : Host.Outcome State Fault Refusal) : State :=
  match o with
  | .next s => s
  | _ => exState

/-- Whether an outcome is a next state. -/
def isNext (o : Host.Outcome State Fault Refusal) : Bool :=
  match o with
  | .next _ => true
  | _ => false

/-! ## Well-formedness: an ill-formed term for each check -/

theorem test_wf_accepts : exCfg.WF := by decide
theorem test_wf_window : exCfg.windowClear 0xFEBC0000 := by decide
theorem test_wf_refuses_read_offset : (Instr.readReg 2).wf = false := by decide
theorem test_wf_refuses_write_offset : (Instr.writeReg 0x3819 1).wf = false := by decide
theorem test_wf_refuses_checksum_range : (Instr.checksum 0xFFFFFFFF 2).wf = false := by decide
theorem test_wf_refuses_vendor : ¬ Cfg.pciOk { exCfg with pciVendorId := 0xFFFF } := by decide
theorem test_wf_refuses_vendor_zero : ¬ Cfg.pciOk { exCfg with pciVendorId := 0 } := by decide
theorem test_wf_refuses_config_offset : ¬ Cfg.pciOk { exCfg with pciIdOff := 2 } := by decide
theorem test_wf_refuses_command_offset : ¬ Cfg.pciOk { exCfg with pciCmdOff := 6 } := by decide
theorem test_wf_refuses_base_offset : ¬ Cfg.pciOk { exCfg with pciBar0Off := 0x11 } := by decide
theorem test_wf_refuses_same_offsets : ¬ Cfg.pciOk { exCfg with pciCmdOff := 0x10 } := by decide
theorem test_wf_refuses_two_bit_enable : ¬ Cfg.pciOk { exCfg with pciCmdMse := 3 } := by decide
theorem test_wf_refuses_two_bit_master : ¬ Cfg.pciOk { exCfg with pciCmdBme := 6 } := by decide
theorem test_wf_refuses_same_enables : ¬ Cfg.pciOk { exCfg with pciCmdBme := 2 } := by decide
theorem test_wf_refuses_register_offset : ¬ Cfg.regsOk { exCfg with regTdt := 0x3819 } := by decide
theorem test_wf_refuses_same_registers : ¬ Cfg.regsOk { exCfg with regTdt := 0x2818 } := by decide
theorem test_wf_refuses_reset_mask : ¬ Cfg.valuesOk { exCfg with ctrlRst := 0 } := by decide
theorem test_wf_refuses_poll_max : ¬ Cfg.valuesOk { exCfg with txPollMax := 0 } := by decide
theorem test_wf_refuses_message : ¬ Cfg.valuesOk { exCfg with msgTxTimeout := [0x80] } := by decide
theorem test_wf_refuses_overlap : ¬ Cfg.regionsOk { exCfg with rxDescBase := 0x00100070 } := by decide
theorem test_wf_refuses_wrap : ¬ Cfg.regionsOk { exCfg with rxBufBase := 0xFFFFFFFFFFFFF000 } := by decide
theorem test_wf_refuses_tx_alignment : ¬ Cfg.regionsOk { exCfg with txDescBase := 0x00100008 } := by decide
theorem test_wf_refuses_rx_alignment : ¬ Cfg.regionsOk { exCfg with rxDescBase := 0x00101004 } := by decide
theorem test_wf_refuses_window : ¬ exCfg.windowClear 0x00100000 := by decide

/-! ## Decoding: one word for every operation, from R102 and vectors V30.1 to V30.22 -/

theorem test_decode_findDevice : decode ⟨0x01000000, 7, 9⟩ = .ok .findDevice := by decide
theorem test_decode_init : decode ⟨0x02000000, 0, 0⟩ = .ok .init := by decide
theorem test_decode_sendEcho : decode ⟨0x0300FFFF, 0, 0⟩ = .ok (.sendEcho 0xFFFF) := by decide
theorem test_decode_checkReply : decode ⟨0x04000000, 0, 0⟩ = .ok .checkReply := by decide
theorem test_decode_readReg : decode ⟨0x10000000, 0x00C0, 5⟩ = .ok (.readReg 0x00C0) := by decide
theorem test_decode_writeReg : decode ⟨0x11000000, 0x3818, 1⟩ = .ok (.writeReg 0x3818 1) := by decide
theorem test_decode_delay : decode ⟨0x12000000, 3, 0⟩ = .ok (.delay 3) := by decide
theorem test_decode_fence : decode ⟨0x13000000, 0, 0⟩ = .ok .fence := by decide
theorem test_decode_checksum : decode ⟨0x18000000, 0x0E, 0x14⟩ = .ok (.checksum 14 20) := by decide
theorem test_decode_buildFrame : decode ⟨0x19000100, 0, 0⟩ = .ok (.buildFrame 0x0100) := by decide
theorem test_decode_op_00 : decode ⟨0x00000000, 0, 0⟩ = .error .reservedOp := by decide
theorem test_decode_op_05 : decode ⟨0x05000000, 0, 0⟩ = .error .reservedOp := by decide
theorem test_decode_op_14 : decode ⟨0x14000000, 0, 0⟩ = .error .reservedOp := by decide
theorem test_decode_op_1A : decode ⟨0x1A000000, 0, 0⟩ = .error .reservedOp := by decide
theorem test_decode_op_FF : decode ⟨0xFF000000, 0, 0⟩ = .error .reservedOp := by decide
theorem test_decode_imm_findDevice : decode ⟨0x01000001, 0, 0⟩ = .error .immediateNotZero := by decide
theorem test_decode_imm_readReg : decode ⟨0x10000004, 0, 0⟩ = .error .immediateNotZero := by decide
theorem test_decode_rsvd : decode ⟨0x03010000, 0, 0⟩ = .error .reservedField := by decide
/-- `a0` is bits 63:32 and `a1` bits 95:64 of a table word. -/
theorem test_table_word : decodeTableWord 96 0x000000010000381811000000 = some (.writeReg 0x3818 1) := by decide
theorem test_table_word_short : decodeTableWord 32 0x11000000 = some (.writeReg 0 0) := by decide
theorem test_encode_sendEcho : (encode (.sendEcho 0x0102)).cw = 0x03000102 := by decide
/-- The textual forms of R107. -/
theorem test_assemble : assemble "FENCE".toList = some .fence ∧
    assemble "WRITE_REG 0x3818, 1".toList = some (.writeReg 0x3818 1) ∧
    assemble "SEND_ECHO 65535".toList = some (.sendEcho 0xFFFF) ∧ assemble "SEND_ECHO 65536".toList = none ∧
    assemble "DELAY 0xff".toList = some (.delay 255) ∧ assemble "INIT 1".toList = none := by decide
theorem test_text : (Instr.writeReg 24 1).text = "WRITE_REG 24, 1" := by decide

/-! ## Values and conditions -/

/-- V42.2. -/
theorem test_macf : macfLo exCfg.macAddr = 0x12005452 ∧ macfHi exCfg.macAddr = 0x80005634 := by decide
/-- V42.5: the valid bit stands alone. -/
theorem test_macf_zero : macfLo ⟨0, 0, 0, 0, 0, 0⟩ = 0 ∧ macfHi ⟨0, 0, 0, 0, 0, 0⟩ = 0x80000000 := by decide
/-- V42.6. -/
theorem test_base_halves : baseLow 0x0000000123456780 = 0x23456780 ∧ baseHigh 0x0000000123456780 = 1 := by decide
/-- R161 under P_EX: `TxDesc(7)`, `RxDesc(7)`, `TxBuf(7)`, `RxBuf(7)`. -/
theorem test_slot_addresses : txDesc exCfg 7 = 0x00100070 ∧ rxDesc exCfg 7 = 0x00101070 ∧
    txBuf exCfg 7 = 0x00113800 ∧ rxBuf exCfg 7 = 0x00123800 := by decide
/-- V40.9: a register address does not wrap. -/
theorem test_register_address : regAddr 0xFEBC0000 0xFFFFFFFC = 0x00000001FEBBFFFC := by decide
/-- V43.3, V43.5, V43.6, V43.7, V43.8. -/
theorem test_cksum_small : cksum [0xFF] = 0x00FF ∧ cksum [0xFF, 0xFF] = 0 ∧ cksum [0xFF, 0xFF, 0xFF, 0xFF] = 0 ∧
    cksum [1, 2, 3, 4, 5] = 0xF6F9 ∧ cksum [0x80, 0, 0x80, 0] = 0xFFFE := by decide
/-- K1 (V43.11). -/
theorem test_cksum_K1 : cksum [0x00, 0x01, 0xF2, 0x03, 0xF4, 0xF5, 0xF6, 0xF7] = 0x220D := by decide
/-- K2 (V43.12). -/
theorem test_cksum_K2 : cksum [0x45, 0x00, 0x00, 0x73, 0x00, 0x00, 0x40, 0x00, 0x40, 0x11, 0x00, 0x00,
    0xC0, 0xA8, 0x00, 0x01, 0xC0, 0xA8, 0x00, 0xC7] = 0xB861 := by decide
/-- V43.16. -/
theorem test_cksum_payload : cksum icmpPayload = 0x8569 := by decide
/-- V43.20: the whole frame. -/
theorem test_finished_frame : finishedFrame exCfg exCfg.macAddr 1 =
    [0xff, 0xff, 0xff, 0xff, 0xff, 0xff, 0x52, 0x54, 0x00, 0x12, 0x34, 0x56, 0x08, 0x00, 0x45, 0x00,
     0x00, 0x54, 0x00, 0x01, 0x00, 0x00, 0x40, 0x01, 0x62, 0x98, 0x0a, 0x00, 0x02, 0x0f, 0x0a, 0x00,
     0x02, 0x02, 0x08, 0x00, 0x6b, 0x34, 0x12, 0x34, 0x00, 0x01, 0x20, 0x21, 0x22, 0x23, 0x24, 0x25] ++
    [0x26, 0x27, 0x28, 0x29, 0x2a, 0x2b, 0x2c, 0x2d, 0x2e, 0x2f, 0x30, 0x31, 0x32, 0x33, 0x34, 0x35,
     0x36, 0x37, 0x38, 0x39, 0x3a, 0x3b, 0x3c, 0x3d, 0x3e, 0x3f, 0x40, 0x41, 0x42, 0x43, 0x44, 0x45,
     0x46, 0x47, 0x48, 0x49, 0x4a, 0x4b, 0x4c, 0x4d, 0x4e, 0x4f, 0x50, 0x51, 0x52, 0x53, 0x54, 0x55,
     0x56, 0x57] := by decide
/-- V43.23, V43.24, V43.26, V43.27. -/
theorem test_icmp_checksum : icmpChecksum exCfg 0x00FF = 0x6A36 ∧ icmpChecksum exCfg 0x0100 = 0x6A35 ∧
    icmpChecksum exCfg 0x6B35 = 0 ∧ icmpChecksum exCfg 0xFFFF = 0x6B35 := by decide
/-- R121: the all-ones and all-zero words are skipped, the device ID is the high half. -/
theorem test_match : isMatch exCfg 0x153A8086 = true ∧ isMatch exCfg 0x8086153A = false ∧
    isMatch exCfg 0xFFFFFFFF = false ∧ isMatch exCfg 0 = false ∧ isMatch exCfg 0x12348086 = false := by decide

/-! ## One step of each operation -/

/-- V41.3, command word as in P2. -/
theorem test_findDevice_found :
    (after (exec .findDevice (withCfgReads
      [0xFFFFFFFF, 0xFFFFFFFF, 0xFFFFFFFF, 0x100E8086, 3, 0xFEBC000C]))).response = some ⟨false, true, 0xFEBC0000⟩ ∧
    (after (exec .findDevice (withCfgReads
      [0xFFFFFFFF, 0xFFFFFFFF, 0xFFFFFFFF, 0x100E8086, 3, 0xFEBC000C]))).pciCommand = 7 := by decide

set_option maxRecDepth 8000 in
/-- V41.1. -/
theorem test_findDevice_absent :
    (after (exec .findDevice (withCfgReads (List.replicate 256 0xFFFFFFFF)))).response = some ⟨false, false, 0⟩ := by
  decide

set_option maxRecDepth 8000 in
/-- V42.9: RX descriptor 3 and TX descriptor 3 after `INIT`, each as its two 8-byte halves. -/
theorem test_init_descriptors :
    (fun m : Memory => (m.readLE 8 0x00101030, m.readLE 8 0x00101038, m.readLE 8 0x00100030, m.readLE 8 0x00100038))
      (after (exec .init exState)).mem = (0x121800, 0, 0x111800, 0x0000000100000000) := by decide

set_option maxRecDepth 8000 in
/-- V42.8 and R174: the control register keeps the bits read; the RX tail is 7. -/
theorem test_init_registers :
    (fun t : State => (t.nic.regs.ctrl, t.nic.regs.rdt, t.nic.regs.tctl, t.rxTail, t.phase))
      (after (exec .init (withBusReads [0x00000241]))) = (0x04000241, 7, 0x000400FA, 7, .ready) := by decide

set_option maxRecDepth 8000 in
/-- The controller's accesses for a TX slot whose frame has `n` bytes: it takes slot `i`, reads descriptor and frame, and
writes the status byte. -/
def transmission (i : Slot) (n : Nat) (st : Byte) : List NicMove :=
  [.txFetch i] ++ List.replicate 16 (.txDescByte 0) ++ List.replicate n (.txFrameByte 0) ++ [.txStatus 0 st]

set_option maxRecDepth 8000 in
/-- V44.1: the controller takes slot 0, fetches descriptor and frame and sets the done bit before the first poll. -/
theorem test_sendEcho_done :
    (fun t : State => (t.response, t.txTail, t.mem.read 0x110024, t.mem.read 0x100008))
      (after (exec (.sendEcho 1) (withScript (List.replicate 192 [] ++ [transmission 0 98 1])))) =
    (some ⟨false, true, 0⟩, 1, 0x6B, 0x62) := by decide

set_option maxRecDepth 8000 in
/-- V44.6 with a silent controller: slot 7, the tail wraps to 0, and the timeout is emitted last. -/
theorem test_sendEcho_timeout :
    (fun t : State => (t.response, t.txTail, t.nic.regs.tdt, t.events.head?))
      (after (exec (.sendEcho 1) { exState with txTail := 7 })) =
    (some ⟨false, false, 7⟩, 0, 0, some (.emit [0x74, 0x78])) := by decide

/-- R66: where no function exists every read answers all-ones, whatever would be drawn, and discovery fails. -/
theorem test_cfgRead_absent :
    (({ withCfgReads [0x100E8086] with
        env := { exState.env with functions := .listed [], cfgReads := [0x100E8086] } }).cfgRead 0 0 0).1 = 0xFFFFFFFF ∧
    ((withCfgReads [0x100E8086]).cfgRead 0 0 0).1 = 0x100E8086 := by decide

/-- R85, R88: from head 0 a tail of 1 hands over slot 0 alone; a transmitter that is off takes nothing. -/
theorem test_tail_hands_over :
    allSlots.filter ((exNic.take exCfg exState.mem .tdt 1).txHolds) = [0] ∧
    (({ exState with nic := exNic.take exCfg exState.mem .tdt 1 }).txFetch 0).nic.txJobs = [⟨0, false, [], []⟩] ∧
    (({ exState with nic := (exNic.take exCfg exState.mem .tctl 0).take exCfg exState.mem .tdt 1 }).txFetch 0).nic.txJobs =
      [] := by decide

/-- Slot 0 is handed over: its descriptor gives address 0x110000, length 2 and the command byte `cmd`. -/
def withSent (cmd : Byte) : State :=
  { withCells [(0x100002, 0x11), (0x100008, 2), (0x10000B, cmd), (0x110000, 0xAA), (0x110001, 0xBB)] with
    nic := exNic.take exCfg exState.mem .tdt 1 }

/-- R48 (c), R88, R112: with the report asked for, descriptor and frame bytes are fetched and kept until the status write;
without, the frame is sent and no status write happens. -/
theorem test_transmission :
    (((transmission 0 2 1).dropLast.foldl State.nicMove (withSent 8)).nic.txJobs.map TxJob.frame) = [[0xAA, 0xBB]] ∧
    ((transmission 0 2 1).foldl State.nicMove (withSent 8)).mem.read 0x10000C = 1 ∧
    ((transmission 0 1 1).foldl State.nicMove (withSent 8)).mem.read 0x10000C = 0 ∧
    (fun t : State => (t.mem.read 0x10000C, t.nic.txJobs))
      ((transmission 0 2 1 ++ [NicMove.txSent 0]).foldl State.nicMove (withSent 2)) = (0, []) := by decide

/-- R91: a reset that ends late may overwrite the write of `REG_RCTL` and keep that of `REG_TCTL`. -/
theorem test_reset_ends_late :
    (fun n : Nic => (n.resetPending, n.rxOn, n.txOn, n.txHead))
      (((exNic.startReset.take exCfg exState.mem .rctl 2).take exCfg exState.mem .tctl 2).resetEnds true false true 0) =
    (false, false, true, none) := by decide

/-- Slot 7 is marked as already sent (R171). -/
def sentSeven : State := withCells [(0x10007C, 1)]

/-- R88, R172: out of a completed reset the controller takes no slot before the tail register is written, and none after
head and tail are both written with 0 and slot 7 is marked as sent (R171), whether its transmitter runs or not. -/
theorem test_reset_hands_nothing_over :
    (([.txStart, .txFetch 0] : List NicMove).foldl State.nicMove
      { exState with nic := exNic.startReset.resetEnds false false true 0 }).nic.txJobs = [] ∧
    (([.txStart, .txFetch 0] : List NicMove).foldl State.nicMove
      { sentSeven with
        nic := ((exNic.startReset.resetEnds false false true 0).take exCfg sentSeven.mem .tdh 0).take exCfg sentSeven.mem
          .tdt 0 }).nic.txJobs = [] := by decide

set_option maxRecDepth 8000 in
/-- R88, R205 item 1: a completed reset and a head register written with the slot the coming send moves the tail to leave
no slot held, and the send may succeed all the same: the controller may read the ring as full. -/
theorem test_sendEcho_onto_head :
    (after (exec (.sendEcho 1)
      { withScript (List.replicate 192 [] ++ [[.txStart] ++ [1, 2, 3, 4, 5, 6, 7, 0].map NicMove.txFetch ++
          List.replicate 16 (.txDescByte 7) ++ List.replicate 98 (.txFrameByte 7) ++ [.txStatus 7 1]]) with
        nic := (exNic.startReset.resetEnds false false true 0).take exCfg exState.mem .tdh 1 })).response =
    some ⟨false, true, 0⟩ := by decide

/-- R262: the tail that comes to stand on a head that has not moved may have filled the ring; after a device reset the
head and the tail that `INIT` writes leave it empty (R172). -/
theorem test_tail_full_lap :
    allSlots.filter ((((exNic.take exCfg exState.mem .tdt 7).take exCfg exState.mem .tdt 0)).txHolds) = allSlots ∧
    allSlots.filter ((exNic.startReset.resetEnds false false false 0 |>.take exCfg sentSeven.mem .tdh 0
      |>.take exCfg sentSeven.mem .tdt 0).txHolds) = [] := by
  decide

/-- R89: bytes, then the length, then the status byte; a length or a done bit too early is no access of the controller,
and the frame that waited longest comes first. -/
theorem test_reception :
    ((reception 0 2 1).foldl State.nicMove (withArrived [[0xAA, 0xBB], [7]])).mem.cells =
      [(0x101008, 2), (0x10100C, 1), (0x120000, 0xAA), (0x120001, 0xBB)] ∧
    (([.rxTake 0, .rxData 0, .rxLen 0, .rxStatus 0 1] : List NicMove).foldl State.nicMove
      (withArrived [[7, 8]])).mem.cells = [(0x120000, 7)] := by decide

/-- R48 (c), (d): frames wait in the order they came, and taking a slot moves the head on. -/
theorem test_arrival :
    (fun t : State => (t.nic.rxWaiting, t.nic.rxHead))
      (([.rxArrive [1], .rxArrive [2], .rxArrive [], .rxTake 0] : List NicMove).foldl State.nicMove exState) =
    ([[2]], some 1) := by decide

/-- A controller that has taken a slot and fetched a descriptor of length 0 that asks for the report. -/
def withTaken (i : Slot) (cs : List Host.Cell) : State :=
  { withCells cs with nic := { exNic with txJobs := [⟨i, false, List.replicate 11 0 ++ [8, 0, 0, 0, 0], []⟩] } }

/-- V44.3 and U13: before the done bit other bits of a taken slot's status byte may stand, and a done bit stays. -/
theorem test_status_other_bits :
    (fun t : State => (t.mem.cells, t.nic.txJobs.map TxJob.slot)) ((withTaken 3 []).nicMove (.txStatus 0 0xFE)) =
      ([(0x10003C, 0xFE)], [3]) ∧
    ((withTaken 3 [(0x10003C, 1)]).nicMove (.txStatus 0 0xFE)).mem.cells = [(0x10003C, 1)] := by decide

/-- R86: without bus-master-enable the controller receives nothing. -/
theorem test_no_bus_master :
    ((reception 0 1 1).foldl State.nicMove { withArrived [[0xAA]] with pciCommand := 2 }).mem.cells = [] := by decide

/-- V45.2. -/
theorem test_checkReply_match :
    (fun t : State => (t.response, t.rxTail, t.nic.regs.rdt, t.mem.cells))
      (after (exec .checkReply (withFrame 0x03 98 1 0))) =
    (some ⟨false, true, 0⟩, 0, 0, [(0x120017, 1)]) := by decide

/-- V45.4: length 34 is no match, and the slot is recycled. -/
theorem test_checkReply_length_34 :
    (fun t : State => (t.response, t.rxTail)) (after (exec .checkReply (withFrame 0x01 34 1 0))) =
    (some ⟨false, false, 0⟩, 0) := by decide

/-- V40.1, under the example base. -/
theorem test_readReg_draw :
    (fun t : State => (t.response, t.events)) (after (exec (.readReg 0) (withBusReads [0x00140240]))) =
    (some ⟨false, true, 0x00140240⟩, [.fence, .memRead 0xFEBC0000 4 0x00140240]) := by decide

/-- V40.2: the interrupt cause register is cleared by the read. -/
theorem test_readReg_icause :
    (fun t : State => (t.response, t.nic.icause))
      (after (exec (.readReg 0xC0) { exState with nic := { exState.nic with icause := 4 } })) =
    (some ⟨false, true, 4⟩, 0) := by decide

/-- V40.3. -/
theorem test_writeReg_tail :
    (fun t : State => (t.response, t.events, t.nic.regs.tdt)) (after (exec (.writeReg 0x3818 1) exState)) =
    (some ⟨false, true, 0⟩, [.fence, .memWrite 0xFEBC3818 4 1], 1) := by decide

/-- R254 (a): with `s.base = 0` the write goes to ordinary memory where some lies there. -/
theorem test_writeReg_ram :
    (after (exec (.writeReg 0x110000 0x11223344) { exState with base := 0 })).mem.cells =
    [(0x110000, 0x44), (0x110001, 0x33), (0x110002, 0x22), (0x110003, 0x11)] := by decide

/-- V40.6. -/
theorem test_delay : (after (exec (.delay 3) exState)).events = [.spin 3] := by decide
/-- V40.5. -/
theorem test_delay_zero : (after (exec (.delay 0) exState)).events = [] := by decide
/-- V40.7. -/
theorem test_fence : (fun t : State => (t.response, t.events)) (after (exec .fence exState)) =
    (some ⟨false, true, 0⟩, [.fence]) := by decide

/-- V43.35: three bytes, odd length. -/
theorem test_checksum_odd :
    (after (exec (.checksum 12 3) (withCells [(0x11000C, 0x08), (0x11000E, 0x45)]))).response =
    some ⟨false, true, 0xB2FF⟩ := by decide
/-- V43.37. -/
theorem test_checksum_refused : (after (exec (.checksum 2047 2) exState)).response = some ⟨true, false, 0⟩ := by decide

set_option maxRecDepth 8000 in
/-- V43.20 and R187 item 6: bytes 24, 25, 36, 37 and 40, 41 of the built frame. -/
theorem test_buildFrame :
    (fun m : Memory => (m.read 0x110018, m.read 0x110019, m.read 0x110024, m.read 0x110025, m.read 0x110028,
      m.read 0x110029)) (after (exec (.buildFrame 1) exState)).mem = (0x62, 0x98, 0x6B, 0x34, 0x00, 0x01) := by decide

/-! ## Witnesses: a concrete state and operands that meet the hypotheses of each statement together -/

/-- Memory in which every descriptor of both rings addresses its buffer slot. -/
def ringMemory : Memory :=
  allSlots.foldl (fun m i => (m.writeLE 8 (txDesc exCfg i) (txBuf exCfg i)).writeLE 8 (rxDesc exCfg i) (rxBuf exCfg i))
    exState.mem

/-- A controller that ends a device reset whenever one is in progress. -/
def resetsAtOnce : State :=
  { exState with env := { exState.env with script := List.replicate 12 [.resetDone false false false 0], busReads := [0x241] } }

theorem isNext_of {o : Host.Outcome State Fault Refusal} (h : isNext o = true) : ∃ t, o = .next t := by
  cases o with
  | next t => exact ⟨t, rfl⟩
  | fault f => cases h
  | refused r => cases h

theorem witness_EveryStepKeepsInvariant :
    (withCaller [⟨0x13000000, 0, 0⟩]).Inv ∧ ∃ t, step (withCaller [⟨0x13000000, 0, 0⟩]) = .next t :=
  ⟨by decide, _, rfl⟩
/-- A state whose base, cursors and memory are not zero. -/
theorem witness_EveryStepKeepsInvariant_busy :
    ({ withFrame 3 98 1 0 with caller := [⟨0x04000000, 0, 0⟩], events := [.fence, .memWrite 8 4 1] }).Inv := by decide
theorem witness_IdleStepOnlyWaits : exState.caller = [] := rfl
theorem witness_StepRunsDecodedCommand :
    (withCaller [⟨0x12000000, 3, 0⟩, ⟨0, 0, 0⟩]).caller = ⟨0x12000000, 3, 0⟩ :: [⟨0, 0, 0⟩] ∧
    decode ⟨0x12000000, 3, 0⟩ = .ok (.delay 3) := by decide
theorem witness_PresentedWordRunsNext : decodeTableWord 96 0x000000140000000E18000000 = some (.checksum 14 20) := by
  decide
theorem witness_IllegalCommandIsRefused_op : (0x14000000 : Word).toNat / 2 ^ 24 ∉
    [0x01, 0x02, 0x03, 0x04, 0x10, 0x11, 0x12, 0x13, 0x18, 0x19] := by decide
theorem witness_IllegalCommandIsRefused_rsvd : (0x13010000 : Word).toNat / 2 ^ 16 % 256 ≠ 0 := by decide
theorem witness_IllegalCommandIsRefused_imm : (0x04000001 : Word).toNat % 2 ^ 16 ≠ 0 ∧
    (0x04000001 : Word).toNat / 2 ^ 24 ≠ 0x03 ∧ (0x04000001 : Word).toNat / 2 ^ 24 ≠ 0x19 := by decide
theorem witness_IllegalCommandIsRefused_range :
    (withCaller [⟨0x18000000, 2048, 1⟩]).caller = ⟨0x18000000, 2048, 1⟩ :: [] ∧
    (0x18000000 : Word).toNat / 2 ^ 24 = 0x18 ∧ (2048 : Word).toNat + (1 : Word).toNat > 2048 := by decide
theorem witness_NoFaultAndOnlyMisalignedRefused :
    step (withCaller [⟨0x10000000, 2, 0⟩]) = .refused .misalignedRegisterOffset ∧
    step (withCaller [⟨0x11000000, 0xFFFFFFFF, 0⟩]) = .refused .misalignedRegisterOffset := ⟨rfl, rfl⟩
theorem witness_EveryWellFormedCommandCompletes :
    (Instr.readReg 0xFFFFFFFC).wf = true ∧ (Instr.writeReg 0 0).wf = true ∧ (Instr.checksum 2048 0).wf = true ∧
    Instr.findDevice.wf = true ∧ Instr.init.wf = true ∧ (Instr.sendEcho 0).wf = true ∧ Instr.checkReply.wf = true ∧
    (Instr.delay 0xFFFFFFFF).wf = true ∧ Instr.fence.wf = true ∧ (Instr.buildFrame 0xFFFF).wf = true := by decide
theorem witness_OnlyTheirWritersChangeRegisters : ∃ t, exec (.writeReg 0x3818 1) exState = .next t ∧
    t.nic.regs ≠ exState.nic.regs := ⟨_, rfl, by decide⟩
theorem witness_OnlyTheirWritersChangeRegisters_base :
    ∃ t, exec .findDevice (withCfgReads [0x100E8086, 3, 0xFEBC000C]) = .next t ∧
    t.base ≠ (withCfgReads [0x100E8086, 3, 0xFEBC000C]).base ∧
    t.pciCommand ≠ (withCfgReads [0x100E8086, 3, 0xFEBC000C]).pciCommand := ⟨_, rfl, by decide⟩
theorem witness_OnlyTheirWritersChangeRegisters_phase :
    ∃ t, exec .init exState = .next t ∧ t.phase ≠ exState.phase := ⟨_, rfl, by decide⟩
theorem witness_OnlyTheirWritersChangeRegisters_rxTail :
    ∃ t, exec .checkReply (withFrame 3 98 1 0) = .next t ∧ t.rxTail ≠ (withFrame 3 98 1 0).rxTail :=
  ⟨_, rfl, by decide⟩
theorem witness_OnlyTheirWritersChangeRegisters_txTail :
    ∃ t, exec (.sendEcho 1) exState = .next t := ⟨_, rfl⟩
theorem witness_HistoryOnlyGrows : ∃ t, step (withCaller [⟨0x01000001, 0, 0⟩]) = .next t := ⟨_, rfl⟩
theorem witness_DecodeAndEncodeAgree : decode ⟨0x03000000, 5, 6⟩ = .ok (.sendEcho 0) ∧
    decode ⟨0x10000000, 0xFFFFFFFC, 6⟩ = .ok (.readReg 0xFFFFFFFC) := by decide
theorem witness_CommandWordSelectsItsRow : decode ⟨0x1900FFFF, 0, 0⟩ = .ok (.buildFrame 0xFFFF) ∧
    (0x1900FFFF : Word) &&& (Instr.buildFrame 0).rowMask = (Instr.buildFrame 0).rowMatch := by decide
theorem witness_ReadRegReadsOnceAndFences : (0xFFFFFFFC : Word).toNat % 4 = 0 := by decide
theorem witness_ReadRegAnswersTheDraw : (withBusReads [5, 6]).cfg.WF ∧
    (withBusReads [5, 6]).cfg.windowClear (withBusReads [5, 6]).base ∧ Reg.status ≠ Reg.icause ∧
    (withBusReads [5, 6]).env.busReads = 5 :: [6] := by decide
theorem witness_InterruptCauseIsReadToClear :
    exState.cfg.WF ∧ exState.cfg.windowClear exState.base ∧ exState.base ≠ 0 ∧ exState.BusEnabled ∧ exState.Quiet := by
  decide
theorem witness_MisalignedRegisterAccessIsRefused :
    (1 : Word).toNat % 4 ≠ 0 ∧ (0xFFFFFFFF : Word).toNat % 4 ≠ 0 := by decide
theorem witness_WriteRegWritesOnceAndFences_named :
    (0x3818 : Word).toNat % 4 = 0 ∧ exState.cfg.regAt 0x3818 = some .tdt := by decide
theorem witness_WriteRegWritesOnceAndFences_unnamed :
    (0xFFFFFFFC : Word).toNat % 4 = 0 ∧ exState.cfg.regAt 0xFFFFFFFC = none := by decide
/-- The last four bytes of the TX buffer pool, which the controller never writes. -/
theorem witness_WriteRegWritesOnceAndFences_ram : (0x113FFC : Word).toNat % 4 = 0 ∧
    exState.cfg.inRam (regAddr 0 0x113FFC + BitVec.ofNat 64 3).toNat ∧ { exState with base := 0 }.Quiet := by decide
theorem witness_NamedRegisterKeepsLastWrite : exState.cfg.WF ∧ Reg.macfHi ≠ Reg.ctrl := by decide
theorem witness_RegisterWritesReachTheController :
    exState.cfg.WF ∧ exState.cfg.windowClear exState.base ∧ exState.base ≠ 0 ∧ exState.BusEnabled ∧ exState.Quiet ∧
    (7 : Word).toNat < 8 ∧ exState.nic.txHead = some 0 ∧ (0 : Slot) ≠ slotOf 7 := by decide
theorem witness_DelayOnlySpins : ∃ t, exec (.delay 0) exState = .next t ∧ (0 : Word) = 0 := ⟨_, rfl, rfl⟩
theorem idAnswers_replicate (e : Env) (n : Nat) (x : Word) (hx : x ∈ idAnswers e (List.replicate n 0)) :
    x = 0 ∨ x = 0xFFFFFFFF := by
  obtain ⟨p, hp, rfl⟩ := List.mem_map.1 hx
  have h0 : p.1 = 0 := List.eq_of_mem_replicate (List.fst_mem_of_mem_zipIdx hp)
  rw [h0]
  split_ifs
  · exact Or.inl rfl
  · exact Or.inr rfl

theorem no_match_zeros (e : Env) (n : Nat) : ∀ x ∈ idAnswers e (List.replicate n 0), isMatch exCfg x = false := by
  intro x hx
  rcases idAnswers_replicate e n x hx with rfl | rfl <;> decide

theorem witness_FindDeviceTakesFirstMatch_none :
    (withCfgReads (List.replicate 256 0)).env.cfgReads = List.replicate 256 0 ++ [] ∧
    (List.replicate 256 (0 : Word)).length = 256 ∧
    ∀ x ∈ idAnswers (withCfgReads (List.replicate 256 0)).env (List.replicate 256 0),
      isMatch (withCfgReads (List.replicate 256 0)).cfg x = false :=
  ⟨(List.append_nil _).symm, List.length_replicate, no_match_zeros _ _⟩
/-- The last function of the scan, bus 7 slot 31 (V41.7). -/
theorem witness_FindDeviceTakesFirstMatch_last :
    (withCfgReads (List.replicate 255 0 ++ [0x153A8086, 3, 0xE0000008])).env.cfgReads =
      List.replicate 255 0 ++ 0x153A8086 :: 3 :: 0xE0000008 :: [] ∧ (List.replicate 255 (0 : Word)).length < 256 ∧
    (∀ x ∈ idAnswers exState.env (List.replicate 255 0), isMatch exCfg x = false) ∧
    exState.env.present 7 31 = true ∧ isMatch exCfg 0x153A8086 = true :=
  ⟨rfl, by rw [List.length_replicate]; decide, no_match_zeros _ _, by decide, by decide⟩
/-- The first function of the scan. -/
theorem witness_FindDeviceTakesFirstMatch_first :
    (withCfgReads [0x10EA8086, 0, 0]).env.cfgReads = [] ++ 0x10EA8086 :: 0 :: 0 :: [] ∧
    (withCfgReads [0x10EA8086, 0, 0]).env.present 0 0 = true ∧
    isMatch (withCfgReads [0x10EA8086, 0, 0]).cfg 0x10EA8086 = true := by decide
/-- `FIND_DEVICE` can fail and can succeed. -/
theorem witness_FindDeviceFrame : (exState.scan []).1 = false ∧
    ((withCfgReads [0x10EA8086, 0, 0xFFFFFFFF]).scan [(0, 0)]).1 = true := by decide
theorem witness_InitLeavesReadySession : exState.cfg.windowClear exState.base := by decide
/-- A controller that runs its transmitter unasked and tries for slot 0 before each early event, and ends the reset at the first
chance after it has begun. -/
def grabsTxSlots : State :=
  { resetsAtOnce with
    env := { resetsAtOnce.env with
      script := List.replicate 12 [.resetDone true false true 0, .txStart, .txFetch 0] } }
set_option maxRecDepth 8000 in
theorem witness_InitLeavesReadySession_reset :
    grabsTxSlots.cfg.WF ∧ grabsTxSlots.cfg.windowClear grabsTxSlots.base ∧ grabsTxSlots.base ≠ 0 ∧
    grabsTxSlots.BusEnabled ∧ ResetCompletes grabsTxSlots := by decide
theorem witness_InitProgramsTheController : (withBusReads [0x241]).cfg.WF ∧
    (0x241 : Word) = ((withBusReads [0x241]).initStep1.initStep2.readNamed .ctrl).1 := by decide
theorem witness_InitWritesTxDescriptors :
    exState.cfg.WF ∧ exState.cfg.windowClear exState.base ∧ exState.Quiet := by decide
theorem witness_InitZeroesRxDescriptors :
    exState.cfg.WF ∧ exState.cfg.windowClear exState.base ∧ exState.Quiet := by decide
theorem witness_RxRingUntouchedUntilEnabled :
    resetsAtOnce.cfg.WF ∧ resetsAtOnce.cfg.windowClear resetsAtOnce.base ∧ resetsAtOnce.base ≠ 0 ∧
    resetsAtOnce.BusEnabled ∧ ResetCompletes resetsAtOnce := by decide
/-- The premise is not always met: a silent controller never ends its reset. -/
theorem witness_RxRingUntouchedUntilEnabled_premise : ¬ ResetCompletes (withBusReads [0x241]) := by decide
set_option maxRecDepth 4000 in
theorem witness_EveryInstructionKeepsRingAddresses :
    { exState with mem := ringMemory }.RingsAddressed ∧ exState.cfg.WF ∧ exState.cfg.windowClear exState.base := by
  decide
theorem witness_EveryInstructionKeepsRingAddresses_spares : sparesRam exState (.writeReg 0x3818 1) := by
  unfold sparesRam
  decide
theorem witness_EveryInstructionKeepsRingAddresses_runs :
    ∃ t, exec (.writeReg 0x3818 1) { exState with mem := ringMemory } = .next t := ⟨_, rfl⟩
theorem witness_TailRegistersFollowCursors : exState.cfg.WF ∧ exState.TailsCoherent ∧
    ∃ t, exec .checkReply exState = .next t := ⟨by decide, by decide, _, rfl⟩
/-- `INIT` makes the tails coherent where they were not. -/
theorem witness_TailRegistersFollowCursors_init : ¬ { exState with rxTail := 3 }.TailsCoherent ∧
    ∃ t, exec .init { exState with rxTail := 3 } = .next t := ⟨by decide, _, rfl⟩
theorem witness_TailRegistersFollowCursors_spares : sparesTails exState.cfg (.writeReg 0x3810 1) := by
  unfold sparesTails
  decide
theorem witness_ChecksumOfSlotRange : exState.cfg.WF ∧ (2048 : Word).toNat + (1 : Word).toNat > 2048 ∧
    (2047 : Word).toNat + (1 : Word).toNat ≤ 2048 ∧ (2048 : Word).toNat + (0 : Word).toNat ≤ 2048 := by decide
theorem witness_ChecksumAccumulatorIsExact : (List.replicate 2048 (0xFF : Byte)).length ≤ 2048 :=
  List.length_replicate.le
theorem witness_ChecksumValidationIdentity :
    ([0x45, 0x00] : List Byte).length % 2 = 0 ∧ ([0x45, 0x00] : List Byte).length + 2 + ([7] : List Byte).length ≤ 2048 :=
  by decide
theorem witness_FrameLayoutIsFixed : 0 < 56 ∧ 55 < 56 := by decide
theorem witness_BuildFrameLeavesFinishedFrame : exState.cfg.WF := by decide
theorem witness_SendEchoBuildsAndPublishes :
    exState.cfg.WF ∧ exState.cfg.windowClear exState.base ∧ (7 : Slot) = slotOf 7 ∧ (0 : Slot) = slotOf 0 := by decide
theorem witness_SendEchoPollsUntilDone : (7 : Slot) = slotOf 7 ∧ (0 : Slot) = slotOf 0 := by decide
theorem witness_SendEchoPublishesAfterFence : (7 : Slot) = slotOf 7 ∧ (0 : Slot) = slotOf 0 := by decide
theorem witness_SendEchoTimesOutWhenSilent :
    exState.cfg.WF ∧ exState.cfg.windowClear exState.base ∧ exState.Quiet := by decide
theorem witness_SendEchoMaySucceedOrTimeOut :
    exState.cfg.WF ∧ exState.cfg.windowClear exState.base ∧ exState.BusEnabled := by decide
theorem witness_CursorCountsSendsModuloRing : exState.cfg.WF ∧ exState.txTail = 0 := by decide
theorem witness_CheckReplyFindsNothing : (1 : Slot) = nextSlot (slotOf exState.rxTail) ∧
    rxDone exState.cfg exState.nicTurn.mem 1 = false := by decide
/-- Bits other than bit 0 do not count (V45.11). -/
theorem witness_CheckReplyFindsNothing_other_bits :
    rxDone (withFrame 0xFE 98 1 0).cfg (withFrame 0xFE 98 1 0).nicTurn.mem 0 = false := by decide
theorem witness_CheckReplyConsumesOneFrame : (withFrame 1 35 1 0).cfg.WF ∧
    (withFrame 1 35 1 0).cfg.windowClear (withFrame 1 35 1 0).base ∧
    (0 : Slot) = nextSlot (slotOf (withFrame 1 35 1 0).rxTail) ∧
    rxDone (withFrame 1 35 1 0).cfg (withFrame 1 35 1 0).nicTurn.mem 0 = true ∧
    (35 : Half) = ((withFrame 1 35 1 0).nicTurn.mem.readLE 2 (rxDesc exCfg 0 + rxdLen)).setWidth 16 ∧
    (1 : Byte) = (withFrame 1 35 1 0).nicTurn.mem.read (rxBuf exCfg 0 + 23).toNat ∧
    (0 : Byte) = (withFrame 1 35 1 0).nicTurn.mem.read (rxBuf exCfg 0 + 34).toNat := by decide
theorem witness_CheckReplyClearsConsumedSlot : (withFrame 1 34 0 8).cfg.WF ∧
    (withFrame 1 34 0 8).cfg.windowClear (withFrame 1 34 0 8).base ∧ (withFrame 1 34 0 8).Quiet ∧
    (0 : Slot) = nextSlot (slotOf (withFrame 1 34 0 8).rxTail) ∧
    rxDone (withFrame 1 34 0 8).cfg (withFrame 1 34 0 8).mem 0 = true := by decide
theorem witness_CheckReplyAdvancesAtMostOne : exState.cfg.WF := by decide
theorem witness_MemoryReadsBackLittleEndian : 0 ≤ 8 ∧ 8 ≤ 8 ∧ ¬ isByteOf 0xFFFFFFFFFFFFFFFC 8 4 := by decide
theorem witness_ControllerNeverDoes : (withFrame 1 35 1 0).cfg.WF ∧
    rxDone (withFrame 1 35 1 0).cfg (withFrame 1 35 1 0).mem 0 = true ∧ isByteOf (rxDesc exCfg 0) 16 0x10100F ∧
    exCfg.txBufRegion.has 0x113FFF ∧ ¬ exCfg.inRam 0x114000 := by decide
/-- The controller does write an RX slot whose done bit is 0. -/
theorem witness_ControllerNeverDoes_move :
    (((withArrived [[7]]).nicMove (.rxTake 0)).nicMove (.rxData 0)).mem.cells = [(0x120000, 7)] := by decide
theorem witness_ReceptionDeliversFrame : 1 ≤ ([0xAA] : List Byte).length ∧ ([0xAA] : List Byte).length ≤ 2048 ∧
    exState.nic.receives = true ∧ (withArrived [[0xAA], [7]]).cfg.WF ∧ (withArrived [[0xAA], [7]]).rxOpen 7 = true ∧
    (withArrived [[0xAA], [7]]).nic.rxWaiting = [0xAA] :: [[7]] ∧ doneBit 0xFF = true := by decide
/-- The longest frame. -/
theorem witness_ReceptionDeliversFrame_longest : (List.replicate 2048 (0 : Byte)).length ≤ 2048 :=
  List.length_replicate.le
theorem witness_BuildFrameEventCounts : exState.cfg.WF := by decide
theorem witness_SlotsAreGivenBackOnCompletion_rx :
    rxDone exCfg exState.mem 0 = false ∧
    rxDone exCfg ({ exState with nic := exNic.putRxJob ⟨0, [1, 2], 2, true⟩ }.nicMove (.rxStatus 0 1)).mem 0 = true := by decide
theorem witness_SlotsAreGivenBackOnCompletion_tx :
    txDone exCfg exState.mem 3 = false ∧
    txDone exCfg ((withTaken 3 []).nicMove (.txStatus 0 1)).mem 3 = true := by decide
theorem witness_SlotsAreGivenBackOnCompletion_fetch :
    (∀ j ∈ (withSent 8).nic.txJobs, j.slot ≠ 0) ∧ ∃ j ∈ ((withSent 8).nicMove (.txFetch 0)).nic.txJobs, j.slot = 0 :=
  by decide
theorem witness_BusEnablesGateTheController_master : { exState with pciCommand := 2 }.mastersBus = false := by decide
theorem witness_BusEnablesGateTheController_memory :
    exState.cfg.WF ∧ exState.Quiet ∧ { exState with pciCommand := 4 }.decodesMemory = false := by decide

end Sys2Proof.Tests
end

section
/-! PROOF. What a single access of the controller may store, and with it what no access ever does (R90). -/

namespace Sys2Proof.Machine

/-! ### The bytes of an RX slot and the TX status bytes (R75) -/

/-- An address is a byte of RX slot `i`: of its descriptor or of its buffer. -/
abbrev isRxSlotByte (c : Cfg) (i : Slot) (a : Nat) : Prop := isByteOf (rxDesc c i) 16 a ∨ isByteOf (rxBuf c i) 2048 a

/-- The bytes of an RX slot, as natural numbers. -/
theorem isRxSlotByte_cases {c : Cfg} (h : c.WF) {i : Slot} {a : Nat} (ha : isRxSlotByte c i a) :
    (∃ k, k < 16 ∧ a = c.rxDescBase.toNat + 16 * i.val + k) ∨
    (∃ k, k < 2048 ∧ a = c.rxBufBase.toNat + 2048 * i.val + k) := by
  rcases ha with ⟨k, rfl⟩ | ⟨k, rfl⟩
  · exact Or.inl ⟨k, k.isLt, rxDesc_byte h i k.isLt⟩
  · exact Or.inr ⟨k, k.isLt, rxBuf_byte h i k.isLt⟩

theorem isRxSlotByte_rxStatus (c : Cfg) (i : Slot) : isRxSlotByte c i (rxDesc c i + rxdStatus).toNat :=
  Or.inl ⟨12, rfl⟩

/-- No byte belongs to two RX slots. -/
theorem slot_eq_of_isRxSlotByte {c : Cfg} (h : c.WF) {i j : Slot} {a : Nat} (hi : isRxSlotByte c i a)
    (hj : isRxSlotByte c j a) : i = j := by
  obtain ⟨_, _, _, _, apart, _⟩ := regions_apart h
  simp only [Region.disjoint, Cfg.rxDescRegion, Cfg.rxBufRegion] at apart
  have hi := isRxSlotByte_cases h hi
  have hj := isRxSlotByte_cases h hj
  clear h
  apply Fin.ext
  rcases hi with ⟨k, _, e⟩ | ⟨k, _, e⟩ <;> rcases hj with ⟨k', _, e'⟩ | ⟨k', _, e'⟩ <;> omega

theorem txStatus_toNat {c : Cfg} (h : c.WF) (i : Slot) :
    (txDesc c i + txdStatus).toNat = c.txDescBase.toNat + 16 * i.val + 12 := txDesc_byte h i (k := 12) (by decide)

/-- Two TX slots have different status bytes. -/
theorem slot_eq_of_txStatus {c : Cfg} (h : c.WF) {i j : Slot}
    (e : (txDesc c i + txdStatus).toNat = (txDesc c j + txdStatus).toNat) : i = j := by
  rw [txStatus_toNat h, txStatus_toNat h] at e
  exact Fin.ext (by omega)

/-- No TX status byte lies in an RX slot. -/
theorem not_isRxSlotByte_txStatus {c : Cfg} (h : c.WF) (i j : Slot) :
    ¬ isRxSlotByte c i (txDesc c j + txdStatus).toNat := by
  intro hb
  obtain ⟨desc, _, buf, _, _, _⟩ := regions_apart h
  simp only [Region.disjoint, Cfg.txDescRegion, Cfg.rxDescRegion, Cfg.rxBufRegion] at desc buf
  have hc := isRxSlotByte_cases h hb
  rw [txStatus_toNat h] at hc
  clear h hb
  rcases hc with ⟨k, _, e⟩ | ⟨k, _, e⟩ <;> omega

/-- Every byte of the TX buffer pool is a byte of one slot's buffer. -/
theorem exists_txBuf_byte {c : Cfg} (h : c.WF) {a : Nat} (ha : c.txBufRegion.has a) :
    ∃ i : Slot, ∃ k, k < 2048 ∧ a = (txBuf c i + BitVec.ofNat 64 k).toNat := by
  obtain ⟨lo, hi⟩ := ha
  simp only [Cfg.txBufRegion] at lo hi
  have hk : (a - c.txBufBase.toNat) % 2048 < 2048 := Nat.mod_lt _ (by decide)
  refine ⟨⟨(a - c.txBufBase.toNat) / 2048, by omega⟩, _, hk, ?_⟩
  rw [txBuf_byte h _ hk]
  show a = c.txBufBase.toNat + 2048 * ((a - c.txBufBase.toNat) / 2048) + (a - c.txBufBase.toNat) % 2048
  omega

/-- The controller may write no byte of the TX buffer pool (R90). -/
theorem not_nicMay_of_txBufRegion {c : Cfg} (h : c.WF) {a : Nat} (ha : c.txBufRegion.has a) : ¬ nicMay c a := by
  obtain ⟨i, k, hk, rfl⟩ := exists_txBuf_byte h ha
  exact not_nicMay_txBuf h i hk

/-- What the controller may write lies in the four regions (R90). -/
theorem inRam_of_nicMay {c : Cfg} (h : c.WF) {a : Nat} (ha : nicMay c a) : c.inRam a := by
  rcases nicMay_cases h ha with ⟨i, k, hk, e⟩ | ⟨i, k, _, hk, e⟩ | ⟨i, e⟩
  · refine ⟨c.rxBufRegion, by simp [Cfg.regions], ?_⟩
    simp only [Region.has, Cfg.rxBufRegion]
    omega
  · refine ⟨c.rxDescRegion, by simp [Cfg.regions], ?_⟩
    simp only [Region.has, Cfg.rxDescRegion]
    omega
  · refine ⟨c.txDescRegion, by simp [Cfg.regions], ?_⟩
    simp only [Region.has, Cfg.txDescRegion]
    omega

/-! ### Reading and writing a run of bytes -/

/-- A wider read depends on its own bytes only. -/
theorem Memory.readLE_congr {m m' : Memory} (n : Nat) (a : Addr)
    (h : ∀ k, k < n → m'.read (a + BitVec.ofNat 64 k).toNat = m.read (a + BitVec.ofNat 64 k).toNat) :
    m'.readLE n a = m.readLE n a := by
  rw [← bytesLE_bytesAt, ← bytesLE_bytesAt]
  exact congrArg bytesLE (List.map_congr_left fun k hk => h k (List.mem_range.1 hk))

/-- A byte stored as a one-byte value is the byte read back. -/
theorem Memory.read_writeLE_byte (m : Memory) (a : Addr) (b : Byte) :
    (m.writeLE 1 a (b.setWidth 64)).read a.toNat = b := by
  simp [Memory.writeLE]

/-! ### One access of the controller as one store -/

/-- The memories a single access of the controller can leave, with what the contract asks for before it stores (R86 to
R90). -/
inductive NicStores (s : State) : Memory → Prop where
  /-- It stores nothing. -/
  | nothing : NicStores s s.mem
  /-- It stores the status byte of TX slot `j`, and no done bit is cleared by it. -/
  | txStatus (j : Slot) (v : Byte) (master : s.mastersBus = true)
      (keepsDone : txDone s.cfg s.mem j = true → doneBit v = true) :
      NicStores s (s.mem.writeLE 1 (txDesc s.cfg j + txdStatus) (v.setWidth 64))
  /-- It stores bytes of the RX slot `i`, which it may write. -/
  | rxSlot (i : Slot) (n : Nat) (a : Addr) (v : BitVec 64) (isOpen : s.rxOpen i = true)
      (bytes : ∀ x, isByteOf a n x → isRxSlotByte s.cfg i x) : NicStores s (s.mem.writeLE n a v)

/-- A step with a taken TX slot that leaves memory alone. -/
theorem NicStores.of_txAdvance_mem (s : State) (k : Nat) (ok : TxJob → Bool) (next : TxJob → State)
    (h : ∀ j, (next j).mem = s.mem) : NicStores s (s.txAdvance k ok next).mem := by
  rcases s.txAdvance_cases k ok next with e | ⟨j, _, _, _, e⟩ <;> rw [e]
  · exact .nothing
  · rw [h]
    exact .nothing

/-- The status write of a taken TX slot (R88): with the done bit clear only over a clear done bit. -/
theorem NicStores.of_txStore (s : State) (k : Nat) (v : Byte) : NicStores s (s.txStore k v).mem := by
  unfold State.txStore
  rcases s.txAdvance_cases k _ _ with e | ⟨j, _, master, ok, e⟩ <;> rw [e]
  · exact .nothing
  · refine .txStatus j.slot v master fun done => ?_
    by_contra hv
    simp [hv, done] at ok

/-- A write for the frame on its way into RX slot `i` (R89). -/
theorem NicStores.of_rxStore (s : State) (i : Slot) (ok : RxJob → Bool) (next : RxJob → Nic) (a : RxJob → Addr)
    (n : Nat) (v : RxJob → BitVec 64) (h : ∀ j, ok j = true → ∀ x, isByteOf (a j) n x → isRxSlotByte s.cfg i x) :
    NicStores s (s.rxStore i ok next a n v).mem := by
  unfold State.rxStore
  split
  · rename_i j _
    split_ifs with hc
    · rw [Bool.and_eq_true] at hc
      exact .rxSlot i n (a j) (v j) hc.1 (h j hc.2)
    · exact .nothing
  · exact .nothing

/-- A write of a field of the RX descriptor of slot `i`. -/
theorem NicStores.of_rxStore_field (s : State) (i : Slot) (ok : RxJob → Bool) (next : RxJob → Nic) (off n : Nat)
    (v : RxJob → BitVec 64) (h : off + n ≤ 16) :
    NicStores s (s.rxStore i ok next (fun _ => rxDesc s.cfg i + BitVec.ofNat 64 off) n v).mem :=
  .of_rxStore s i ok next _ n v fun _ _ _ hx => Or.inl (isByteOf_offset hx h)

/-- What one access of the controller can store. -/
theorem State.nicMove_stores (s : State) (mv : NicMove) : NicStores s (s.nicMove mv).mem := by
  cases mv with
  | cause bits => exact .nothing
  | resetDone rxLost txLost ringsLost causes => exact .nothing
  | txStart => exact .nothing
  | txFetch i =>
    show NicStores s (s.txFetch i).mem
    unfold State.txFetch
    split_ifs <;> exact .nothing
  | txDescByte k => exact .of_txAdvance_mem s k _ _ fun _ => rfl
  | txFrameByte k => exact .of_txAdvance_mem s k _ _ fun _ => rfl
  | txSent k => exact .of_txAdvance_mem s k _ _ fun _ => rfl
  | txStatus k v => exact .of_txStore s k v
  | rxArrive frame =>
    show NicStores s (s.rxArrive frame).mem
    unfold State.rxArrive
    split_ifs <;> exact .nothing
  | rxDrop => exact .nothing
  | rxTake i =>
    show NicStores s (s.rxTake i).mem
    unfold State.rxTake
    split
    · split_ifs <;> exact .nothing
    · exact .nothing
  | rxData i =>
    refine .of_rxStore s i _ _ _ _ _ fun j ok x hx => ?_
    rw [Bool.and_eq_true, decide_eq_true_eq, decide_eq_true_eq] at ok
    exact Or.inr ⟨⟨j.count, ok.2⟩, isByteOf_one hx⟩
  | rxLen i => exact .of_rxStore_field s i _ _ 8 2 _ (by decide)
  | rxCsum i v => exact .of_rxStore_field s i _ _ 10 2 _ (by decide)
  | rxErrors i v => exact .of_rxStore_field s i _ _ 13 1 _ (by decide)
  | rxSpecial i v => exact .of_rxStore_field s i _ _ 14 2 _ (by decide)
  | rxStatus i v => exact .of_rxStore_field s i _ _ 12 1 _ (by decide)

theorem State.rxDone_of_rxOpen {s : State} {i : Slot} (h : s.rxOpen i = true) : rxDone s.cfg s.mem i = false := by
  simp only [State.rxOpen, Bool.and_eq_true, Bool.not_eq_true'] at h
  exact h.2

/-- Every byte of an RX slot whose done bit is 1 stands still (R90). -/
theorem NicStores.read_rxSlot {s : State} {m : Memory} (h : NicStores s m) (hwf : s.cfg.WF) {i : Slot}
    (done : rxDone s.cfg s.mem i = true) {a : Nat} (ha : isRxSlotByte s.cfg i a) : m.read a = s.mem.read a := by
  cases h with
  | nothing => rfl
  | txStatus j v _ _ =>
    refine Memory.read_writeLE_of_not_mem _ _ _ _ _ fun hb => ?_
    rw [isByteOf_one hb] at ha
    exact not_isRxSlotByte_txStatus hwf i j ha
  | rxSlot j n b v isOpen bytes =>
    refine Memory.read_writeLE_of_not_mem _ _ _ _ _ fun hb => ?_
    obtain rfl : i = j := slot_eq_of_isRxSlotByte hwf ha (bytes a hb)
    rw [State.rxDone_of_rxOpen isOpen] at done
    exact Bool.false_ne_true done

/-- No RX done bit is cleared (R90). -/
theorem NicStores.keeps_rxDone {s : State} {m : Memory} (h : NicStores s m) (hwf : s.cfg.WF) {i : Slot}
    (done : rxDone s.cfg s.mem i = true) : rxDone s.cfg m i = true :=
  (congrArg doneBit (h.read_rxSlot hwf done (isRxSlotByte_rxStatus s.cfg i))).trans done

/-- No TX done bit is cleared (R90). -/
theorem NicStores.keeps_txDone {s : State} {m : Memory} (h : NicStores s m) (hwf : s.cfg.WF) {i : Slot}
    (done : txDone s.cfg s.mem i = true) : txDone s.cfg m i = true := by
  cases h with
  | nothing => exact done
  | txStatus j v _ keepsDone =>
    by_cases hij : i = j
    · subst hij
      exact (congrArg doneBit (Memory.read_writeLE_byte _ _ v)).trans (keepsDone done)
    · refine (congrArg doneBit (Memory.read_writeLE_of_not_mem _ _ _ _ _ fun hb => ?_)).trans done
      exact hij (slot_eq_of_txStatus hwf (isByteOf_one hb))
  | rxSlot j n b v _ bytes =>
    refine (congrArg doneBit (Memory.read_writeLE_of_not_mem _ _ _ _ _ fun hb => ?_)).trans done
    exact not_isRxSlotByte_txStatus hwf j i (bytes _ hb)

/-! ### What no access does (R90) -/

theorem NicKeeps.keepsSession {s t : State} (h : NicKeeps s t) : KeepsSession s t :=
  ⟨⟨h.cfg, h.mac, h.caller⟩, h.base, h.txTail, h.rxTail, h.phase⟩

/-- The address field is the first of a descriptor (R110, R111). -/
@[simp] theorem txDesc_add_txdAddr (c : Cfg) (i : Slot) : txDesc c i + txdAddr = txDesc c i := BitVec.add_zero _
@[simp] theorem rxDesc_add_rxdAddr (c : Cfg) (i : Slot) : rxDesc c i + rxdAddr = rxDesc c i := BitVec.add_zero _

/-- The buffer-address field of a TX descriptor stands still. -/
theorem NicKeeps.readLE_txdAddr {s t : State} (h : NicKeeps s t) (hwf : s.cfg.WF) (i : Slot) :
    t.mem.readLE 8 (txDesc s.cfg i + txdAddr) = s.mem.readLE 8 (txDesc s.cfg i + txdAddr) := by
  rw [txDesc_add_txdAddr]
  exact Memory.readLE_congr 8 _ fun k hk => h.read _ (not_nicMay_txDesc hwf i (by omega) (by omega))

/-- The buffer-address field of an RX descriptor stands still. -/
theorem NicKeeps.readLE_rxdAddr {s t : State} (h : NicKeeps s t) (hwf : s.cfg.WF) (i : Slot) :
    t.mem.readLE 8 (rxDesc s.cfg i + rxdAddr) = s.mem.readLE 8 (rxDesc s.cfg i + rxdAddr) := by
  rw [rxDesc_add_rxdAddr]
  exact Memory.readLE_congr 8 _ fun k hk => h.read _ (not_nicMay_rxAddr hwf i hk)

/-- Settles O55: what an access may write at all excludes the address fields, the TX buffers and the rest of memory; the
guard on its one store excludes the RX slots whose done bit is 1 and the clearing of a done bit. -/
theorem controllerNeverDoes : Obligations.ControllerNeverDoes := by
  intro s t mv hwf ht
  subst ht
  have keeps := s.nicMove_keeps mv
  have stores := s.nicMove_stores mv
  refine ⟨keeps.keepsSession, fun i => ⟨keeps.readLE_txdAddr hwf i, keeps.readLE_rxdAddr hwf i⟩, ?_, ?_, ?_, ?_⟩
  · exact fun a ha => keeps.read a (not_nicMay_of_txBufRegion hwf ha)
  · exact fun i done a ha => stores.read_rxSlot hwf done ha
  · exact fun a ha => keeps.read a fun hm => ha (inRam_of_nicMay hwf hm)
  · exact fun i => ⟨stores.keeps_txDone hwf, stores.keeps_rxDone hwf⟩

end Sys2Proof.Machine
end

section
/-! PROOF. The fields of a command word (R100), the rows its decoder can select (R102), and the refusal of every illegal
command (R105). -/

namespace Sys2Proof

/-! ### The fields of a command word -/

theorem Command.op_toNat (c : Command) : c.op.toNat = c.cw.toNat / 2 ^ 24 := by
  have := c.cw.isLt
  simp only [Command.op, BitVec.extractLsb'_toNat, Nat.shiftRight_eq_div_pow]
  omega

theorem Command.rsvd_toNat (c : Command) : c.rsvd.toNat = c.cw.toNat / 2 ^ 16 % 256 := by
  simp [Command.rsvd, BitVec.extractLsb'_toNat, Nat.shiftRight_eq_div_pow]

theorem Command.imm16_toNat (c : Command) : c.imm16.toNat = c.cw.toNat % 2 ^ 16 := by
  simp [Command.imm16, BitVec.extractLsb'_toNat]

@[simp] theorem Command.op_commandWord (op : Byte) (imm : Half) (a0 a1 : Word) :
    (Command.mk (commandWord op imm) a0 a1).op = op := commandWord_op op imm

@[simp] theorem Command.imm16_commandWord (op : Byte) (imm : Half) (a0 a1 : Word) :
    (Command.mk (commandWord op imm) a0 a1).imm16 = imm := commandWord_imm16 op imm

/-! ### The fields an instruction encodes to (R102) -/

/-- The ten values of `op` that select a row (R102). -/
theorem encode_op_mem (i : Instr) :
    (encode i).op.toNat ∈ [0x01, 0x02, 0x03, 0x04, 0x10, 0x11, 0x12, 0x13, 0x18, 0x19] := by
  cases i <;> simp [encode]

/-- Only SEND_ECHO and BUILD_FRAME take an immediate. -/
theorem encode_imm16_eq_zero {i : Instr} (h03 : (encode i).op.toNat ≠ 0x03) (h19 : (encode i).op.toNat ≠ 0x19) :
    (encode i).imm16 = 0 := by
  cases i with
  | sendEcho seq => simp [encode] at h03
  | buildFrame seq => simp [encode] at h19
  | _ => exact Command.imm16_commandWord _ _ _ _

/-! ### What a command that decodes looks like -/

/-- The command word carries the `op` and the `imm16` of the instruction's row. -/
def Command.Selects (c : Command) (i : Instr) : Prop := c.op = (encode i).op ∧ c.imm16 = (encode i).imm16

/-- A command word whose `op` and `imm16` are those of a row's word. -/
theorem Command.Selects.of_row {c : Command} {i : Instr} {op : Byte} {imm : Half} {a0 a1 : Word} (hop : c.op = op)
    (himm : c.imm16 = imm) (row : encode i = ⟨commandWord op imm, a0, a1⟩) : c.Selects i := by
  simp [Command.Selects, row, hop, himm]

theorem noImmediate_eq_ok {c : Command} {i j : Instr} : noImmediate c i = .ok j ↔ c.imm16 = 0 ∧ i = j := by
  by_cases himm : c.imm16 = 0
  · simp [noImmediate, himm]
  · simp only [noImmediate, himm, if_false, false_and, reduceCtorEq]

/-- A row without an immediate, once `op` has chosen it. -/
theorem Command.Selects.of_noImmediate {c : Command} {i j : Instr} {op : Byte} {a0 a1 : Word} (hop : c.op = op)
    (row : encode i = ⟨commandWord op 0, a0, a1⟩) (h : noImmediate c i = .ok j) : c.Selects j := by
  obtain ⟨himm, rfl⟩ := noImmediate_eq_ok.1 h
  exact .of_row hop himm row

/-- Each branch of the decoder gives the instruction of its own row. -/
theorem selects_of_decodeOp {c : Command} {i : Instr} (h : decodeOp c = .ok i) : c.Selects i := by
  unfold decodeOp at h
  split_ifs at h with h01 h02 h03 h04 h10 h11 h12 h13 h18 h19
  · exact .of_noImmediate h01 rfl h
  · exact .of_noImmediate h02 rfl h
  · cases h; exact .of_row h03 rfl rfl
  · exact .of_noImmediate h04 rfl h
  · exact .of_noImmediate h10 rfl h
  · exact .of_noImmediate h11 rfl h
  · exact .of_noImmediate h12 rfl h
  · exact .of_noImmediate h13 rfl h
  · exact .of_noImmediate h18 rfl h
  · cases h; exact .of_row h19 rfl rfl

theorem decode_eq_ok {c : Command} {i : Instr} : decode c = .ok i ↔ c.rsvd = 0 ∧ decodeOp c = .ok i := by
  by_cases hrsvd : c.rsvd = 0
  · simp [decode, hrsvd]
  · simp only [decode, hrsvd, if_false, false_and, reduceCtorEq]

/-- A command that decodes and whose `op` is CHECKSUM's is that CHECKSUM, with the two operand words. -/
theorem eq_checksum_of_decode {c : Command} {i : Instr} (h : decode c = .ok i) (hop : c.op = 0x18) :
    i = .checksum c.a0 c.a1 := by
  have row : decodeOp c = noImmediate c (.checksum c.a0 c.a1) := by simp [decodeOp, hop]
  obtain ⟨-, ok⟩ := decode_eq_ok.1 h
  obtain ⟨-, rfl⟩ := noImmediate_eq_ok.1 (row ▸ ok)
  rfl

/-- A command that decodes has a listed `op`, `rsvd` 0, and `imm16` 0 unless its operation takes an immediate. -/
theorem legal_of_decode {c : Command} {i : Instr} (h : decode c = .ok i) :
    c.cw.toNat / 2 ^ 24 ∈ [0x01, 0x02, 0x03, 0x04, 0x10, 0x11, 0x12, 0x13, 0x18, 0x19] ∧
    c.cw.toNat / 2 ^ 16 % 256 = 0 ∧
    (c.cw.toNat / 2 ^ 24 ≠ 0x03 → c.cw.toNat / 2 ^ 24 ≠ 0x19 → c.cw.toNat % 2 ^ 16 = 0) := by
  obtain ⟨hrsvd, ok⟩ := decode_eq_ok.1 h
  obtain ⟨hop, himm⟩ := selects_of_decodeOp ok
  rw [← c.op_toNat, ← c.rsvd_toNat, ← c.imm16_toNat, hop, himm, hrsvd]
  exact ⟨encode_op_mem i, rfl, fun h03 h19 => congrArg BitVec.toNat (encode_imm16_eq_zero h03 h19)⟩

end Sys2Proof

namespace Sys2Proof.Machine

/-! ### The step at a presented command -/

theorem State.takeCommand_of_caller {s : State} {c : Command} {rest : List Command} (hc : s.caller = c :: rest) :
    s.takeCommand = { s with caller := rest } := by
  simp [State.takeCommand, hc]

theorem step_of_decode_ok {s : State} {c : Command} {rest : List Command} {i : Instr} (hc : s.caller = c :: rest)
    (hd : decode c = .ok i) : step s = exec i { s with caller := rest } := by
  simp only [step, hc, hd, State.takeCommand_of_caller hc]

theorem step_of_decode_error {s : State} {c : Command} {rest : List Command} {e : DecodeError}
    (hc : s.caller = c :: rest) (hd : decode c = .error e) :
    step s = .next { s with caller := rest, response := some ⟨true, false, 0⟩ } := by
  simp only [step, hc, hd, State.takeCommand_of_caller hc]
  rfl

/-- Settles O6: a command word that does not decode is answered by the refusal; one that decodes meets the first three
conditions of R105, so it is a CHECKSUM out of range, which refuses by itself. -/
theorem illegalCommandIsRefused : Obligations.IllegalCommandIsRefused := by
  intro s c rest hc illegal
  cases hd : decode c with
  | error e => exact step_of_decode_error hc hd
  | ok i =>
    obtain ⟨hop, hrsvd, himm⟩ := legal_of_decode hd
    rw [step_of_decode_ok hc hd]
    rcases illegal with badOp | badRsvd | ⟨badImm, h03, h19⟩ | ⟨hop18, range⟩
    · exact absurd hop badOp
    · exact absurd hrsvd badRsvd
    · exact absurd (himm h03 h19) badImm
    · have op18 : c.op = 0x18 := BitVec.eq_of_toNat_eq (c.op_toNat.trans hop18)
      rw [eq_checksum_of_decode hd op18, exec_checksum_refused range]
      rfl

/-! ### The MAC filter pair (R120) -/

/-- Appending puts the left word above the right one. -/
theorem append_toNat {n m : Nat} (x : BitVec n) (y : BitVec m) : (x ++ y).toNat = x.toNat * 2 ^ m + y.toNat := by
  rw [BitVec.toNat_append, ← Nat.shiftLeft_add_eq_or_of_lt y.isLt, Nat.shiftLeft_eq]

theorem macfLo_toNat (m : Mac) : (macfLo m).toNat =
    m.b0.toNat + m.b1.toNat * 2 ^ 8 + m.b2.toNat * 2 ^ 16 + m.b3.toNat * 2 ^ 24 := by
  simp only [macfLo, append_toNat]
  omega

theorem macfHi_toNat (m : Mac) : (macfHi m).toNat = m.b4.toNat + m.b5.toNat * 2 ^ 8 + 2 ^ 31 := by
  have valid : (1 : BitVec 1).toNat = 1 := rfl
  have unused : (0 : BitVec 15).toNat = 0 := rfl
  simp only [macfHi, append_toNat, valid, unused]
  omega

/-- Settles O54: each register is its fields appended, each at the weight of the bits below it. -/
theorem macFilterPairPacking : Obligations.MacFilterPairPacking :=
  fun m => ⟨macfLo_toNat m, macfHi_toNat m⟩

end Sys2Proof.Machine
end

section
/-! PROOF. What reading a run of bytes answers and records (R182, R185), and the CHECKSUM command (R182). -/

namespace Sys2Proof.Machine

/-! ### Runs of bytes that the controller may not write (R90) -/

/-- The controller may write none of the `n` bytes at an address. -/
def nicSpares (c : Cfg) (a : Addr) (n : Nat) : Prop := ∀ k, k < n → ¬ nicMay c (a + BitVec.ofNat 64 k).toNat

theorem nicSpares_succ {c : Cfg} {a : Addr} {n : Nat} (h : nicSpares c a (n + 1)) :
    ¬ nicMay c a.toNat ∧ nicSpares c (a + 1) n := by
  refine ⟨?_, fun k hk => ?_⟩
  · simpa only [BitVec.ofNat_eq_ofNat, BitVec.add_zero] using h 0 n.succ_pos
  · rw [addr_succ]
    exact h (k + 1) (by omega)

/-- The controller spares every range of a TX buffer slot. -/
theorem nicSpares_txBuf {c : Cfg} (h : c.WF) (i : Slot) {start len : Nat} (range : start + len ≤ 2048) :
    nicSpares c (txBuf c i + BitVec.ofNat 64 start) len := by
  intro k hk
  rw [addr_add_ofNat]
  exact not_nicMay_txBuf h i (by omega)

/-- An operation that stores nothing itself keeps every run of bytes that the controller spares. -/
theorem bytesAt_eq_of_memFrame {s t : State} (h : MemFrame s t fun _ => False) {a : Addr} {n : Nat}
    (spares : nicSpares s.cfg a n) : bytesAt t.mem a n = bytesAt s.mem a n :=
  List.map_congr_left fun k hk => h _ id (Or.inr (spares k (List.mem_range.1 hk)))

/-! ### Reading a run of bytes -/

theorem Memory.readLE_one (m : Memory) (a : Addr) : m.readLE 1 a = (m.read a.toNat).setWidth 64 := by
  simp [Memory.readLE]

/-- A one-byte read answers the byte memory holds after the controller's turn. -/
theorem State.memRead_one (s : State) (a : Addr) : (s.memRead a 1).1 = (s.nicTurn.mem.read a.toNat).setWidth 64 :=
  Memory.readLE_one _ a

/-- A one-byte read answers a zero-extended byte. -/
theorem State.memRead_one_zeroExtended (s : State) (a : Addr) :
    ((s.memRead a 1).1.setWidth 8).setWidth 64 = (s.memRead a 1).1 := by
  simp [State.memRead_one]

/-- A byte that the controller may not write is read as memory holds it before the access. -/
theorem State.memRead_byte_of_not_nicMay {s : State} {a : Addr} (h : ¬ nicMay s.cfg a.toNat) :
    (s.memRead a 1).1.setWidth 8 = s.mem.read a.toNat := by
  simp [State.memRead_one, s.nicTurn_keeps.read _ h]

/-- A run of bytes that the controller spares is read as memory holds it before the first access. -/
theorem State.readBytes_eq_bytesAt (n : Nat) (s : State) (a : Addr) (h : nicSpares s.cfg a n) :
    (s.readBytes a n).1 = bytesAt s.mem a n := by
  induction n generalizing s a with
  | zero => rfl
  | succ n ih =>
    obtain ⟨first, rest⟩ := nicSpares_succ h
    have keeps := s.memRead_op a (n := 1) (by decide) fun _ => False
    have tail : ((s.memRead a 1).2.readBytes (a + 1) n).1 = bytesAt s.mem (a + 1) n :=
      (ih _ _ (keeps.cfg ▸ rest)).trans (bytesAt_eq_of_memFrame keeps.frame rest)
    rw [bytesAt_cons, ← State.memRead_byte_of_not_nicMay first, ← tail, State.readBytes]

theorem byteReads_cons (a : Addr) (b : Byte) (bs : List Byte) :
    byteReads a (b :: bs) = .memRead a 1 (b.setWidth 64) :: byteReads (a + 1) bs := by
  refine List.ext_getElem (by simp [byteReads]) fun k _ _ => ?_
  cases k with
  | zero => simp [byteReads]
  | succ k => simpa [byteReads, Nat.add_comm 1 k] using (addr_succ a k).symm

/-- Reading a run of bytes records one one-byte read for each byte it answers, ascending. -/
theorem State.readBytes_events (n : Nat) (s : State) (a : Addr) :
    (s.readBytes a n).2.events = (byteReads a (s.readBytes a n).1).reverse ++ s.events := by
  induction n generalizing s a with
  | zero => rfl
  | succ n ih =>
    show ((s.memRead a 1).2.readBytes (a + 1) n).2.events = _
    rw [ih, State.memRead_events, State.readBytes, byteReads_cons, State.memRead_one_zeroExtended, List.reverse_cons,
      List.append_assoc, List.singleton_append]

/-- The reads of a run of bytes, by their offsets from its first address. -/
theorem byteReads_bytesAt (m : Memory) (a : Addr) (n : Nat) :
    byteReads a (bytesAt m a n) = (List.range n).map fun k =>
      .memRead (a + BitVec.ofNat 64 k) 1 ((m.read (a + BitVec.ofNat 64 k).toNat).setWidth 64) := by
  refine List.ext_getElem (by simp [byteReads]) fun k _ _ => ?_
  simp [byteReads, bytesAt]

/-! ### The CHECKSUM command (R182) -/

theorem OpKeeps.keepsSession {P : Nat → Prop} {s t : State} (h : OpKeeps P s t) : KeepsSession s t :=
  ⟨⟨h.cfg, h.mac, h.caller⟩, h.base, h.txTail, h.rxTail, h.phase⟩

theorem OpKeepsNic.keepsNic {s t : State} (h : OpKeepsNic s t) : KeepsNic s t := ⟨h.regs, h.nic⟩

/-- The bytes of a range of the slot `s.tx_tail` are read as memory holds them when the command begins. -/
theorem State.checksumBytes_eq_bytesAt {s : State} (hwf : s.cfg.WF) {start len : Nat} (range : start + len ≤ 2048) :
    (s.checksumBytes start len).1 = bytesAt s.mem (txBuf s.cfg (slotOf s.txTail) + BitVec.ofNat 64 start) len :=
  s.readBytes_eq_bytesAt len _ (nicSpares_txBuf hwf _ range)

/-- The history of an accepted range: the reads of its bytes, ascending. -/
theorem State.checksumBytes_events {s : State} (hwf : s.cfg.WF) {start len : Nat} (range : start + len ≤ 2048) :
    (s.checksumBytes start len).2.events =
      (byteReads (txBuf s.cfg (slotOf s.txTail) + BitVec.ofNat 64 start)
        (bytesAt s.mem (txBuf s.cfg (slotOf s.txTail) + BitVec.ofNat 64 start) len)).reverse ++ s.events := by
  rw [← State.checksumBytes_eq_bytesAt hwf range]
  exact s.readBytes_events len _

/-- Settles O34: the controller may write no TX buffer, so every byte read is the byte memory held when the command
began; the frame is that of reading a run of bytes. -/
theorem checksumOfSlotRange : Obligations.ChecksumOfSlotRange := by
  rintro start len s hwf b rfl
  refine ⟨fun range => exec_checksum_refused range s, ?_⟩
  rintro range bytes rfl
  have keeps := s.readBytes_op len.toNat (txBuf s.cfg (slotOf s.txTail) + BitVec.ofNat 64 start.toNat) fun _ => False
  have keepsNic := s.readBytes_opNic len.toNat (txBuf s.cfg (slotOf s.txTail) + BitVec.ofNat 64 start.toNat)
  have answer := State.checksumBytes_eq_bytesAt hwf range
  have history := State.checksumBytes_events hwf range
  rw [byteReads_bytesAt] at history
  simp only [bytesAt, addr_add_ofNat] at answer history
  refine ⟨_, exec_checksum range s, ?_, history, keeps.keepsSession, keepsNic.pciCommand, keepsNic.keepsNic,
    keeps.frame⟩
  rw [State.respond_response, answer]

end Sys2Proof.Machine
end

section
/-! PROOF. The receive classifier (R211). -/

namespace Sys2Proof.Machine

/-- The classifier's three tests, the length as a number. -/
theorem isReply_iff {len : Half} {b23 b34 : Byte} :
    isReply len b23 b34 = true ↔ 34 < len.toNat ∧ b23 = 1 ∧ b34 = 0 := by
  simp [isReply, Config.rxMinLenExcl, and_assoc]

/-- A frame too short to hold byte 34 is no reply, whatever the two bytes. -/
theorem isReply_eq_false_of_le {len : Half} (short : len.toNat ≤ 34) (b23 b34 : Byte) :
    isReply len b23 b34 = false :=
  Bool.eq_false_iff.2 fun reply => Nat.not_lt.2 short (isReply_iff.1 reply).1

/-- Settles O48: both sides of the boundary are the length test of `isReply_iff`, at 34 and at 35. -/
theorem classifierTestsThreeThings : Obligations.ClassifierTestsThreeThings :=
  fun _ b23 b34 => ⟨isReply_iff, isReply_eq_false_of_le (by decide) b23 b34, isReply_iff.2 ⟨by decide, rfl, rfl⟩⟩

end Sys2Proof.Machine
end

section
/-! PROOF. Block reset (R250): the reset values, and the step at an empty command port. -/

namespace Sys2Proof.Machine

/-- With no command on the port a step is the controller's turn alone (R79). -/
theorem step_of_caller_nil {s : State} (hc : s.caller = []) : step s = .next s.nicTurn := by
  simp [step, hc, State.waitForCommand]

/-- Block reset leaves the command port empty (R250). -/
@[simp] theorem State.reset_caller : State.reset.caller = [] := rfl

/-- Settles O1: the reset values stand in `State.reset`; its port is empty, so the first step is the controller's turn,
which keeps the session registers, the response and the history whatever the controller does. -/
theorem blockResetLeavesSessionZeroAndWaits : Obligations.BlockResetLeavesSessionZeroAndWaits := by
  have keeps := State.reset.nicTurn_keeps
  have waits : ∃ t, step State.reset = .next t ∧ KeepsSession State.reset t ∧ t.response = none ∧ t.events = [] :=
    ⟨State.reset.nicTurn, step_of_caller_nil State.reset_caller, keeps.keepsSession, keeps.response, keeps.events⟩
  exact ⟨rfl, rfl, rfl, rfl, rfl, rfl, rfl, waits⟩

end Sys2Proof.Machine
end

section
/-! PROOF. Encoding and decoding agree (R100 to R102): the fields of a word, the row it matches, and the words written out
from the table. -/

namespace Sys2Proof

/-! ### The fields of a command word make it up (R100) -/

theorem commandWord_toNat (op : Byte) (imm : Half) :
    (commandWord op imm).toNat = op.toNat * 2 ^ 24 + imm.toNat := by
  have zero : (0 : Byte).toNat = 0 := rfl
  simp only [commandWord, Machine.append_toNat, zero]
  omega

/-- A command word whose `rsvd` field is 0 is its `op` and its `imm16`. -/
theorem Command.cw_eq_commandWord {c : Command} (hrsvd : c.rsvd = 0) : c.cw = commandWord c.op c.imm16 := by
  have rsvd : c.cw.toNat / 2 ^ 16 % 256 = 0 := by rw [← c.rsvd_toNat, hrsvd]; rfl
  apply BitVec.eq_of_toNat_eq
  rw [commandWord_toNat, c.op_toNat, c.imm16_toNat]
  omega

@[simp] theorem Command.rsvd_commandWord (op : Byte) (imm : Half) (a0 a1 : Word) :
    (Command.mk (commandWord op imm) a0 a1).rsvd = 0 := commandWord_rsvd op imm

/-! ### Decoding an encoded instruction -/

theorem decode_encode (i : Instr) : decode (encode i) = .ok i := by
  rw [decode_eq_ok]
  cases i <;> simp [encode, decodeOp, noImmediate]

/-- The operand words that an instruction uses are those of the command it is decoded from (R101, R102). -/
def Instr.UsesOperands (i : Instr) (c : Command) : Prop :=
  match i with
  | .readReg off => c.a0 = off
  | .delay n => c.a0 = n
  | .writeReg off value => c.a0 = off ∧ c.a1 = value
  | .checksum start len => c.a0 = start ∧ c.a1 = len
  | .findDevice | .init | .sendEcho _ | .checkReply | .fence | .buildFrame _ => True

theorem usesOperands_of_noImmediate {c : Command} {i j : Instr} (h : noImmediate c i = .ok j)
    (uses : i.UsesOperands c) : j.UsesOperands c := (noImmediate_eq_ok.1 h).2 ▸ uses

/-- Each branch of the decoder hands on the operand words of its row. -/
theorem usesOperands_of_decodeOp {c : Command} {i : Instr} (h : decodeOp c = .ok i) : i.UsesOperands c := by
  unfold decodeOp at h
  split_ifs at h
  · exact usesOperands_of_noImmediate h trivial
  · exact usesOperands_of_noImmediate h trivial
  · cases h; trivial
  · exact usesOperands_of_noImmediate h trivial
  · exact usesOperands_of_noImmediate h rfl
  · exact usesOperands_of_noImmediate h ⟨rfl, rfl⟩
  · exact usesOperands_of_noImmediate h rfl
  · exact usesOperands_of_noImmediate h trivial
  · exact usesOperands_of_noImmediate h ⟨rfl, rfl⟩
  · cases h; trivial

/-- A command that decodes carries the command word of its instruction. -/
theorem cw_eq_of_decode {c : Command} {i : Instr} (h : decode c = .ok i) : c.cw = (encode i).cw := by
  obtain ⟨hrsvd, ok⟩ := decode_eq_ok.1 h
  obtain ⟨hop, himm⟩ := selects_of_decodeOp ok
  obtain ⟨hrsvd', -⟩ := decode_eq_ok.1 (decode_encode i)
  rw [Command.cw_eq_commandWord hrsvd, Command.cw_eq_commandWord hrsvd', hop, himm]

/-- Settles O12: each encoded word decodes in its own branch; a word that decodes has `rsvd` 0 and the `op` and `imm16` of
its row, so it is that row's word, and each branch hands on the operands its row uses. -/
theorem decodeAndEncodeAgree : Obligations.DecodeAndEncodeAgree := by
  refine ⟨decode_encode, fun c i h => ⟨cw_eq_of_decode h, ?_⟩⟩
  have uses := usesOperands_of_decodeOp (decode_eq_ok.1 h).2
  cases i <;> exact uses

/-! ### The row a command word matches (R102) -/

theorem encode_matches_row (i : Instr) : (encode i).cw &&& i.rowMask = i.rowMatch := by
  cases i with
  | findDevice => exact Laws.RowMatch.findDevice
  | init => exact Laws.RowMatch.init
  | sendEcho seq => exact Laws.RowMatch.sendEcho seq
  | checkReply => exact Laws.RowMatch.checkReply
  | readReg off => exact Laws.RowMatch.readReg off
  | writeReg off value => exact Laws.RowMatch.writeReg off value
  | delay n => exact Laws.RowMatch.delay n
  | fence => exact Laws.RowMatch.fence
  | checksum start len => exact Laws.RowMatch.checksum start len
  | buildFrame seq => exact Laws.RowMatch.buildFrame seq

/-- Bits that a mask keeps are those of the word it is matched with. -/
theorem extractLsb'_eq_of_and {w mask row : Word} (h : w &&& mask = row) (start len : Nat)
    (keeps : mask.extractLsb' start len = BitVec.allOnes len) : w.extractLsb' start len = row.extractLsb' start len := by
  rw [← h, BitVec.extractLsb'_and, keeps, BitVec.and_allOnes]

/-- Every row's mask keeps the `op` and the `rsvd` field. -/
theorem rowMask_keeps_op (j : Instr) : j.rowMask.extractLsb' 24 8 = BitVec.allOnes 8 := by
  cases j <;> simp [Instr.rowMask, BitVec.allOnes]
theorem rowMask_keeps_rsvd (j : Instr) : j.rowMask.extractLsb' 16 8 = BitVec.allOnes 8 := by
  cases j <;> simp [Instr.rowMask, BitVec.allOnes]

/-- The mask of a row without an immediate keeps the `imm16` field too. -/
theorem rowMask_keeps_imm16 {j : Instr} (h : j.rowMask = 0xFFFFFFFF) :
    j.rowMask.extractLsb' 0 16 = BitVec.allOnes 16 := by rw [h]; decide

theorem rowMatch_rsvd (j : Instr) : j.rowMatch.extractLsb' 16 8 = 0 := by cases j <;> simp [Instr.rowMatch]
theorem rowMatch_imm16 (j : Instr) : j.rowMatch.extractLsb' 0 16 = 0 := by cases j <;> simp [Instr.rowMatch]

/-- A command word that matches a row decodes to an instruction of that row's mnemonic. -/
theorem decode_of_matches_row {c : Command} {j : Instr} (h : c.cw &&& j.rowMask = j.rowMatch) :
    ∃ i, decode c = .ok i ∧ i.mnemonic = j.mnemonic := by
  have hrsvd : c.rsvd = 0 := (extractLsb'_eq_of_and h 16 8 (rowMask_keeps_rsvd j)).trans (rowMatch_rsvd j)
  have hop : c.op = j.rowMatch.extractLsb' 24 8 := extractLsb'_eq_of_and h 24 8 (rowMask_keeps_op j)
  have himm : j.rowMask = 0xFFFFFFFF → c.imm16 = 0 := fun full =>
    (extractLsb'_eq_of_and h 0 16 (rowMask_keeps_imm16 full)).trans (rowMatch_imm16 j)
  simp only [decode_eq_ok, hrsvd, true_and, decodeOp, hop]
  cases j with
  | sendEcho seq => exact ⟨.sendEcho c.imm16, by simp [Instr.rowMatch], rfl⟩
  | buildFrame seq => exact ⟨.buildFrame c.imm16, by simp [Instr.rowMatch], rfl⟩
  | findDevice => exact ⟨.findDevice, by simp [Instr.rowMatch, noImmediate, himm rfl], rfl⟩
  | init => exact ⟨.init, by simp [Instr.rowMatch, noImmediate, himm rfl], rfl⟩
  | checkReply => exact ⟨.checkReply, by simp [Instr.rowMatch, noImmediate, himm rfl], rfl⟩
  | readReg off => exact ⟨.readReg c.a0, by simp [Instr.rowMatch, noImmediate, himm rfl], rfl⟩
  | writeReg off value => exact ⟨.writeReg c.a0 c.a1, by simp [Instr.rowMatch, noImmediate, himm rfl], rfl⟩
  | delay n => exact ⟨.delay c.a0, by simp [Instr.rowMatch, noImmediate, himm rfl], rfl⟩
  | fence => exact ⟨.fence, by simp [Instr.rowMatch, noImmediate, himm rfl], rfl⟩
  | checksum start len => exact ⟨.checksum c.a0 c.a1, by simp [Instr.rowMatch, noImmediate, himm rfl], rfl⟩

/-- Settles O13: a word that decodes is its instruction's word, which matches that row; a word that matches a row decodes
to that row's mnemonic, and it decodes to one instruction only. -/
theorem commandWordSelectsItsRow : Obligations.CommandWordSelectsItsRow := by
  intro c
  refine ⟨⟨fun ⟨i, hi⟩ => ⟨i, ?_⟩, fun ⟨j, hj⟩ => ?_⟩, fun i hi j hj => ?_⟩
  · rw [cw_eq_of_decode hi]
    exact encode_matches_row i
  · obtain ⟨i, hi, -⟩ := decode_of_matches_row hj
    exact ⟨i, hi⟩
  · obtain ⟨i', hi', same⟩ := decode_of_matches_row hj
    rw [hi] at hi'
    cases hi'
    exact same.symm

/-- Settles O11: five words and their operands are those their instructions encode to, up to operand words that are
ignored; the last has `rsvd` 1. -/
theorem sampleWordsDecode : Obligations.SampleWordsDecode :=
  ⟨rfl, rfl, rfl, rfl, rfl, rfl⟩

end Sys2Proof
end

section
/-! PROOF. The command port (R79, R80, R100), and the operations that are one bus access or none (R140 to R144). -/

namespace Sys2Proof.Machine

/-! ### The step at the command port -/

/-- Settles O4: the decoder's answer selects the arm of `step`. -/
theorem stepRunsDecodedCommand : Obligations.StepRunsDecodedCommand :=
  fun _ _ _ _ hc hd => step_of_decode_ok hc hd

theorem decode_of_decodeTableWord {nbits w : Nat} {i : Instr} (h : decodeTableWord nbits w = some i) :
    decode (tableCommand nbits w) = .ok i := by
  unfold decodeTableWord at h
  cases hd : decode (tableCommand nbits w) with
  | ok j =>
    rw [hd] at h
    exact congrArg _ (Option.some.inj h)
  | error e =>
    rw [hd] at h
    cases h

/-- Settles O5: the presented command stands at the head of the caller's list, so the step runs it. -/
theorem presentedWordRunsNext : Obligations.PresentedWordRunsNext :=
  fun s nbits w _ h =>
    step_of_decode_ok (s := s.withFetchWord nbits w) (rest := s.caller.tail) rfl (decode_of_decodeTableWord h)

/-- What one step answers: the controller's turn, the refusal of an illegal word, or the command the word decodes to. -/
theorem step_cases (s : State) :
    (s.caller = [] ∧ step s = .next s.nicTurn) ∨
    step s = .next s.takeCommand.refuse ∨
    ∃ c rest i, s.caller = c :: rest ∧ decode c = .ok i ∧ step s = exec i s.takeCommand := by
  cases hc : s.caller with
  | nil => exact Or.inl ⟨rfl, step_of_caller_nil hc⟩
  | cons c rest =>
    cases hd : decode c with
    | error e => exact Or.inr (Or.inl (by simp only [step, hc, hd]))
    | ok i => exact Or.inr (Or.inr ⟨c, rest, i, rfl, hd, by simp only [step, hc, hd]⟩)

/-- Settles O56: with an empty port the step is the controller's turn, which leaves the block's own alone. -/
theorem idleStepOnlyWaits : Obligations.IdleStepOnlyWaits := by
  intro s hc
  have keeps := s.nicTurn_op (fun _ => False)
  exact ⟨s.nicTurn, step_of_caller_nil hc, keeps.keepsSession, keeps.response, s.nicTurn_events, s.nicTurn_pciCommand,
    s.nicTurn_opNic.keepsNic, keeps.frame⟩

/-! ### Which commands are refused (R72, U6) -/

/-- Settles O17: both arms test the offset first. -/
theorem misalignedRegisterAccessIsRefused : Obligations.MisalignedRegisterAccessIsRefused :=
  fun _ v s h => ⟨exec_readReg_misaligned h s, exec_writeReg_misaligned h v s⟩

/-- A refused instruction is a register access at an offset that is not a multiple of 4. -/
theorem exec_refused {i : Instr} {s : State} {r : Refusal} (h : exec i s = .refused r) :
    r = .misalignedRegisterOffset ∧
      ((∃ off, i = .readReg off ∧ off.toNat % 4 ≠ 0) ∨ ∃ off v, i = .writeReg off v ∧ off.toNat % 4 ≠ 0) := by
  cases i with
  | readReg off =>
    by_cases aligned : off.toNat % 4 = 0
    · rw [exec_readReg aligned] at h; cases h
    · rw [exec_readReg_misaligned aligned] at h
      cases h
      exact ⟨rfl, Or.inl ⟨off, rfl, aligned⟩⟩
  | writeReg off v =>
    by_cases aligned : off.toNat % 4 = 0
    · rw [exec_writeReg aligned] at h; cases h
    · rw [exec_writeReg_misaligned aligned] at h
      cases h
      exact ⟨rfl, Or.inr ⟨off, v, rfl, aligned⟩⟩
  | _ => cases h

/-- Settles O7: the type of faults is empty; of what a step can be only an instruction may be refused, and only a register
access at a misaligned offset is. -/
theorem noFaultAndOnlyMisalignedRefused : Obligations.NoFaultAndOnlyMisalignedRefused := by
  intro s
  refine ⟨fun f => f.casesOn, fun r h => ?_⟩
  rcases step_cases s with ⟨-, e⟩ | e | ⟨c, rest, i, hc, hd, e⟩
  · rw [e] at h; cases h
  · rw [e] at h; cases h
  · rw [e] at h
    obtain ⟨rfl, ⟨off, rfl, misaligned⟩ | ⟨off, v, rfl, misaligned⟩⟩ := exec_refused h
    · exact ⟨rfl, c, rest, hc, Or.inl ⟨off, hd, misaligned⟩⟩
    · exact ⟨rfl, c, rest, hc, Or.inr ⟨off, v, hd, misaligned⟩⟩

/-! ### Completion (R104) -/

/-- What `CHECK_REPLY` does with the slot it looks at. -/
theorem State.inspectRx_cases (s : State) (j : Slot) :
    (doneBit (s.readByte (rxDesc s.cfg j + rxdStatus)).1 = true ∧
      s.inspectRx j = (s.readByte (rxDesc s.cfg j + rxdStatus)).2.fence.consumeRx j) ∨
    (doneBit (s.readByte (rxDesc s.cfg j + rxdStatus)).1 = false ∧
      s.inspectRx j = (s.readByte (rxDesc s.cfg j + rxdStatus)).2.fence.respond ⟨false, false, 0⟩) := by
  unfold State.inspectRx
  cases h : doneBit (s.readByte (rxDesc s.cfg j + rxdStatus)).1 with
  | true => exact Or.inl ⟨rfl, by simp [h]⟩
  | false => exact Or.inr ⟨rfl, by simp [h, responseOf]⟩

theorem State.inspectRx_response (s : State) (j : Slot) :
    ∃ ok v, (s.inspectRx j).response = some ⟨false, ok, v⟩ := by
  rcases s.inspectRx_cases j with ⟨-, e⟩ | ⟨-, e⟩ <;> rw [e] <;> exact ⟨_, _, rfl⟩

/-- Settles O8: each arm answers a next state with a response of `err = 0` where the operands are well-formed. -/
theorem everyWellFormedCommandCompletes : Obligations.EveryWellFormedCommandCompletes := by
  intro i s hwf
  cases i with
  | findDevice => exact ⟨_, _, _, exec_findDevice s, rfl⟩
  | init => exact ⟨_, _, _, exec_init s, rfl⟩
  | sendEcho seq => exact ⟨_, _, _, exec_sendEcho seq s, rfl⟩
  | checkReply =>
    obtain ⟨ok, v, h⟩ := s.inspectRx_response (nextSlot (slotOf s.rxTail))
    exact ⟨_, ok, v, exec_checkReply s, h⟩
  | readReg off => exact ⟨_, _, _, exec_readReg (by simpa [Instr.wf] using hwf) s, rfl⟩
  | writeReg off v => exact ⟨_, _, _, exec_writeReg (by simpa [Instr.wf] using hwf) v s, rfl⟩
  | delay n => exact ⟨_, _, _, exec_delay n s, rfl⟩
  | fence => exact ⟨_, _, _, exec_fence s, rfl⟩
  | checksum start len => exact ⟨_, _, _, exec_checksum (by simpa [Instr.wf] using hwf) s, rfl⟩
  | buildFrame seq => exact ⟨_, _, _, exec_buildFrame seq s, rfl⟩

/-! ### DELAY and FENCE (R142, R143) -/

/-- Settles O21: `State.delay` is no event at all for `n = 0`, else a turn of the controller and one entry. -/
theorem delayOnlySpins : Obligations.DelayOnlySpins := by
  intro n s
  have keeps := s.delay_op n.toNat (fun _ => False)
  have keepsNic := s.delay_opNic n.toNat
  have zero : n.toNat = 0 ↔ n = 0 := ⟨fun h => BitVec.eq_of_toNat_eq h, fun h => by rw [h]; rfl⟩
  refine ⟨_, exec_delay n s, rfl, ?_, keeps.keepsSession, keepsNic.pciCommand, keepsNic.keepsNic, keeps.frame, ?_⟩
  · rw [State.respond_events, State.delay_events]
    simp only [zero]
  · rintro rfl
    rfl

/-- Settles O22. -/
theorem fenceOnlyFences : Obligations.FenceOnlyFences := by
  intro s
  have keeps := s.fence_op (fun _ => False)
  have keepsNic := s.fence_opNic
  exact ⟨_, exec_fence s, rfl, s.fence_events, keeps.keepsSession, keepsNic.pciCommand, keepsNic.keepsNic, keeps.frame⟩

/-! ### READ_REG and WRITE_REG (R140, R141) -/

/-- Settles O14: the frame of `State.readReg`. -/
theorem readRegReadsOnceAndFences : Obligations.ReadRegReadsOnceAndFences := by
  intro off s aligned
  have keeps := s.readReg_op off (fun _ => False)
  exact ⟨_, _, exec_readReg aligned s, rfl, s.readReg_events off, keeps.keepsSession, s.readReg_pciCommand off,
    s.readReg_regs off, keeps.frame⟩

theorem offset_aligned {c : Cfg} (h : c.WF) (r : Reg) : (c.offset r).toNat % 4 = 0 :=
  h.2.1.1 r (by cases r <;> simp [allRegs])

/-- A register access of a window clear of the regions does not reach ordinary memory (R75). -/
theorem ramCovers_of_windowClear {c : Cfg} {base : Word} (h : c.windowClear base) (r : Reg) :
    ramCovers c 4 (regAddr base (c.offset r)) = false := by
  refine Bool.eq_false_iff.2 fun covers => not_inRam_of_windowClear h r ⟨0, rfl⟩ ?_
  exact of_decide_eq_true (List.all_eq_true.1 covers 0 (by decide))

/-- Only the interrupt cause register is reached at its offset. -/
theorem State.reachesCause_eq_false {s : State} (h : s.cfg.WF) {r : Reg} (hr : r ≠ .icause) :
    s.reachesCause (s.cfg.offset r) = false := by
  simp [State.reachesCause, regAt_offset h, hr]

/-- Settles O15: the address is no memory and not that of the cause register, so the answer is the next draw. -/
theorem readRegAnswersTheDraw : Obligations.ReadRegAnswersTheDraw := by
  intro r s v vs hwf clear hr draws
  have noRam := ramCovers_of_windowClear clear r
  have noCause : s.nicTurn.reachesCause (s.cfg.offset r) = false := by
    simpa using State.reachesCause_eq_false (s := s.nicTurn) (by simpa using hwf) hr
  have answer : (s.readReg (s.cfg.offset r)).1 = v := by
    simp [State.readReg, State.regAnswer, noRam, noCause, Env.busAnswer, draws]
  have rest : (s.readReg (s.cfg.offset r)).2.env.busReads = vs := by
    simp [State.readReg, State.busRead, State.fence, State.regReadEffect, noRam, noCause, draws]
  exact ⟨_, exec_readReg (offset_aligned hwf r) s, by rw [State.respond_response, answer], rest⟩

/-- A fence of a silent controller leaves the controller alone. -/
theorem State.fence_nic_of_quiet {s : State} (h : s.Quiet) : s.fence.nic = s.nic := s.fence_opNic.nic h

/-- Of the controller a read clears the pending causes, and only at the cause register (R33, R74). -/
theorem State.regReadEffect_nic (s : State) (off : Word) :
    (s.regReadEffect off).nic =
      if ramCovers s.cfg 4 (regAddr s.base off) = false ∧ s.reachesCause off = true then { s.nic with icause := 0 }
      else s.nic := by
  by_cases ram : ramCovers s.cfg 4 (regAddr s.base off) = true <;>
    by_cases cause : s.reachesCause off = true <;> simp [State.regReadEffect, ram, cause]

theorem State.regReadEffect_quiet {s : State} (h : s.Quiet) (off : Word) : (s.regReadEffect off).Quiet := by
  rcases s.regReadEffect_cases off with e | e | e <;> rw [e] <;> exact h

/-- How `readReg` leaves a silent controller: as the access itself does. -/
theorem State.readReg_nic_of_quiet {s : State} (h : s.Quiet) (off : Word) :
    (s.readReg off).2.nic = (s.regReadEffect off).nic := by
  have turn : (s.nicTurn.regReadEffect off).nic = (s.regReadEffect off).nic := by
    rw [State.nicTurn_of_quiet h, State.regReadEffect_nic, State.regReadEffect_nic]
    rfl
  exact (State.fence_nic_of_quiet (s := s.busRead off) (State.regReadEffect_quiet (State.nicTurn_quiet h) off)).trans turn

/-- Settles O16: the read reaches the cause register, answers what was pending there, and clears it. -/
theorem interruptCauseIsReadToClear : Obligations.InterruptCauseIsReadToClear := by
  intro s hwf clear hbase bus quiet
  have noRam := ramCovers_of_windowClear clear .icause
  have reaches : s.reachesCause (s.cfg.offset .icause) = true := by
    simp [State.reachesCause, regAt_offset hwf, bus.2]
    exact hbase
  have answer : (s.readReg (s.cfg.offset .icause)).1 = s.nic.icause := by
    show s.nicTurn.regAnswer _ = _
    rw [State.nicTurn_of_quiet quiet]
    show State.regAnswer { s with env := _ } _ = _
    simp only [State.regAnswer, noRam]
    exact if_pos reaches
  have cleared : (s.readReg (s.cfg.offset .icause)).2.nic = { s.nic with icause := 0 } := by
    rw [State.readReg_nic_of_quiet quiet]
    rw [State.regReadEffect_nic, if_pos ⟨noRam, reaches⟩]
  exact ⟨_, exec_readReg (offset_aligned hwf _) s, by rw [State.respond_response, answer], cleared⟩

/-! ### Where the bytes of a store stand -/

/-- Different bytes of a run have different addresses. -/
theorem addr_offset_inj {a : Addr} {j k : Nat} (hj : j < 2 ^ 64) (hk : k < 2 ^ 64)
    (h : (a + BitVec.ofNat 64 j).toNat = (a + BitVec.ofNat 64 k).toNat) : j = k := by
  rw [BitVec.toNat_add, BitVec.toNat_add, BitVec.toNat_ofNat, BitVec.toNat_ofNat] at h
  have := a.isLt
  omega

theorem extractLsb'_shiftRight (v : BitVec 64) (j k : Nat) : (v >>> j).extractLsb' k 8 = v.extractLsb' (j + k) 8 := by
  ext i hi
  simp [BitVec.getElem_extractLsb', Nat.add_assoc]

theorem extractLsb'_zero_eq_setWidth (v : BitVec 64) : v.extractLsb' 0 8 = v.setWidth 8 := by
  ext i hi
  simp [BitVec.getElem_extractLsb']

theorem not_isByteOf_succ {a : Addr} {n : Nat} (hn : n < 2 ^ 64) : ¬ isByteOf (a + 1) n a.toNat := by
  rintro ⟨k, hk⟩
  rw [addr_succ] at hk
  have hk0 : (a + BitVec.ofNat 64 0).toNat = (a + BitVec.ofNat 64 (k.val + 1)).toNat := by simpa using hk
  have := addr_offset_inj (by decide) (by omega) hk0
  omega

/-- Byte `k` of the bytes just written holds bits `8 k` to `8 k + 7` of the value (R70). -/
theorem Memory.read_writeLE (m : Memory) (a : Addr) (v : BitVec 64) {n k : Nat} (hn : n < 2 ^ 64) (hk : k < n) :
    (m.writeLE n a v).read (a + BitVec.ofNat 64 k).toNat = v.extractLsb' (8 * k) 8 := by
  induction n generalizing m a v k with
  | zero => omega
  | succ n ih =>
    rw [Memory.writeLE]
    cases k with
    | zero =>
      rw [Memory.read_writeLE_of_not_mem _ _ _ _ _ (by simpa using not_isByteOf_succ (a := a) (n := n) (by omega))]
      simp [extractLsb'_zero_eq_setWidth]
    | succ k =>
      rw [← addr_succ, ih _ _ _ (by omega) (by omega), extractLsb'_shiftRight]
      congr 1
      omega

/-- Byte `k` of a register write that lies in a region holds its byte of the value (R70, R254 (a)). -/
theorem read_ramStore (c : Cfg) (m : Memory) (a : Addr) (v : BitVec 64) {n k : Nat} (hn : n < 2 ^ 64) (hk : k < n)
    (ram : c.inRam (a + BitVec.ofNat 64 k).toNat) :
    (ramStore c m n a v).read (a + BitVec.ofNat 64 k).toNat = v.extractLsb' (8 * k) 8 := by
  induction n generalizing m a v k with
  | zero => omega
  | succ n ih =>
    rw [ramStore]
    cases k with
    | zero =>
      have ram0 : c.inRam a.toNat := by simpa using ram
      rw [if_pos ram0, read_ramStore_of_not_mem _ _ _ _ _ _
        (fun h => not_isByteOf_succ (a := a) (n := n) (by omega) (by simpa using h.1))]
      simp [extractLsb'_zero_eq_setWidth]
    | succ k =>
      rw [← addr_succ] at ram ⊢
      rw [ih _ _ _ (by omega) (by omega) ram, extractLsb'_shiftRight]
      congr 1
      omega

/-- The bytes of memory that a register write reaches hold the value, unless the controller may write them. -/
theorem State.writeReg_read {s : State} {off v : Word} {k : Nat} (hk : k < 4)
    (ram : s.cfg.inRam (regAddr s.base off + BitVec.ofNat 64 k).toNat)
    (still : s.Quiet ∨ ¬ nicMay s.cfg (regAddr s.base off + BitVec.ofNat 64 k).toNat) :
    (s.writeReg off v).mem.read (regAddr s.base off + BitVec.ofNat 64 k).toNat = v.extractLsb' (8 * k) 8 := by
  have stored : (s.busWrite off v).mem.read (regAddr s.base off + BitVec.ofNat 64 k).toNat =
      (v.setWidth 64).extractLsb' (8 * k) 8 := by
    show (ramStore s.nicTurn.cfg s.nicTurn.mem 4 (regAddr s.nicTurn.base off) (v.setWidth 64)).read _ = _
    rw [State.nicTurn_cfg, State.nicTurn_base]
    exact read_ramStore _ _ _ _ (by decide) hk ram
  have fenced := (s.busWrite off v).fence_op (fun _ => False)
  refine (fenced.frame _ id ?_).trans (stored.trans ?_)
  · exact still.imp State.nicTurn_quiet fun h => by simpa [State.busWrite, State.regWriteEffect] using h
  · ext i hi
    simp [BitVec.getElem_extractLsb']
    omega

/-- Settles O18: `State.writeReg` stores the bytes that lie in a region, of which the fence's turn changes none that the
controller may not write. -/
theorem writeRegWritesOnceAndFences : Obligations.WriteRegWritesOnceAndFences := by
  intro off v s aligned
  have keeps := s.writeReg_op off v (fun a => isByteOf (regAddr s.base off) 4 a ∧ s.cfg.inRam a) (fun _ h => h)
  have regs := s.writeReg_regs off v
  refine ⟨_, exec_writeReg aligned v s, rfl, s.writeReg_events off v, keeps.keepsSession, s.writeReg_pciCommand off v,
    fun r hr => ?_, fun hr => ?_, keeps.frame, fun k ram still => ?_⟩
  · rw [hr] at regs; exact regs
  · rw [hr] at regs; exact regs
  · have h := s.writeReg_read (v := v) k.isLt ram still
    exact h

/-- Settles O19: the offset finds its register, and the register file keeps one value for each name. -/
theorem namedRegisterKeepsLastWrite : Obligations.NamedRegisterKeepsLastWrite := by
  intro r v s hwf
  have regs : (s.writeReg (s.cfg.offset r) v).nic.regs = s.nic.regs.set r v := State.writeNamed_regs hwf r v
  refine ⟨_, exec_writeReg (offset_aligned hwf r) v s, ?_, fun q hq => ?_⟩
  · rw [State.respond_nic, regs, RegFile.get_set_self]
  · rw [State.respond_nic, regs, RegFile.get_set_of_ne _ hq]

end Sys2Proof.Machine
end

section
/-! PROOF. What each command can store, and what it keeps: one frame for every instruction, and with it the machine's
invariant, the history, and which instruction changes which register. -/

namespace Sys2Proof.Machine

/-! ### The bytes a command may store -/

/-- The bytes of ordinary memory that an access at `s.base + off` reaches. -/
def regBytes (s : State) (off : Word) (a : Nat) : Prop := isByteOf (regAddr s.base off) 4 a ∧ s.cfg.inRam a

/-- The bytes of ordinary memory that an access of a named register reaches. -/
def namedBytes (s : State) (a : Nat) : Prop := ∃ r, regBytes s (s.cfg.offset r) a

theorem not_namedBytes_of_windowClear {s : State} (h : s.cfg.windowClear s.base) (a : Nat) : ¬ namedBytes s a :=
  fun ⟨r, bytes, ram⟩ => not_inRam_of_windowClear h r bytes ram

/-- The bytes a send stores itself: the frame, and the length, command and status fields of the descriptor (R200). -/
def sendBytes (c : Cfg) (i : Slot) (a : Nat) : Prop :=
  isByteOf (txBuf c i) 98 a ∨ isByteOf (txDesc c i + txdLen) 2 a ∨ a = (txDesc c i + txdCmd).toNat ∨
    a = (txDesc c i + txdStatus).toNat

/-- The bytes recycling an RX slot stores: the status and length fields of its descriptor (R210). -/
def recycleBytes (c : Cfg) (j : Slot) (a : Nat) : Prop :=
  a = (rxDesc c j + rxdStatus).toNat ∨ isByteOf (rxDesc c j + rxdLen) 2 a

/-- The bytes of the two descriptor arrays (R44). -/
def ringBytes (c : Cfg) (a : Nat) : Prop := ∃ i : Slot, isByteOf (txDesc c i) 16 a ∨ isByteOf (rxDesc c i) 16 a

/-- The bytes an instruction may store, beside the controller's own writes. -/
def stores (s : State) : Instr → Nat → Prop
  | .init, a => namedBytes s a ∨ ringBytes s.cfg a
  | .sendEcho _, a => namedBytes s a ∨ sendBytes s.cfg (slotOf s.txTail) a
  | .checkReply, a => namedBytes s a ∨ recycleBytes s.cfg (nextSlot (slotOf s.rxTail)) a
  | .writeReg off _, a => regBytes s off a
  | .buildFrame _, a => isByteOf (txBuf s.cfg (slotOf s.txTail)) 98 a
  | .findDevice, _ | .readReg _, _ | .delay _, _ | .fence, _ | .checksum _ _, _ => False

/-! ### SEND_ECHO (R200 to R202) -/

/-- The first half of a send is a piece of bus work and then the tail cursor. -/
theorem State.enqueue_op (s : State) (seq : Half) (P : Nat → Prop) (regs : RegsIn P s)
    (hP : ∀ a, sendBytes s.cfg (slotOf s.txTail) a → P a) :
    ∃ u, OpKeeps P s u ∧ s.enqueue seq = u.setTxTail (slotWord (nextSlot (slotOf s.txTail))) := by
  have built := s.buildFrame_op seq P fun a h => hP a (Or.inl h)
  have filled := built.trans (State.fillTxDesc_op (s.buildFrame seq) (slotOf s.txTail) P
    fun a h => hP a (Or.inr (built.cfg ▸ h)))
  obtain ⟨u, published, e⟩ := State.publishTx_op _ (slotOf s.txTail) P (regs.keep filled)
  exact ⟨u, filled.trans published, e⟩

/-- The second half of a send stores nothing (R201, R202). -/
theorem State.finishSend_op (s : State) (i : Slot) (n : Nat) (P : Nat → Prop) :
    OpKeeps P s (State.finishTx (State.pollTx i n s)) :=
  (State.pollTx_op i n s P).trans (State.finishTx_op _ P)

theorem State.finishSend_opNic (s : State) (i : Slot) (n : Nat) :
    OpKeepsNic s (State.finishTx (State.pollTx i n s)) :=
  OpKeepsNic.trans (State.pollTx_op i n s fun _ => False) (State.pollTx_opNic i n s) (State.finishTx_opNic _)

@[simp] theorem State.writeNamed_pciCommand (s : State) (r : Reg) (v : Word) :
    (s.writeNamed r v).pciCommand = s.pciCommand := s.writeReg_pciCommand _ v

@[simp] theorem State.readNamed_pciCommand (s : State) (r : Reg) : (s.readNamed r).2.pciCommand = s.pciCommand :=
  s.readReg_pciCommand _

@[simp] theorem State.fence_pciCommand (s : State) : s.fence.pciCommand = s.pciCommand := s.fence_opNic.pciCommand

@[simp] theorem State.delay_pciCommand (s : State) (n : Nat) : (s.delay n).pciCommand = s.pciCommand :=
  (s.delay_opNic n).pciCommand

@[simp] theorem State.memWrite_pciCommand (s : State) (a : Addr) (n : Nat) (v : BitVec 64) :
    (s.memWrite a n v).pciCommand = s.pciCommand := (s.memWrite_opNic a n v).pciCommand

theorem State.enqueue_pciCommand (s : State) (seq : Half) : (s.enqueue seq).pciCommand = s.pciCommand := by
  simp [State.enqueue, State.publishTx, (State.fillTxDesc_opNic _ _).pciCommand, (s.buildFrame_opNic seq).pciCommand]

/-! ### CHECK_REPLY (R210) -/

/-- The reads of a frame in an RX slot: its length and two bytes. -/
theorem State.readFrame_op (s : State) (a b d : Addr) (P : Nat → Prop) :
    OpKeeps P s (((s.memRead a 2).2.readByte b).2.readByte d).2 :=
  (s.memRead_op a (by decide) P).trans ((State.memRead_op _ b (by decide) P).trans (State.memRead_op _ d (by decide) P))

theorem State.readFrame_opNic (s : State) (a b d : Addr) :
    OpKeepsNic s (((s.memRead a 2).2.readByte b).2.readByte d).2 :=
  OpKeepsNic.trans (s.memRead_op a (by decide) fun _ => False) (s.memRead_opNic a 2)
    (OpKeepsNic.trans (State.memRead_op _ b (by decide) fun _ => False) (State.memRead_opNic _ b 1)
      (State.memRead_opNic _ d 1))

/-- The look at a slot's status. -/
theorem State.lookRx_op (s : State) (a : Addr) (P : Nat → Prop) : OpKeeps P s (s.readByte a).2.fence :=
  (s.memRead_op a (by decide) P).trans (State.fence_op _ P)

theorem State.lookRx_opNic (s : State) (a : Addr) : OpKeepsNic s (s.readByte a).2.fence :=
  OpKeepsNic.trans (s.memRead_op a (by decide) fun _ => False) (s.memRead_opNic a 1) (State.fence_opNic _)

/-- Consuming a frame is a piece of bus work, then the RX cursor, then the response. -/
theorem State.consumeRx_op (s : State) (j : Slot) (P : Nat → Prop) (regs : RegsIn P s)
    (hP : ∀ a, recycleBytes s.cfg j a → P a) :
    ∃ u r, OpKeeps P s u ∧ s.consumeRx j = (u.setRxTail (slotWord j)).respond r := by
  have read := s.readFrame_op (rxDesc s.cfg j + rxdLen) (rxBuf s.cfg j + 23) (rxBuf s.cfg j + 34) P
  obtain ⟨u, recycled, e⟩ := State.recycleRx_op _ j P (regs.keep read) fun a h => hP a (read.cfg ▸ h.symm)
  exact ⟨u, _, read.trans recycled, congrArg (State.respond · _) e⟩

/-- `CHECK_REPLY` either only looks at the slot, or it is a piece of bus work and then the RX cursor. -/
theorem State.inspectRx_op (s : State) (j : Slot) (P : Nat → Prop) (regs : RegsIn P s)
    (hP : ∀ a, recycleBytes s.cfg j a → P a) :
    ∃ u r, OpKeeps P s u ∧
      (OpKeepsNic s u ∧ s.inspectRx j = u.respond r ∨ s.inspectRx j = (u.setRxTail (slotWord j)).respond r) := by
  have looked := s.lookRx_op (rxDesc s.cfg j + rxdStatus) P
  rcases s.inspectRx_cases j with ⟨-, e⟩ | ⟨-, e⟩
  · obtain ⟨u, r, consumed, e'⟩ := State.consumeRx_op _ j P (regs.keep looked) fun a h => hP a (looked.cfg ▸ h)
    exact ⟨u, r, looked.trans consumed, Or.inr (e.trans e')⟩
  · exact ⟨_, _, looked, Or.inl ⟨s.lookRx_opNic _, e⟩⟩

theorem State.recycleRx_pciCommand (s : State) (j : Slot) : (s.recycleRx j).pciCommand = s.pciCommand := by
  simp [State.recycleRx]

theorem State.inspectRx_pciCommand (s : State) (j : Slot) : (s.inspectRx j).pciCommand = s.pciCommand := by
  have looked := (s.lookRx_opNic (rxDesc s.cfg j + rxdStatus)).pciCommand
  rcases s.inspectRx_cases j with ⟨-, e⟩ | ⟨-, e⟩ <;> rw [e]
  · exact ((State.recycleRx_pciCommand _ j).trans (State.readFrame_opNic _ _ _ _).pciCommand).trans looked
  · exact looked

/-! ### FIND_DEVICE (R150) -/

/-- What the scan leaves alone beside what every piece of a command keeps: the cursors, the phase, the controller. -/
structure ScanKeeps (s t : State) : Prop where
  txTail : t.txTail = s.txTail
  rxTail : t.rxTail = s.rxTail
  phase : t.phase = s.phase
  regs : t.nic.regs = s.nic.regs
  quiet : s.Quiet → t.Quiet
  nic : s.Quiet → t.nic = s.nic

theorem ScanKeeps.refl (s : State) : ScanKeeps s s := ⟨rfl, rfl, rfl, rfl, id, fun _ => rfl⟩

theorem ScanKeeps.trans {s t u : State} (h : ScanKeeps s t) (g : ScanKeeps t u) : ScanKeeps s u :=
  ⟨g.txTail.trans h.txTail, g.rxTail.trans h.rxTail, g.phase.trans h.phase, g.regs.trans h.regs,
    fun q => g.quiet (h.quiet q), fun q => (g.nic (h.quiet q)).trans (h.nic q)⟩

theorem State.cfgRead_scan (s : State) (bus slot : Nat) (off : Byte) : ScanKeeps s (s.cfgRead bus slot off).2 := by
  have keeps := s.cfgRead_op bus slot off fun _ => False
  have keepsNic := s.cfgRead_opNic bus slot off
  exact ⟨keeps.txTail, keeps.rxTail, keeps.phase, keepsNic.regs, keeps.quiet, keepsNic.nic⟩

theorem State.cfgWriteCommand_scan (s : State) (bus slot : Nat) (v : Word) :
    ScanKeeps s (s.cfgWriteCommand bus slot v) :=
  ⟨s.nicTurn_txTail, s.nicTurn_rxTail, s.nicTurn_phase, s.cfgWriteCommand_regs bus slot v, State.nicTurn_quiet,
    s.cfgWriteCommand_nic bus slot v⟩

theorem State.setBase_scan (s : State) (v : Word) : ScanKeeps s (s.setBase v) :=
  ⟨rfl, rfl, rfl, rfl, id, fun _ => rfl⟩

theorem State.claimDevice_scan (s : State) (bus slot : Nat) : ScanKeeps s (s.claimDevice bus slot) :=
  (s.cfgRead_scan bus slot _).trans ((State.cfgWriteCommand_scan _ bus slot _).trans
    ((State.cfgRead_scan _ bus slot _).trans (State.setBase_scan _ _)))

theorem State.scan_scan (ps : List (Nat × Nat)) (s : State) : ScanKeeps s (s.scan ps).2 := by
  induction ps generalizing s with
  | nil => exact ScanKeeps.refl s
  | cons p ps ih =>
    unfold State.scan
    split_ifs
    · exact (s.cfgRead_scan _ _ _).trans (State.claimDevice_scan _ _ _)
    · exact (s.cfgRead_scan _ _ _).trans (ih _)

/-- The low four bits of a base taken from a base-address register are 0 (R122). -/
theorem mmioBase_low (bar : Word) : mmioBase bar &&& 0xF = 0 := by
  have masks : (0xFFFFFFF0 : Word) &&& 0xF = 0 := by decide
  rw [mmioBase, BitVec.and_assoc, masks]
  exact BitVec.and_zero

/-- The base after a scan: as before, with the PCI command register, if nothing matched; else with its low four bits 0. -/
theorem State.scan_base (ps : List (Nat × Nat)) (s : State) :
    ((s.scan ps).1 = false ∧ (s.scan ps).2.base = s.base ∧ (s.scan ps).2.pciCommand = s.pciCommand) ∨
    ((s.scan ps).1 = true ∧ (s.scan ps).2.base &&& 0xF = 0) := by
  induction ps generalizing s with
  | nil => exact Or.inl ⟨rfl, rfl, rfl⟩
  | cons p ps ih =>
    have base := (s.cfgRead_op p.1 p.2 s.cfg.pciIdOff fun _ => False).base
    have pci := (s.cfgRead_opNic p.1 p.2 s.cfg.pciIdOff).pciCommand
    unfold State.scan
    split_ifs
    · exact Or.inr ⟨rfl, mmioBase_low _⟩
    · refine (ih (s.cfgRead p.1 p.2 s.cfg.pciIdOff).2).imp_left fun ⟨h1, h2, h3⟩ => ⟨h1, h2.trans base, h3.trans pci⟩

/-- Settles O24: a scan stores nothing in memory; its claim masks the low bits of the base. -/
theorem findDeviceFrame : Obligations.FindDeviceFrame := by
  intro s
  have run := State.scan_run pciFunctions s fun _ => False
  have keeps := State.scan_scan pciFunctions s
  have base := State.scan_base pciFunctions s
  refine ⟨_, _, exec_findDevice s, rfl, fun failed => ?_, fun found => ?_, ⟨run.cfg, run.mac, run.caller⟩, keeps.txTail,
    keeps.rxTail, keeps.phase, ⟨keeps.regs, keeps.nic⟩, run.frame⟩
  · rcases base with ⟨-, hbase, hpci⟩ | ⟨found, -⟩
    · exact ⟨hbase, hpci⟩
    · rw [failed] at found; cases found
  · rcases base with ⟨failed, -, -⟩ | ⟨-, low⟩
    · rw [found] at failed; cases failed
    · exact low

/-! ### INIT (R160) -/

/-- What every step of `INIT` keeps: what a piece of a command keeps, the base and the PCI command register. -/
structure InitKeeps (P : Nat → Prop) (s t : State) : Prop where
  run : RunKeeps P s t
  base : t.base = s.base
  pciCommand : t.pciCommand = s.pciCommand

theorem InitKeeps.trans {P : Nat → Prop} {s t u : State} (h : InitKeeps P s t) (g : InitKeeps P t u) :
    InitKeeps P s u :=
  ⟨h.run.trans g.run, g.base.trans h.base, g.pciCommand.trans h.pciCommand⟩

theorem OpKeeps.init {P : Nat → Prop} {s t : State} (h : OpKeeps P s t) (pci : t.pciCommand = s.pciCommand) :
    InitKeeps P s t := ⟨h.run, h.base, pci⟩

theorem RegsIn.keepInit {P Q : Nat → Prop} {s t : State} (h : RegsIn P s) (k : InitKeeps Q s t) : RegsIn P t := by
  intro r x hx
  rw [k.run.cfg, k.base] at hx
  exact h r x hx

theorem State.clearRxDesc_opNic (s : State) (i : Slot) : OpKeepsNic s (s.clearRxDesc i) := by
  have w : ∀ (u : State) (a : Addr) (n : Nat) (v : BitVec 64), n ≠ 4 → OpKeeps (fun _ => True) u (u.memWrite a n v) :=
    fun u a n v hn => u.memWrite_op a hn v _ fun _ _ => trivial
  exact .trans (w _ _ 8 _ (by decide)) (State.memWrite_opNic _ _ _ _) (.trans (w _ _ 2 _ (by decide))
    (State.memWrite_opNic _ _ _ _) (.trans (w _ _ 2 _ (by decide)) (State.memWrite_opNic _ _ _ _)
      (.trans (w _ _ 1 _ (by decide)) (State.memWrite_opNic _ _ _ _) (.trans (w _ _ 1 _ (by decide))
        (State.memWrite_opNic _ _ _ _) (State.memWrite_opNic _ _ _ _)))))

theorem State.clearTxDesc_opNic (s : State) (i : Slot) : OpKeepsNic s (s.clearTxDesc i) := by
  have w : ∀ (u : State) (a : Addr) (n : Nat) (v : BitVec 64), n ≠ 4 → OpKeeps (fun _ => True) u (u.memWrite a n v) :=
    fun u a n v hn => u.memWrite_op a hn v _ fun _ _ => trivial
  exact .trans (w _ _ 8 _ (by decide)) (State.memWrite_opNic _ _ _ _) (.trans (w _ _ 2 _ (by decide))
    (State.memWrite_opNic _ _ _ _) (.trans (w _ _ 1 _ (by decide)) (State.memWrite_opNic _ _ _ _)
      (.trans (w _ _ 1 _ (by decide)) (State.memWrite_opNic _ _ _ _) (.trans (w _ _ 1 _ (by decide))
        (State.memWrite_opNic _ _ _ _) (.trans (w _ _ 1 _ (by decide)) (State.memWrite_opNic _ _ _ _)
          (State.memWrite_opNic _ _ _ _))))))

/-- Writing a whole ring leaves what writing one descriptor leaves. -/
theorem foldl_opNic {f : State → Slot → State} (op : ∀ s i, OpKeeps (fun _ => True) s (f s i))
    (opNic : ∀ s i, OpKeepsNic s (f s i)) (is : List Slot) (s : State) : OpKeepsNic s (is.foldl f s) := by
  induction is generalizing s with
  | nil => exact .refl s
  | cons i is ih => exact .trans (op s i) (opNic s i) (ih _)

theorem State.initStep6_opNic (s : State) : OpKeepsNic s s.initStep6 :=
  foldl_opNic (fun u i => u.clearRxDesc_op i _ fun _ _ => trivial) State.clearRxDesc_opNic _ s

theorem State.initStep10_opNic (s : State) : OpKeepsNic s s.initStep10 :=
  foldl_opNic (fun u i => u.clearTxDesc_op i _ fun _ _ => trivial) State.clearTxDesc_opNic _ s

/-- A step that is a piece of bus work and then the phase. -/
theorem OpKeeps.initPhase {P : Nat → Prop} {s t : State} {p : Phase} (h : ∃ u, OpKeeps P s u ∧ t = u.setPhase p)
    (pci : t.pciCommand = s.pciCommand) : InitKeeps P s t := by
  obtain ⟨u, keeps, rfl⟩ := h
  exact ⟨keeps.run.trans (State.setPhase_run u p P), keeps.base, pci⟩

theorem State.initStep1_init (s : State) (P : Nat → Prop) (regs : RegsIn P s) : InitKeeps P s s.initStep1 :=
  (s.initStep1_op P regs).init (by simp [State.initStep1])

theorem State.initStep2_init (s : State) (P : Nat → Prop) : InitKeeps P s s.initStep2 :=
  (s.initStep2_op P).init (by simp [State.initStep2])

theorem State.initStep3_init (s : State) (P : Nat → Prop) (regs : RegsIn P s) : InitKeeps P s s.initStep3 :=
  (s.initStep3_op P regs).init (by simp [State.initStep3])

theorem State.initStep4_init (s : State) (P : Nat → Prop) : InitKeeps P s s.initStep4 :=
  (s.initStep4_op P).init (by simp [State.initStep4])

theorem State.initStep5_init (s : State) (P : Nat → Prop) (regs : RegsIn P s) : InitKeeps P s s.initStep5 :=
  OpKeeps.initPhase (s.initStep5_op P regs) (by simp [State.initStep5])

theorem State.initStep6_init (s : State) (P : Nat → Prop) (ring : ∀ a, ringBytes s.cfg a → P a) :
    InitKeeps P s s.initStep6 :=
  (s.initStep6_op P fun i a h => ring a ⟨i, Or.inr h⟩).init s.initStep6_opNic.pciCommand

theorem State.initStep7_init (s : State) (P : Nat → Prop) (regs : RegsIn P s) : InitKeeps P s s.initStep7 := by
  obtain ⟨u, keeps, e⟩ := s.initStep7_op P regs
  exact ⟨e ▸ keeps.run.trans (u.setRxTail_run 7 P), e ▸ keeps.base, by simp [State.initStep7]⟩

theorem State.initStep8_init (s : State) (P : Nat → Prop) (regs : RegsIn P s) : InitKeeps P s s.initStep8 :=
  OpKeeps.initPhase (s.initStep8_op P regs) (by simp [State.initStep8])

theorem State.initStep9_init (s : State) (P : Nat → Prop) (regs : RegsIn P s) : InitKeeps P s s.initStep9 :=
  OpKeeps.initPhase (s.initStep9_op P regs) (by simp [State.initStep9])

theorem State.initStep10_init (s : State) (P : Nat → Prop) (ring : ∀ a, ringBytes s.cfg a → P a) :
    InitKeeps P s s.initStep10 :=
  (s.initStep10_op P fun i a h => ring a ⟨i, Or.inl h⟩).init s.initStep10_opNic.pciCommand

theorem State.initStep11_init (s : State) (P : Nat → Prop) (regs : RegsIn P s) : InitKeeps P s s.initStep11 := by
  obtain ⟨u, keeps, e⟩ := s.initStep11_op P regs
  exact ⟨e ▸ keeps.run.trans ((u.setTxTail_run 0 P).trans (State.setPhase_run _ _ P)), e ▸ keeps.base,
    by simp [State.initStep11]⟩

theorem State.initStep12_init (s : State) (P : Nat → Prop) (regs : RegsIn P s) : InitKeeps P s s.initStep12 :=
  OpKeeps.initPhase (s.initStep12_op P regs) (by simp [State.initStep12])

/-- Steps 1 to 4. -/
theorem State.initStep4_init' (s : State) (P : Nat → Prop) (regs : RegsIn P s) :
    InitKeeps P s s.initStep1.initStep2.initStep3.initStep4 := by
  have k2 := (s.initStep1_init P regs).trans (State.initStep2_init _ P)
  exact (k2.trans (State.initStep3_init _ P (regs.keepInit k2))).trans (State.initStep4_init _ P)

/-- Steps 1 to 5 store nothing but where a register access reaches memory. -/
theorem State.initReset_init (s : State) (P : Nat → Prop) (regs : RegsIn P s) : InitKeeps P s s.initReset := by
  have k4 := s.initStep4_init' P regs
  exact k4.trans (State.initStep5_init _ P (regs.keepInit k4))

/-- Steps 6 to 9 store the RX ring besides. -/
theorem State.initReceive_init (s : State) (P : Nat → Prop) (regs : RegsIn P s) (ring : ∀ a, ringBytes s.cfg a → P a) :
    InitKeeps P s s.initReceive := by
  have k6 := s.initStep6_init P ring
  have k7 := k6.trans (State.initStep7_init _ P (regs.keepInit k6))
  have k8 := k7.trans (State.initStep8_init _ P (regs.keepInit k7))
  exact k8.trans (State.initStep9_init _ P (regs.keepInit k8))

/-- Steps 10 to 12 store the TX ring besides. -/
theorem State.initTransmit_init (s : State) (P : Nat → Prop) (regs : RegsIn P s)
    (ring : ∀ a, ringBytes s.cfg a → P a) : InitKeeps P s s.initTransmit := by
  have k10 := s.initStep10_init P ring
  have k11 := k10.trans (State.initStep11_init _ P (regs.keepInit k10))
  exact k11.trans (State.initStep12_init _ P (regs.keepInit k11))

/-- `INIT` stores the two rings, and where a register access reaches memory. -/
theorem State.init_init (s : State) (P : Nat → Prop) (regs : RegsIn P s) (ring : ∀ a, ringBytes s.cfg a → P a) :
    InitKeeps P s s.initReset.initReceive.initTransmit := by
  have k5 := s.initReset_init P regs
  have k9 := k5.trans (State.initReceive_init _ P (regs.keepInit k5) fun a h => ring a (k5.run.cfg ▸ h))
  exact k9.trans (State.initTransmit_init _ P (regs.keepInit k9) fun a h => ring a (k9.run.cfg ▸ h))

theorem RegsIn.all (s : State) : RegsIn (fun _ => True) s := fun _ _ _ => trivial

/-- Settles O25: each step is a piece of bus work, which leaves the phase, and then the phase its row of the table
names. -/
theorem initEntersPhasesInOrder : Obligations.InitEntersPhasesInOrder := by
  intro s
  have regs := RegsIn.all s
  obtain ⟨u5, -, e5⟩ := s.initStep5_op _ regs
  obtain ⟨u7, k7, e7⟩ := s.initStep7_op _ regs
  obtain ⟨u8, -, e8⟩ := s.initStep8_op _ regs
  obtain ⟨u9, -, e9⟩ := s.initStep9_op _ regs
  obtain ⟨u11, -, e11⟩ := s.initStep11_op _ regs
  obtain ⟨u12, -, e12⟩ := s.initStep12_op _ regs
  exact ⟨(s.initStep1_op _ regs).phase, (s.initStep2_op fun _ => True).phase, (s.initStep3_op _ regs).phase,
    (s.initStep4_op fun _ => True).phase, by rw [e5]; rfl, (s.initStep6_op _ fun _ _ _ => trivial).phase,
    by rw [e7]; exact k7.phase, by rw [e8]; rfl, by rw [e9]; rfl, (s.initStep10_op _ fun _ _ _ => trivial).phase,
    by rw [e11]; rfl, by rw [e12]; rfl,
    by rw [exec_init, State.initTransmit, State.initReceive, State.initReset]⟩

/-! ### Every command -/

theorem OpKeeps.respond {P : Nat → Prop} {s t : State} (h : OpKeeps P s t) (r : Response) : RunKeeps P s (t.respond r) :=
  h.run.trans (t.respond_run r P)

/-- What `INIT` answers: its twelve steps and the response. -/
theorem exec_init_eq {s t : State} (h : exec .init s = .next t) :
    ∃ u, s.initReset.initReceive.initTransmit = u ∧ t = u.respond ⟨false, true, 0⟩ :=
  ⟨_, rfl, (Host.Outcome.next.inj ((exec_init s).symm.trans h)).symm⟩

/-- What any command can do: it stores its own bytes, adds events and keeps the rest of the machine's invariant. -/
theorem exec_run {i : Instr} {s t : State} (h : exec i s = .next t) : RunKeeps (stores s i) s t := by
  have named : ∀ {P : Nat → Prop}, (∀ a, namedBytes s a → P a) → RegsIn P s := fun hP r a ha => hP a ⟨r, ha⟩
  cases i with
  | findDevice =>
    rw [exec_findDevice] at h
    cases h
    exact (State.scan_run _ s _).trans (State.respond_run _ _ _)
  | init =>
    obtain ⟨u, rfl, rfl⟩ := exec_init_eq h
    exact (s.init_init _ (named fun _ => Or.inl) fun _ => Or.inr).run.trans (State.respond_run _ _ _)
  | sendEcho seq =>
    rw [exec_sendEcho] at h
    cases h
    obtain ⟨u, keeps, e⟩ := s.enqueue_op seq (stores s (.sendEcho seq)) (named fun _ => Or.inl) fun _ => Or.inr
    refine RunKeeps.trans ?_ ((State.finishSend_op _ _ _ _).respond _)
    rw [e]
    exact keeps.run.trans (State.setTxTail_run _ _ _)
  | checkReply =>
    rw [exec_checkReply] at h
    cases h
    obtain ⟨u, r, keeps, ⟨-, e⟩ | e⟩ := s.inspectRx_op (nextSlot (slotOf s.rxTail)) (stores s .checkReply)
      (named fun _ => Or.inl) fun _ => Or.inr
    · rw [e]
      exact keeps.respond r
    · rw [e]
      exact (keeps.run.trans (State.setRxTail_run _ _ _)).trans (State.respond_run _ _ _)
  | readReg off =>
    by_cases aligned : off.toNat % 4 = 0
    · rw [exec_readReg aligned] at h
      cases h
      exact (s.readReg_op off _).respond _
    · rw [exec_readReg_misaligned aligned] at h
      cases h
  | writeReg off v =>
    by_cases aligned : off.toNat % 4 = 0
    · rw [exec_writeReg aligned] at h
      cases h
      exact (s.writeReg_op off v _ fun _ h => h).respond _
    · rw [exec_writeReg_misaligned aligned] at h
      cases h
  | delay n =>
    cases h
    exact (s.delay_op _ _).respond _
  | fence =>
    cases h
    exact (s.fence_op _).respond _
  | checksum start len =>
    by_cases range : start.toNat + len.toNat ≤ 2048
    · rw [exec_checksum range] at h
      cases h
      exact (State.readBytes_op _ s _ _).respond _
    · rw [exec_checksum_refused (by omega)] at h
      cases h
      exact s.respond_run _ _
  | buildFrame seq =>
    rw [exec_buildFrame] at h
    obtain rfl := Host.Outcome.next.inj h
    exact (s.buildFrame_op seq _ fun _ h => h).respond _

/-- The session registers, the PCI command register and the controller's last written registers after a command, as far as
they can have changed: which of them an instruction may write (R20, R41, R30). -/
structure MayChange (i : Instr) (s t : State) : Prop where
  base : i ≠ .findDevice → t.base = s.base
  phase : i ≠ .init → t.phase = s.phase
  txTail : i ≠ .init → (∀ q, i ≠ .sendEcho q) → t.txTail = s.txTail
  rxTail : i ≠ .init → i ≠ .checkReply → t.rxTail = s.rxTail
  pciCommand : i ≠ .findDevice → t.pciCommand = s.pciCommand
  regs : i ≠ .init → i ≠ .checkReply → (∀ q, i ≠ .sendEcho q) → (∀ off v, i ≠ .writeReg off v) →
    t.nic.regs = s.nic.regs

/-- A command of bus work that leaves the controller's registers alone changes none of these. -/
theorem OpKeeps.mayChange {P : Nat → Prop} {s t : State} (i : Instr) (h : OpKeeps P s t) (hn : OpKeepsNic s t)
    (r : Response) : MayChange i s (t.respond r) :=
  ⟨fun _ => h.base, fun _ => h.phase, fun _ _ => h.txTail, fun _ _ => h.rxTail, fun _ => hn.pciCommand,
    fun _ _ _ _ => hn.regs⟩

theorem exec_mayChange {i : Instr} {s t : State} (h : exec i s = .next t) : MayChange i s t := by
  cases i with
  | findDevice =>
    rw [exec_findDevice] at h
    cases h
    have keeps := State.scan_scan pciFunctions s
    exact ⟨fun n => absurd rfl n, fun _ => keeps.phase, fun _ _ => keeps.txTail, fun _ _ => keeps.rxTail,
      fun n => absurd rfl n, fun _ _ _ _ => keeps.regs⟩
  | init =>
    have keeps := s.init_init _ (RegsIn.all s) fun _ _ => trivial
    obtain ⟨u, e, rfl⟩ := exec_init_eq h
    rw [e] at keeps
    exact ⟨fun _ => keeps.base, fun n => absurd rfl n, fun n _ => absurd rfl n, fun n _ => absurd rfl n,
      fun _ => keeps.pciCommand, fun n _ _ _ => absurd rfl n⟩
  | sendEcho seq =>
    rw [exec_sendEcho] at h
    cases h
    obtain ⟨u, keeps, e⟩ := s.enqueue_op seq _ (RegsIn.all s) fun _ _ => trivial
    have pci := s.enqueue_pciCommand seq
    have finish := State.finishSend_op (s.enqueue seq) (slotOf s.txTail) s.cfg.txPollMax fun _ => True
    have finishNic := State.finishSend_opNic (s.enqueue seq) (slotOf s.txTail) s.cfg.txPollMax
    exact ⟨fun _ => finish.base.trans (e ▸ keeps.base), fun _ => finish.phase.trans (e ▸ keeps.phase),
      fun _ n => absurd rfl (n seq), fun _ _ => finish.rxTail.trans (e ▸ keeps.rxTail),
      fun _ => finishNic.pciCommand.trans pci, fun _ _ n _ => absurd rfl (n seq)⟩
  | checkReply =>
    rw [exec_checkReply] at h
    cases h
    have pci := s.inspectRx_pciCommand (nextSlot (slotOf s.rxTail))
    obtain ⟨u, r, keeps, ⟨-, e⟩ | e⟩ := s.inspectRx_op (nextSlot (slotOf s.rxTail)) _ (RegsIn.all s)
      fun _ _ => trivial
    all_goals
      exact ⟨fun _ => e ▸ keeps.base, fun _ => e ▸ keeps.phase, fun _ _ => e ▸ keeps.txTail, fun _ n => absurd rfl n,
        fun _ => pci, fun _ n _ _ => absurd rfl n⟩
  | readReg off =>
    by_cases aligned : off.toNat % 4 = 0
    · rw [exec_readReg aligned] at h
      cases h
      have keeps := s.readReg_op off fun _ => True
      exact ⟨fun _ => keeps.base, fun _ => keeps.phase, fun _ _ => keeps.txTail, fun _ _ => keeps.rxTail,
        fun _ => s.readReg_pciCommand off, fun _ _ _ _ => s.readReg_regs off⟩
    · rw [exec_readReg_misaligned aligned] at h
      cases h
  | writeReg off v =>
    by_cases aligned : off.toNat % 4 = 0
    · rw [exec_writeReg aligned] at h
      cases h
      have keeps := s.writeReg_op off v _ fun _ _ => trivial
      exact ⟨fun _ => keeps.base, fun _ => keeps.phase, fun _ _ => keeps.txTail, fun _ _ => keeps.rxTail,
        fun _ => s.writeReg_pciCommand off v, fun _ _ _ n => absurd rfl (n off v)⟩
    · rw [exec_writeReg_misaligned aligned] at h
      cases h
  | delay n =>
    cases h
    exact (s.delay_op _ fun _ => True).mayChange _ (s.delay_opNic _) _
  | fence =>
    cases h
    exact (s.fence_op fun _ => True).mayChange _ s.fence_opNic _
  | checksum start len =>
    by_cases range : start.toNat + len.toNat ≤ 2048
    · rw [exec_checksum range] at h
      cases h
      exact (State.readBytes_op _ s _ fun _ => True).mayChange _ (State.readBytes_opNic _ s _) _
    · rw [exec_checksum_refused (by omega)] at h
      cases h
      exact (OpKeeps.refl (fun _ => True) s).mayChange _ (OpKeepsNic.refl s) _
  | buildFrame seq =>
    rw [exec_buildFrame] at h
    obtain rfl := Host.Outcome.next.inj h
    exact (s.buildFrame_op seq _ fun _ _ => trivial).mayChange _ (s.buildFrame_opNic seq) _

/-- Settles O9: the contraposition of what each instruction may change. -/
theorem onlyTheirWritersChangeRegisters : Obligations.OnlyTheirWritersChangeRegisters := by
  intro i s t h
  have run := exec_run h
  have may := exec_mayChange h
  refine ⟨⟨run.cfg, run.mac, run.caller⟩, ?_, ?_, ?_, ?_, ?_, ?_⟩
  · exact fun changed => by_contra fun n => changed (may.base n)
  · exact fun changed => by_contra fun n => changed (may.phase n)
  · intro changed
    by_contra n
    obtain ⟨n1, n2⟩ := not_or.1 n
    exact changed (may.txTail n1 fun q e => n2 ⟨q, e⟩)
  · intro changed
    by_contra n
    obtain ⟨n1, n2⟩ := not_or.1 n
    exact changed (may.rxTail n1 n2)
  · exact fun changed => by_contra fun n => changed (may.pciCommand n)
  · intro changed
    by_contra n
    obtain ⟨n1, n⟩ := not_or.1 n
    obtain ⟨n2, n⟩ := not_or.1 n
    obtain ⟨n3, n4⟩ := not_or.1 n
    exact changed (may.regs n1 n2 (fun q e => n3 ⟨q, e⟩) fun off v e => n4 ⟨off, v, e⟩)

/-- What every step keeps of the invariant and of the history (R81, R84). -/
theorem step_run {s t : State} (h : step s = .next t) :
    ∃ u, RunKeeps (fun _ => True) u t ∧ u.cfg = s.cfg ∧ u.mac = s.mac ∧ u.events = s.events ∧ u.mem = s.mem ∧
      u.nic = s.nic ∧ (s.BusEnabled → u.BusEnabled) := by
  rcases step_cases s with ⟨-, e⟩ | e | ⟨c, rest, i, -, -, e⟩
  · rw [e] at h
    cases h
    exact ⟨s, (s.nicTurn_op _).run, rfl, rfl, rfl, rfl, rfl, id⟩
  · rw [e] at h
    cases h
    exact ⟨s.takeCommand, State.respond_run _ _ _, rfl, rfl, rfl, rfl, rfl, id⟩
  · rw [e] at h
    exact ⟨s.takeCommand, (exec_run h).mono fun _ _ => trivial, rfl, rfl, rfl, rfl, rfl, id⟩

/-- Settles O10. -/
theorem historyOnlyGrows : Obligations.HistoryOnlyGrows := by
  intro s t h
  obtain ⟨u, run, -, -, events, -⟩ := step_run h
  exact events ▸ run.grows

/-! ### The cursors and the base (R20, R21, R23) -/

theorem slotWord_lt (i : Slot) : (slotWord i).toNat < 8 := by
  revert i
  decide

/-- The cursors in range and the base aligned. -/
def SessionOk (s : State) : Prop := s.txTail.toNat < 8 ∧ s.rxTail.toNat < 8 ∧ s.base &&& 0xF = 0

/-- The cursors after a send. -/
theorem exec_sendEcho_txTail {seq : Half} {s t : State} (h : exec (.sendEcho seq) s = .next t) :
    t.txTail = slotWord (nextSlot (slotOf s.txTail)) := by
  rw [exec_sendEcho] at h
  cases h
  exact (State.finishSend_op _ _ _ fun _ => True).txTail

/-- The cursor after a reply check. -/
theorem exec_checkReply_rxTail {s t : State} (h : exec .checkReply s = .next t) :
    t.rxTail = s.rxTail ∨ t.rxTail = slotWord (nextSlot (slotOf s.rxTail)) := by
  rw [exec_checkReply] at h
  cases h
  obtain ⟨u, r, keeps, ⟨-, e⟩ | e⟩ := s.inspectRx_op (nextSlot (slotOf s.rxTail)) _ (RegsIn.all s) fun _ _ => trivial
  · exact Or.inl (e ▸ keeps.rxTail)
  · exact Or.inr (e ▸ rfl)

/-- The cursors and the phase that `INIT` leaves (R174). -/
theorem State.init_session (s : State) :
    s.initReset.initReceive.initTransmit.txTail = 0 ∧ s.initReset.initReceive.initTransmit.rxTail = 7 ∧
      s.initReset.initReceive.initTransmit.phase = .ready := by
  obtain ⟨u12, k12, e12⟩ := s.initReset.initReceive.initStep10.initStep11.initStep12_op _ (RegsIn.all _)
  obtain ⟨u11, k11, e11⟩ := s.initReset.initReceive.initStep10.initStep11_op _ (RegsIn.all _)
  have k10 := s.initReset.initReceive.initStep10_op _ fun _ _ _ => trivial
  obtain ⟨u9, k9, e9⟩ := s.initReset.initStep6.initStep7.initStep8.initStep9_op _ (RegsIn.all _)
  obtain ⟨u8, k8, e8⟩ := s.initReset.initStep6.initStep7.initStep8_op _ (RegsIn.all _)
  obtain ⟨u7, -, e7⟩ := s.initReset.initStep6.initStep7_op _ (RegsIn.all _)
  have tx11 : s.initReset.initReceive.initStep10.initStep11.txTail = 0 := by rw [e11]; rfl
  have rx11 : s.initReset.initReceive.initStep10.initStep11.rxTail = s.initReset.initReceive.rxTail := by
    rw [e11]; exact k11.rxTail.trans k10.rxTail
  have rx7 : s.initReset.initStep6.initStep7.rxTail = 7 := by rw [e7]; rfl
  have rx9 : s.initReset.initReceive.rxTail = 7 := by
    show s.initReset.initStep6.initStep7.initStep8.initStep9.rxTail = 7
    rw [e9]
    refine k9.rxTail.trans ?_
    rw [e8]
    exact k8.rxTail.trans rx7
  show s.initReset.initReceive.initStep10.initStep11.initStep12.txTail = 0 ∧
    s.initReset.initReceive.initStep10.initStep11.initStep12.rxTail = 7 ∧
    s.initReset.initReceive.initStep10.initStep11.initStep12.phase = .ready
  rw [e12]
  exact ⟨k12.txTail.trans tx11, k12.rxTail.trans (rx11.trans rx9), rfl⟩

/-- Every command keeps the cursors in range and the base aligned. -/
theorem exec_sessionOk {i : Instr} {s t : State} (h : exec i s = .next t) (ok : SessionOk s) : SessionOk t := by
  have may := exec_mayChange h
  obtain ⟨tx, rx, base⟩ := ok
  refine ⟨?_, ?_, ?_⟩
  · cases i with
    | init =>
      obtain ⟨u, e, rfl⟩ := exec_init_eq h
      obtain ⟨tx0, rx7, -⟩ := s.init_session
      rw [State.respond_txTail, ← e, tx0]
      decide
    | sendEcho seq =>
      rw [exec_sendEcho_txTail h]
      exact slotWord_lt _
    | _ =>
      rw [may.txTail (by simp) (by simp)]
      exact tx
  · cases i with
    | init =>
      obtain ⟨u, e, rfl⟩ := exec_init_eq h
      obtain ⟨tx0, rx7, -⟩ := s.init_session
      rw [State.respond_rxTail, ← e, rx7]
      decide
    | checkReply =>
      rcases exec_checkReply_rxTail h with e | e <;> rw [e]
      · exact rx
      · exact slotWord_lt _
    | _ =>
      rw [may.rxTail (by simp) (by simp)]
      exact rx
  · cases i with
    | findDevice =>
      rw [exec_findDevice] at h
      cases h
      rcases State.scan_base pciFunctions s with ⟨-, e, -⟩ | ⟨-, low⟩
      · show (s.scan pciFunctions).2.base &&& 0xF = 0
        rw [e]
        exact base
      · exact low
    | _ =>
      rw [may.base (by simp)]
      exact base

/-- Every step keeps the cursors in range and the base aligned. -/
theorem step_sessionOk {s t : State} (h : step s = .next t) (ok : SessionOk s) : SessionOk t := by
  rcases step_cases s with ⟨-, e⟩ | e | ⟨c, rest, i, -, -, e⟩ <;> rw [e] at h
  · cases h
    simpa [SessionOk] using ok
  · cases h
    exact ok
  · exact exec_sessionOk h ok

/-- Settles O3: what every piece of a command keeps, with the cursors and the base. -/
theorem everyStepKeepsInvariant : Obligations.EveryStepKeepsInvariant := by
  rintro s t ⟨tx, rx, mac, base, mem, fenced, bus, jobs⟩ h
  obtain ⟨tx', rx', base'⟩ := step_sessionOk h ⟨tx, rx, base⟩
  obtain ⟨u, run, ucfg, umac, uevents, umem, unic, ubus⟩ := step_run h
  have mac' : t.mac = t.cfg.macAddr := by rw [run.mac, run.cfg, umac, ucfg, mac]
  exact ⟨tx', rx', mac', base', run.wf (umem ▸ mem), run.fenced (uevents ▸ fenced), run.bus (ubus bus),
    run.jobs (unic ▸ jobs)⟩

theorem hasBits_or_left (x m : Word) : hasBits (m ||| x) m = true := by
  simpa [hasBits] using and_mask_of_or 0 x m

theorem hasBits_or_right (x m : Word) : hasBits (x ||| m) m = true := by
  rw [BitVec.or_comm]
  exact hasBits_or_left x m

/-- Settles O2: the memory and the history of the reset state are empty, its cursors and base 0, its PCI command register the
two enable bits. -/
theorem invariantHoldsAtReset : Obligations.InvariantHoldsAtReset := by
  have mem : State.reset.mem.wf := ⟨List.Pairwise.nil, fun c hc => absurd hc List.not_mem_nil⟩
  have bus : State.reset.BusEnabled := ⟨hasBits_or_left _ _, hasBits_or_right _ _⟩
  have jobs : State.reset.nic.JobsOk :=
    ⟨fun j hj => absurd hj List.not_mem_nil, fun f hf => absurd hf List.not_mem_nil⟩
  exact ⟨by decide, by decide, rfl, by decide, mem, rfl, bus, jobs⟩

end Sys2Proof.Machine
end

section
/-! PROOF. The controller's registers as last written: what each command leaves in them, how they follow the cursors (R28),
and how the controller takes a write (R74, R86). -/

namespace Sys2Proof.Machine

/-! ### The parameter record under the operations -/

@[simp] theorem State.fence_cfg (s : State) : s.fence.cfg = s.cfg := (s.fence_op fun _ => True).cfg
@[simp] theorem State.delay_cfg (s : State) (n : Nat) : (s.delay n).cfg = s.cfg := (s.delay_op n fun _ => True).cfg
@[simp] theorem State.writeNamed_cfg (s : State) (r : Reg) (v : Word) : (s.writeNamed r v).cfg = s.cfg :=
  (s.writeReg_op _ v _ fun _ _ => trivial).cfg
@[simp] theorem State.readNamed_cfg (s : State) (r : Reg) : (s.readNamed r).2.cfg = s.cfg :=
  (s.readReg_op _ fun _ => True).cfg
@[simp] theorem State.memWrite_cfg (s : State) (a : Addr) (n : Nat) (v : BitVec 64) : (s.memWrite a n v).cfg = s.cfg :=
  s.nicTurn_cfg

/-! ### The registers after INIT (R174) -/

@[simp] theorem State.fence_regs (s : State) : s.fence.nic.regs = s.nic.regs := s.fence_opNic.regs
@[simp] theorem State.delay_regs (s : State) (n : Nat) : (s.delay n).nic.regs = s.nic.regs := (s.delay_opNic n).regs
@[simp] theorem State.readNamed_regs (s : State) (r : Reg) : (s.readNamed r).2.nic.regs = s.nic.regs := s.readReg_regs _

/-- `writeReg` of a named register, the parameter record being `c`. -/
theorem writeNamed_regs_of_cfg {c : Cfg} (h : c.WF) (s : State) (r : Reg) (v : Word) (hc : s.cfg = c) :
    (s.writeNamed r v).nic.regs = s.nic.regs.set r v := State.writeNamed_regs (hc ▸ h) r v

/-- The registers that steps 1 to 5 write: the mask twice, and the control register with the value step 3 read (R162 to
R166). -/
theorem State.initReset_regs {s : State} (h : s.cfg.WF) :
    s.initReset.nic.regs = ((s.nic.regs.set .imask s.cfg.imaskAll).set .ctrl
      ((s.initStep1.initStep2.readNamed .ctrl).1 ||| s.cfg.ctrlRst)).set .imask s.cfg.imaskAll := by
  have cfg2 : s.initStep1.initStep2.cfg = s.cfg := by simp [State.initStep2, State.initStep1]
  have cfg4 : s.initStep1.initStep2.initStep3.initStep4.cfg = s.cfg := by
    simp [State.initStep4, State.initStep3, cfg2]
  have regs2 : s.initStep1.initStep2.nic.regs = s.nic.regs.set .imask s.cfg.imaskAll := by
    simp [State.initStep2, State.initStep1, writeNamed_regs_of_cfg h]
  have regs4 : s.initStep1.initStep2.initStep3.initStep4.nic.regs = (s.nic.regs.set .imask s.cfg.imaskAll).set .ctrl
      ((s.initStep1.initStep2.readNamed .ctrl).1 ||| s.cfg.ctrlRst) := by
    rw [State.initStep4, State.delay_regs, State.initStep3, writeNamed_regs_of_cfg h _ _ _ (by simp [cfg2])]
    simp [regs2, cfg2]
  rw [State.initReset, State.initStep5, State.setPhase_nic, writeNamed_regs_of_cfg h _ _ _ (by simp [cfg4])]
  simp [regs4, cfg4]

/-- The registers that steps 6 to 9 write: the RX ring, the filter pair and the receive control (R168 to R170). -/
theorem State.initReceive_regs {s : State} (h : s.cfg.WF) :
    s.initReceive.nic.regs = (((((((s.nic.regs.set .rdbal (baseLow s.cfg.rxDescBase)).set .rdbah
      (baseHigh s.cfg.rxDescBase)).set .rdlen ringLength).set .rdh 0).set .rdt 7).set .macfLo (macfLo s.mac)).set .macfHi
      (macfHi s.mac)).set .rctl (rctlValue s.cfg) := by
  have op6 := s.initStep6_op _ fun _ _ _ => trivial
  have run7 := (State.initStep7_init s.initStep6 _ (RegsIn.all _)).run
  have run8 := (State.initStep8_init s.initStep6.initStep7 _ (RegsIn.all _)).run
  have cfg7 : s.initStep6.initStep7.cfg = s.cfg := run7.cfg.trans op6.cfg
  have cfg8 : s.initStep6.initStep7.initStep8.cfg = s.cfg := run8.cfg.trans cfg7
  have mac7 : s.initStep6.initStep7.mac = s.mac := run7.mac.trans op6.mac
  have regs7 : s.initStep6.initStep7.nic.regs = ((((s.nic.regs.set .rdbal (baseLow s.cfg.rxDescBase)).set .rdbah
      (baseHigh s.cfg.rxDescBase)).set .rdlen ringLength).set .rdh 0).set .rdt 7 := by
    simp [State.initStep7, writeNamed_regs_of_cfg h, op6.cfg, s.initStep6_opNic.regs]
  have regs8 : s.initStep6.initStep7.initStep8.nic.regs =
      (s.initStep6.initStep7.nic.regs.set .macfLo (macfLo s.mac)).set .macfHi (macfHi s.mac) := by
    simp [State.initStep8, writeNamed_regs_of_cfg h, cfg7, mac7]
  simp [State.initReceive, State.initStep9, writeNamed_regs_of_cfg h, cfg8, regs8, regs7]

/-- The registers that steps 10 to 12 write: the TX ring, the gap and the transmit control (R172, R173). -/
theorem State.initTransmit_regs {s : State} (h : s.cfg.WF) :
    s.initTransmit.nic.regs = ((((((s.nic.regs.set .tdbal (baseLow s.cfg.txDescBase)).set .tdbah
      (baseHigh s.cfg.txDescBase)).set .tdlen ringLength).set .tdh 0).set .tdt 0).set .tipg s.cfg.tipgValue).set .tctl
      (tctlValue s.cfg) := by
  have op10 := s.initStep10_op _ fun _ _ _ => trivial
  have cfg11 : s.initStep10.initStep11.cfg = s.cfg :=
    (State.initStep11_init s.initStep10 _ (RegsIn.all _)).run.cfg.trans op10.cfg
  have regs11 : s.initStep10.initStep11.nic.regs = (((((s.nic.regs.set .tdbal (baseLow s.cfg.txDescBase)).set .tdbah
      (baseHigh s.cfg.txDescBase)).set .tdlen ringLength).set .tdh 0).set .tdt 0).set .tipg s.cfg.tipgValue := by
    simp [State.initStep11, writeNamed_regs_of_cfg h, op10.cfg, s.initStep10_opNic.regs]
  simp [State.initTransmit, State.initStep12, writeNamed_regs_of_cfg h, cfg11, regs11]

/-- The values `INIT` last writes to the named registers, `v` being what step 3 reads (R174). -/
def initRegs (c : Cfg) (m : Mac) (f : RegFile) (v : Word) : RegFile where
  ctrl := v ||| c.ctrlRst
  status := f.status
  icause := f.icause
  imask := c.imaskAll
  rctl := rctlValue c
  tctl := tctlValue c
  tipg := c.tipgValue
  rdbal := baseLow c.rxDescBase
  rdbah := baseHigh c.rxDescBase
  rdlen := 128
  rdh := 0
  rdt := 7
  tdbal := baseLow c.txDescBase
  tdbah := baseHigh c.txDescBase
  tdlen := 128
  tdh := 0
  tdt := 0
  macfLo := macfLo m
  macfHi := macfHi m

theorem State.init_regs {s : State} (h : s.cfg.WF) :
    s.initReset.initReceive.initTransmit.nic.regs =
      initRegs s.cfg s.mac s.nic.regs (s.initStep1.initStep2.readNamed .ctrl).1 := by
  have run5 := (s.initReset_init _ (RegsIn.all s)).run
  have run9 := run5.trans (s.initReset.initReceive_init _ (RegsIn.all _) fun _ _ => trivial).run
  rw [State.initTransmit_regs (by rw [run9.cfg]; exact h), State.initReceive_regs (by rw [run5.cfg]; exact h),
    State.initReset_regs h, run9.cfg,
    run5.cfg, run5.mac]
  rfl

/-- Settles O27: each register keeps the last of the values the steps write to it. -/
theorem initProgramsTheController : Obligations.InitProgramsTheController := by
  rintro s v hwf rfl
  have regs := State.init_regs hwf
  have next := exec_init s
  generalize s.initReset.initReceive.initTransmit = u at regs next
  exact ⟨_, next, regs⟩

/-! ### The registers after a send and after a reply check -/

theorem State.enqueue_regs {s : State} (h : s.cfg.WF) (seq : Half) :
    (s.enqueue seq).nic.regs = s.nic.regs.set .tdt (slotWord (nextSlot (slotOf s.txTail))) := by
  have built := s.buildFrame_op seq _ fun _ _ => trivial
  have filled := State.fillTxDesc_op (s.buildFrame seq) (slotOf s.txTail) _ fun _ _ => trivial
  rw [State.enqueue, State.publishTx_regs (by rw [filled.cfg, built.cfg]; exact h), (State.fillTxDesc_opNic _ _).regs,
    (s.buildFrame_opNic seq).regs]

/-- What a send leaves in the registers and in the response. -/
theorem exec_sendEcho_answers {s : State} (h : s.cfg.WF) (seq : Half) :
    ∃ t ok, exec (.sendEcho seq) s = .next t ∧ t.response = some ⟨false, ok, slotWord (slotOf s.txTail)⟩ ∧
      t.txTail = slotWord (nextSlot (slotOf s.txTail)) ∧
      t.nic.regs = s.nic.regs.set .tdt (slotWord (nextSlot (slotOf s.txTail))) ∧ t.cfg = s.cfg := by
  have next := exec_sendEcho seq s
  refine ⟨_, _, next, rfl, exec_sendEcho_txTail next, ?_, (exec_run next).cfg⟩
  exact (State.finishSend_opNic _ _ _).regs.trans (State.enqueue_regs h seq)

theorem State.consumeRx_regs {s : State} (h : s.cfg.WF) (j : Slot) :
    (s.consumeRx j).nic.regs = s.nic.regs.set .rdt (slotWord j) := by
  have read := s.readFrame_op (rxDesc s.cfg j + rxdLen) (rxBuf s.cfg j + 23) (rxBuf s.cfg j + 34) fun _ => True
  show (State.recycleRx _ j).nic.regs = _
  rw [State.recycleRx_regs (by rw [read.cfg]; exact h), (State.readFrame_opNic _ _ _ _).regs]

/-- A reply check leaves cursor and registers, or both follow to the next slot. -/
theorem State.inspectRx_regs {s : State} (h : s.cfg.WF) (j : Slot) :
    ((s.inspectRx j).rxTail = s.rxTail ∧ (s.inspectRx j).nic.regs = s.nic.regs) ∨
    ((s.inspectRx j).rxTail = slotWord j ∧ (s.inspectRx j).nic.regs = s.nic.regs.set .rdt (slotWord j)) := by
  have looked := s.lookRx_op (rxDesc s.cfg j + rxdStatus) fun _ => True
  have lookedNic := s.lookRx_opNic (rxDesc s.cfg j + rxdStatus)
  rcases s.inspectRx_cases j with ⟨-, e⟩ | ⟨-, e⟩ <;> rw [e]
  · exact Or.inr ⟨rfl, by rw [State.consumeRx_regs (by rw [looked.cfg]; exact h), lookedNic.regs]⟩
  · exact Or.inl ⟨looked.rxTail, lookedNic.regs⟩

/-- Settles O52: at most one slot is consumed, and then the tail register gets the cursor's value. -/
theorem checkReplyAdvancesAtMostOne : Obligations.CheckReplyAdvancesAtMostOne := by
  intro s hwf
  refine ⟨_, exec_checkReply s, (State.inspectRx_regs hwf _).imp id fun ⟨cursor, regs⟩ => ⟨cursor, ?_⟩⟩
  rw [cursor, regs]
  rfl

/-! ### Tail registers and cursors (R28, R263) -/

/-- A write to another register leaves the tail registers. -/
theorem RegFile.set_tails {f : RegFile} {r : Reg} (htx : r ≠ .tdt) (hrx : r ≠ .rdt) (v : Word) :
    (f.set r v).tdt = f.tdt ∧ (f.set r v).rdt = f.rdt :=
  ⟨f.get_set_of_ne htx.symm v, f.get_set_of_ne hrx.symm v⟩

/-- A `WRITE_REG` that spares the tail registers leaves their last values. -/
theorem exec_writeReg_tails {s t : State} {off v : Word} (spares : sparesTails s.cfg (.writeReg off v))
    (h : exec (.writeReg off v) s = .next t) : t.nic.regs.tdt = s.nic.regs.tdt ∧ t.nic.regs.rdt = s.nic.regs.rdt := by
  by_cases aligned : off.toNat % 4 = 0
  · rw [exec_writeReg aligned] at h
    cases h
    rw [State.respond_nic, State.writeReg_regs]
    cases hr : s.cfg.regAt off with
    | none => exact ⟨rfl, rfl⟩
    | some r =>
      have offset := offset_of_regAt hr
      refine RegFile.set_tails ?_ ?_ v
      · rintro rfl; exact spares.1 offset.symm
      · rintro rfl; exact spares.2 offset.symm
  · rw [exec_writeReg_misaligned aligned] at h
    cases h

/-- Settles O33: INIT, SEND_ECHO and CHECK_REPLY write cursor and tail register with one value; no other instruction writes
either, a WRITE_REG to a tail register apart. -/
theorem tailRegistersFollowCursors : Obligations.TailRegistersFollowCursors := by
  intro i s t hwf spares h before
  have may := exec_mayChange h
  cases i with
  | init =>
    have regs := State.init_regs hwf
    obtain ⟨tx0, rx7, -⟩ := s.init_session
    obtain ⟨u, e, rfl⟩ := exec_init_eq h
    rw [e] at regs tx0 rx7
    exact ⟨by rw [State.respond_nic, State.respond_txTail, regs, tx0]; rfl,
      by rw [State.respond_nic, State.respond_rxTail, regs, rx7]; rfl⟩
  | sendEcho seq =>
    obtain ⟨u, _, e, -, cursor, regs, -⟩ := exec_sendEcho_answers hwf seq
    obtain rfl : u = t := Host.Outcome.next.inj (e.symm.trans h)
    obtain ⟨-, rx⟩ := before.resolve_right (by simp)
    exact ⟨by rw [regs, cursor]; rfl, by rw [regs, may.rxTail (by simp) (by simp)]; exact rx⟩
  | checkReply =>
    obtain ⟨tx, rx⟩ := before.resolve_right (by simp)
    have txTail := may.txTail (by simp) (by simp)
    obtain rfl : s.inspectRx (nextSlot (slotOf s.rxTail)) = t := Host.Outcome.next.inj h
    rcases State.inspectRx_regs hwf (nextSlot (slotOf s.rxTail)) with ⟨cursor, regs⟩ | ⟨cursor, regs⟩
    · exact ⟨by rw [regs, txTail]; exact tx, by rw [regs, cursor]; exact rx⟩
    · exact ⟨by rw [regs, txTail]; exact tx, by rw [regs, cursor]; rfl⟩
  | writeReg off v =>
    obtain ⟨tx, rx⟩ := before.resolve_right (by simp)
    obtain ⟨tdt, rdt⟩ := exec_writeReg_tails spares h
    exact ⟨by rw [tdt, may.txTail (by simp) (by simp)]; exact tx, by rw [rdt, may.rxTail (by simp) (by simp)]; exact rx⟩
  | _ =>
    obtain ⟨tx, rx⟩ := before.resolve_right (by simp)
    have regs := may.regs (by simp) (by simp) (by simp) (by simp)
    exact ⟨by rw [regs, may.txTail (by simp) (by simp)]; exact tx,
      by rw [regs, may.rxTail (by simp) (by simp)]; exact rx⟩

/-! ### N sends in a row (R203) -/

theorem slotOf_ofNat_mod (n : Nat) : (slotOf (BitVec.ofNat 32 (n % 8))).val = n % 8 := by
  simp only [slotOf, BitVec.toNat_ofNat]
  omega

theorem slotWord_slotOf_ofNat (n : Nat) : slotWord (slotOf (BitVec.ofNat 32 (n % 8))) = BitVec.ofNat 32 (n % 8) := by
  rw [slotWord, slotOf_ofNat_mod]

theorem slotWord_nextSlot_ofNat (n : Nat) :
    slotWord (nextSlot (slotOf (BitVec.ofNat 32 (n % 8)))) = BitVec.ofNat 32 ((n + 1) % 8) := by
  simp only [slotWord, nextSlot, slotOf_ofNat_mod]
  congr 1
  omega

/-- After some sends that begin with cursor `n mod 8`. -/
theorem sendAll_cursor (qs : List Half) (q : Half) (n : Nat) (s : State) (hwf : s.cfg.WF)
    (cursor : s.txTail = BitVec.ofNat 32 (n % 8)) :
    ∃ t ok, sendAll (q :: qs) s = .next t ∧ t.txTail = BitVec.ofNat 32 ((n + qs.length + 1) % 8) ∧
      t.nic.regs.tdt = t.txTail ∧ t.response = some ⟨false, ok, BitVec.ofNat 32 ((n + qs.length) % 8)⟩ := by
  obtain ⟨t, ok, next, response, tail, regs, cfg⟩ := exec_sendEcho_answers hwf q
  rw [cursor, slotWord_slotOf_ofNat] at response
  rw [cursor, slotWord_nextSlot_ofNat] at tail regs
  have first : sendAll (q :: qs) s = sendAll qs t := by simp only [sendAll, next]
  rw [first]
  induction qs generalizing q s t n ok with
  | nil => exact ⟨t, ok, rfl, tail, by rw [regs, tail]; rfl, response⟩
  | cons p qs ih =>
    obtain ⟨t', ok', next', response', tail', regs', cfg'⟩ := exec_sendEcho_answers (cfg ▸ hwf : t.cfg.WF) p
    rw [tail, slotWord_slotOf_ofNat] at response'
    rw [tail, slotWord_nextSlot_ofNat] at tail' regs'
    have second : sendAll (p :: qs) t = sendAll qs t' := by simp only [sendAll, next']
    obtain ⟨u, ok, h1, h2, h3, h4⟩ :=
      ih p (n + 1) t (cfg ▸ hwf) tail t' ok' next' response' tail' regs' cfg' second
    rw [second]
    refine ⟨u, ok, h1, ?_, h3, ?_⟩
    · rw [h2, List.length_cons]; congr 2; omega
    · rw [h4, List.length_cons]; congr 4; omega

/-- Settles O47: each send moves the cursor on by one modulo 8 and writes it to the tail register. -/
theorem cursorCountsSendsModuloRing : Obligations.CursorCountsSendsModuloRing := by
  intro q qs s hwf zero
  have h := sendAll_cursor qs q 0 s hwf zero
  simpa only [Nat.zero_add] using h

/-! ### How the controller takes a write (R74, R86) -/

/-- A controller that decodes its window takes a write of a named register. -/
theorem State.nicAfterNamed_eq_take {s : State} (hbase : s.base ≠ 0) (bus : s.BusEnabled) (r : Reg) (v : Word) :
    s.nicAfterNamed r v = s.nic.take s.cfg s.mem r v := by
  rw [State.nicAfterNamed, bus.2, if_neg (by decide), if_neg hbase]

theorem slotAt_of_lt {v : Word} (h : v.toNat < 8) : slotAt v = some (slotOf v) := if_pos h

/-- A control write starts a reset exactly if the reset bit is set; else the controller's state stays (R31). -/
theorem Nic.take_ctrl (n : Nic) (c : Cfg) (m : Memory) (v : Word) :
    (n.take c m .ctrl v).resetPending = (n.resetPending || v &&& c.ctrlRst != 0) ∧
    (n.take c m .ctrl v).rxOn = (n.rxOn && v &&& c.ctrlRst == 0) ∧
    (n.take c m .ctrl v).txOn = (n.txOn && v &&& c.ctrlRst == 0) := by
  by_cases h : v &&& c.ctrlRst = 0
  · simp [Nic.take, h]
  · simp only [Nic.take, ne_eq, h, not_false_eq_true, if_true, Nic.startReset]
    have b : (v &&& c.ctrlRst == 0) = false := by simpa using h
    have b' : (v &&& c.ctrlRst != 0) = true := by simpa using h
    rw [b, b']
    simp

/-- A tail write away from the head hands over the slots from the head up to it (R85, R88). -/
theorem Nic.take_tdt_txHolds {n : Nic} (c : Cfg) (m : Memory) {v : Word} (hv : v.toNat < 8) {h : Slot}
    (head : n.txHead = some h) (away : h ≠ slotOf v) (i : Slot) :
    (n.take c m .tdt v).txHolds i = true ↔ (i - h).val < (slotOf v - h).val := by
  simp [Nic.take, Nic.txHolds, Nic.takeTail, slotAt_of_lt hv, head, away]

/-- Settles O20: a silent controller is left as the write itself leaves it, which is `Nic.take`. -/
theorem registerWritesReachTheController : Obligations.RegisterWritesReachTheController := by
  intro s v hwf _ hbase bus quiet
  have nic : ∀ r, ∃ t, exec (.writeReg (s.cfg.offset r) v) s = .next t ∧ t.nic = s.nic.take s.cfg s.mem r v := by
    intro r
    refine ⟨_, exec_writeReg (offset_aligned hwf r) v s, ?_⟩
    exact (State.writeNamed_nic hwf quiet r v).trans (State.nicAfterNamed_eq_take hbase bus r v)
  refine ⟨?_, ?_, ?_, ?_, ?_, ?_⟩
  · obtain ⟨t, next, e⟩ := nic .ctrl
    exact ⟨t, next, e ▸ Nic.take_ctrl _ _ _ v⟩
  · obtain ⟨t, next, e⟩ := nic .rctl
    exact ⟨t, next, by simp [e, Nic.take, hasBits]⟩
  · obtain ⟨t, next, e⟩ := nic .tctl
    exact ⟨t, next, by simp [e, Nic.take, hasBits]⟩
  · obtain ⟨t, next, e⟩ := nic .rdh
    exact ⟨t, next, fun hv => by simp [e, Nic.take, slotAt_of_lt hv]⟩
  · obtain ⟨t, next, e⟩ := nic .tdh
    exact ⟨t, next, fun hv => by simp [e, Nic.take, Nic.takeHead, slotAt_of_lt hv]⟩
  · obtain ⟨t, next, e⟩ := nic .tdt
    exact ⟨t, next, fun hv h head away i => e ▸ Nic.take_tdt_txHolds _ _ hv head away i⟩

/-- Without the bus-master bit the controller stores nothing (R86). -/
theorem State.nicMove_mem_of_not_mastersBus {s : State} (h : s.mastersBus = false) (mv : NicMove) :
    (s.nicMove mv).mem = s.mem := by
  have stores := s.nicMove_stores mv
  generalize (s.nicMove mv).mem = m at stores
  cases stores with
  | nothing => rfl
  | txStatus j v master _ => rw [h] at master; cases master
  | rxSlot i n a v isOpen _ => simp [State.rxOpen, h] at isOpen

/-- Settles O60: every store of the controller needs the bus-master bit, and every effect of a register access on it the
memory-space bit. -/
theorem busEnablesGateTheController : Obligations.BusEnablesGateTheController := by
  refine ⟨fun s mv h => State.nicMove_mem_of_not_mastersBus h mv, fun s r v hwf quiet closed => ⟨?_, ?_⟩⟩
  · refine ⟨_, exec_writeReg (offset_aligned hwf r) v s, (State.writeNamed_nic hwf quiet r v).trans ?_⟩
    rw [State.nicAfterNamed, closed]
    rfl
  · refine ⟨_, exec_readReg (offset_aligned hwf r) s, (State.readReg_nic_of_quiet quiet _).trans ?_⟩
    have unreached : s.reachesCause (s.cfg.offset r) = false := by simp [State.reachesCause, closed]
    rw [State.regReadEffect_nic, if_neg (by simp [unreached])]

end Sys2Proof.Machine
end

section
/-! PROOF. The internet checksum (R180, R181, R183) as arithmetic on natural numbers, and the two checksums of the frame
(R116, R117, R186). -/

namespace Sys2Proof.Machine

/-! ### The accumulator (R180, R181) -/

/-- Two bytes as one 16-bit word, the first the more significant. -/
theorem wordOf_toNat (b d : Byte) :
    ((b.setWidth 32 <<< 8) ||| d.setWidth 32 : Word).toNat = b.toNat * 256 + d.toNat := by
  have hb := b.isLt
  have hd := d.isLt
  have high : (b.toNat <<< 8) % 2 ^ 32 = b.toNat <<< 8 := by
    rw [Nat.shiftLeft_eq]
    omega
  rw [BitVec.toNat_or, BitVec.toNat_shiftLeft, BitVec.toNat_setWidth, BitVec.toNat_setWidth,
    Nat.mod_eq_of_lt (by omega : b.toNat < 2 ^ 32), Nat.mod_eq_of_lt (by omega : d.toNat < 2 ^ 32), high,
    ← Nat.shiftLeft_add_eq_or_of_lt (by omega), Nat.shiftLeft_eq]

/-- The sum of `n` bytes is at most that of `n / 2` words of 0xFFFF, an odd last byte rounded up. -/
theorem natWordSum_le (bs : List Byte) : natWordSum bs ≤ 0xFFFF * ((bs.length + 1) / 2) := by
  induction bs using natWordSum.induct with
  | case1 => exact Nat.zero_le _
  | case2 b =>
    have := b.isLt
    simp only [natWordSum, List.length_singleton]
    omega
  | case3 b d rest ih =>
    have := b.isLt
    have := d.isLt
    simp only [natWordSum, List.length_cons]
    omega

/-- Up to 2048 bytes the 32-bit accumulator does not wrap. -/
theorem wordSum_toNat {bs : List Byte} (h : bs.length ≤ 2048) : (wordSum bs).toNat = natWordSum bs := by
  induction bs using natWordSum.induct with
  | case1 => rfl
  | case2 b =>
    have hb := b.isLt
    simp only [wordSum, natWordSum, BitVec.toNat_shiftLeft, BitVec.toNat_setWidth, Nat.shiftLeft_eq]
    omega
  | case3 b d rest ih =>
    simp only [List.length_cons] at h
    have bound := natWordSum_le rest
    have hb := b.isLt
    have hd := d.isLt
    rw [wordSum, natWordSum, BitVec.toNat_add, wordOf_toNat, ih (by omega)]
    omega

/-- The sum of a run that begins with an even number of bytes is the sum of its parts. -/
theorem natWordSum_append {bs : List Byte} (even : bs.length % 2 = 0) (cs : List Byte) :
    natWordSum (bs ++ cs) = natWordSum bs + natWordSum cs := by
  induction bs using natWordSum.induct with
  | case1 => simp [natWordSum]
  | case2 b => simp at even
  | case3 b d rest ih =>
    simp only [List.length_cons] at even
    simp only [List.cons_append, natWordSum, ih (by omega)]
    omega

/-! ### Folding the carries -/

theorem foldOnce_toNat (v : Word) :
    (foldOnce v).toNat = if v.toNat > 0xFFFF then v.toNat % 0x10000 + v.toNat / 0x10000 else v.toNat := by
  have hv := v.isLt
  unfold foldOnce
  split_ifs
  · have low : (v &&& ((0xFFFF : Nat) : Word)).toNat = v.toNat % 0x10000 := by
      rw [BitVec.toNat_and]
      exact Nat.and_two_pow_sub_one_eq_mod _ 16
    rw [BitVec.toNat_add, low, BitVec.toNat_ushiftRight, Nat.shiftRight_eq_div_pow]
    omega
  · rfl

/-- Two passes leave 16 bits, and the sum modulo 0xFFFF; they make no sum zero but zero. -/
theorem foldCarries_spec (v : Word) :
    (foldCarries v).toNat ≤ 0xFFFF ∧ (foldCarries v).toNat % 0xFFFF = v.toNat % 0xFFFF ∧
      ((foldCarries v).toNat = 0 ↔ v.toNat = 0) := by
  have hv := v.isLt
  rw [foldCarries, foldOnce_toNat, foldOnce_toNat]
  split_ifs <;> omega

/-- Settles O35. -/
theorem checksumAccumulatorIsExact : Obligations.ChecksumAccumulatorIsExact :=
  ⟨fun _ h => wordSum_toNat h, foldCarries_spec⟩

/-! ### The checksum (R180, R183) -/

theorem cksum_toNat (bs : List Byte) : (cksum bs).toNat = 0xFFFF - (foldCarries (wordSum bs)).toNat := by
  obtain ⟨bound, -, -⟩ := foldCarries_spec (wordSum bs)
  rw [cksum, BitVec.toNat_not, BitVec.toNat_setWidth]
  omega

theorem wordSum_zeros (n : Nat) : wordSum (List.replicate n 0) = 0 := by
  induction n using Nat.twoStepInduction with
  | zero => rfl
  | one => rfl
  | more n ih _ =>
    rw [List.replicate_succ, List.replicate_succ, wordSum, ih]
    rfl

/-- Settles O36: the sum of zeros is 0, which folds to 0. -/
theorem checksumOfZerosIsAllOnes : Obligations.ChecksumOfZerosIsAllOnes := by
  intro n
  rw [cksum, wordSum_zeros]
  rfl

/-- The checksum is 0 exactly if the sum is a multiple of 0xFFFF that is not 0. -/
theorem cksum_eq_zero_iff {bs : List Byte} (h : bs.length ≤ 2048) :
    cksum bs = 0 ↔ natWordSum bs % 0xFFFF = 0 ∧ natWordSum bs ≠ 0 := by
  obtain ⟨bound, mod, zero⟩ := foldCarries_spec (wordSum bs)
  rw [wordSum_toNat h] at mod zero
  have value := cksum_toNat bs
  have toNat : cksum bs = 0 ↔ (cksum bs).toNat = 0 := ⟨fun e => by rw [e]; rfl, fun e => BitVec.eq_of_toNat_eq e⟩
  rw [toNat, value]
  omega

theorem natWordSum_pair (hi lo : Byte) : natWordSum [hi, lo] = hi.toNat * 256 + lo.toNat := by simp [natWordSum]

theorem hiByte_toNat (v : Half) : (hiByte v).toNat = v.toNat / 256 := by
  have := v.isLt
  rw [hiByte, BitVec.extractLsb'_toNat, Nat.shiftRight_eq_div_pow]
  omega

theorem loByte_toNat (v : Half) : (loByte v).toNat = v.toNat % 256 := by
  rw [loByte, BitVec.extractLsb'_toNat]
  rfl

/-- The sum of bytes with a 16-bit field at an even offset. -/
theorem natWordSum_field {before : List Byte} (even : before.length % 2 = 0) (v : Half) (after : List Byte) :
    natWordSum (before ++ [hiByte v, loByte v] ++ after) = natWordSum before + v.toNat + natWordSum after := by
  rw [natWordSum_append (by simpa [Nat.add_mod] using even), natWordSum_append even, natWordSum_pair, hiByte_toNat,
    loByte_toNat]
  omega

/-- Settles O37: the sum with the checksum in its field is that without plus the complement of its residue, a multiple of
0xFFFF other than 0. -/
theorem checksumValidationIdentity : Obligations.ChecksumValidationIdentity := by
  rintro before after even length c rfl
  obtain ⟨bound, mod, zero⟩ := foldCarries_spec (wordSum (before ++ [0, 0] ++ after))
  have value := cksum_toNat (before ++ [0, 0] ++ after)
  have empty : natWordSum (before ++ [0, 0] ++ after) = natWordSum before + natWordSum after :=
    natWordSum_field even 0 after
  have short : ∀ hi lo, (before ++ [hi, lo] ++ after).length ≤ 2048 := by
    intro hi lo
    simp only [List.length_append, List.length_cons, List.length_nil]
    omega
  rw [wordSum_toNat (short 0 0), empty] at mod zero
  rw [cksum_eq_zero_iff (short _ _), natWordSum_field even, value]
  omega

/-! ### The two checksums of the frame (R116, R117, R186) -/

theorem wordOf_eq_append (b d : Byte) :
    ((b.setWidth 32 <<< 8) ||| d.setWidth 32 : Word) = (b ++ d).setWidth 32 := by
  apply BitVec.eq_of_toNat_eq
  have := b.isLt
  have := d.isLt
  rw [wordOf_toNat, BitVec.toNat_setWidth, append_toNat]
  omega

theorem hiByte_append_loByte (v : Half) : hiByte v ++ loByte v = v := by
  apply BitVec.eq_of_toNat_eq
  rw [append_toNat, hiByte_toNat, loByte_toNat]
  omega

theorem wordSum_cons (b d : Byte) (rest : List Byte) :
    wordSum (b :: d :: rest) = (b ++ d).setWidth 32 + wordSum rest := by
  rw [wordSum, wordOf_eq_append]

theorem wordSum_ipv4Header (c : Cfg) : wordSum (ipv4Header c 0) =
    0x8556 + (c.srcIp.b0 ++ c.srcIp.b1).setWidth 32 + (c.srcIp.b2 ++ c.srcIp.b3).setWidth 32 +
      (c.dstIp.b0 ++ c.dstIp.b1).setWidth 32 + (c.dstIp.b2 ++ c.dstIp.b3).setWidth 32 := by
  have fixed : ∀ w, wordSum (0x45 :: 0x00 :: 0x00 :: 0x54 :: 0x00 :: 0x01 :: 0x00 :: 0x00 :: 0x40 :: 0x01 ::
      hiByte 0 :: loByte 0 :: w) = 0x8556 + wordSum w := by
    intro w
    simp only [wordSum_cons, ← BitVec.add_assoc]
    rfl
  rw [ipv4Header, fixed, wordSum_cons, wordSum_cons, wordSum_cons, wordSum_cons, wordSum, add_zero,
    ← BitVec.add_assoc, ← BitVec.add_assoc, ← BitVec.add_assoc]

theorem wordSum_icmpPayload : wordSum icmpPayload = 0x67A90 := by decide

theorem wordSum_icmpMessage (c : Cfg) (seq : Half) :
    wordSum (icmpMessage c seq 0) = 0x0800 + c.icmpIdent.setWidth 32 + seq.setWidth 32 + 0x67A90 := by
  have fixed : ∀ w, wordSum (0x08 :: 0x00 :: hiByte 0 :: loByte 0 :: w) = 0x0800 + wordSum w := by
    intro w
    simp only [wordSum_cons, ← BitVec.add_assoc]
    rfl
  show wordSum (_ :: _ :: _ :: _ :: _ :: _ :: _ :: _ :: icmpPayload) = _
  rw [fixed, wordSum_cons, wordSum_cons, hiByte_append_loByte, hiByte_append_loByte, wordSum_icmpPayload,
    ← BitVec.add_assoc, ← BitVec.add_assoc]

theorem icmpChecksum_eq (c : Cfg) (seq : Half) : icmpChecksum c seq =
    ~~~ (foldCarries (0x0800 + c.icmpIdent.setWidth 32 + seq.setWidth 32 + 0x67A90)).setWidth 16 := by
  rw [icmpChecksum, cksum, wordSum_icmpMessage]

/-- Settles O38: the checksum of each region is the complement of its folded sum, whose constant words add up to one
number. -/
theorem frameChecksumsClosedForm : Obligations.FrameChecksumsClosedForm :=
  fun c seq => ⟨by rw [ipv4Checksum, cksum, wordSum_ipv4Header], icmpChecksum_eq c seq⟩

/-- Sums that are equal modulo 0xFFFF and not 0 fold to one value. -/
theorem foldCarries_congr {v w : Word} (mod : v.toNat % 0xFFFF = w.toNat % 0xFFFF) (hv : v.toNat ≠ 0)
    (hw : w.toNat ≠ 0) : foldCarries v = foldCarries w := by
  obtain ⟨boundV, modV, zeroV⟩ := foldCarries_spec v
  obtain ⟨boundW, modW, zeroW⟩ := foldCarries_spec w
  apply BitVec.eq_of_toNat_eq
  omega

/-- The sum of the ICMP message as a number: it does not wrap. -/
theorem icmpSum_toNat (ident seq : Half) :
    (0x0800 + ident.setWidth 32 + seq.setWidth 32 + 0x67A90 : Word).toNat =
      0x0800 + ident.toNat + seq.toNat + 0x67A90 := by
  have := ident.isLt
  have := seq.isLt
  bv_omega

/-- Sequence numbers 0x0000 and 0xFFFF stand for one residue modulo 0xFFFF (R183 item 4). -/
theorem icmpChecksum_zero_eq_ones (c : Cfg) : icmpChecksum c 0x0000 = icmpChecksum c 0xFFFF := by
  have zero : (0x0000 : Half).toNat = 0 := rfl
  have ones : (0xFFFF : Half).toNat = 0xFFFF := rfl
  rw [icmpChecksum_eq, icmpChecksum_eq, foldCarries_congr]
  all_goals simp only [icmpSum_toNat, zero, ones]
  all_goals omega

/-- The IPv4 header is what stands before its checksum, the checksum, and what stands after (R116). -/
theorem ipv4Header_split (c : Cfg) (ck : Half) :
    ipv4Header c ck = (ipv4Header c 0).take 10 ++ [hiByte ck, loByte ck] ++ (ipv4Header c 0).drop 12 := rfl

/-- The ICMP message is what stands before its checksum, the checksum, and what stands after (R117). -/
theorem icmpMessage_split (c : Cfg) (seq ck : Half) :
    icmpMessage c seq ck = (icmpMessage c seq 0).take 2 ++ [hiByte ck, loByte ck] ++ (icmpMessage c seq 0).drop 4 := rfl

theorem cksum_ipv4Header (c : Cfg) : cksum (ipv4Header c (ipv4Checksum c)) = 0 := by
  rw [ipv4Header_split]
  exact checksumValidationIdentity _ _ (by simp [ipv4Header]) (by simp [ipv4Header]) _ rfl

theorem cksum_icmpMessage (c : Cfg) (seq : Half) : cksum (icmpMessage c seq (icmpChecksum c seq)) = 0 := by
  rw [icmpMessage_split]
  exact checksumValidationIdentity _ _ (by simp [icmpMessage]) (by simp [icmpMessage, icmpPayload]) _ rfl

/-- The two regions of the frame that carry a checksum. -/
theorem frameWith_regions (c : Cfg) (m : Mac) (seq ipck icck : Half) :
    ((frameWith c m seq ipck icck).drop 14).take 20 = ipv4Header c ipck ∧
      (frameWith c m seq ipck icck).drop 34 = icmpMessage c seq icck := ⟨rfl, rfl⟩

/-- Settles O39: each region holds the checksum of itself with the field zero, so the validation identity applies. -/
theorem frameChecksumsVerify : Obligations.FrameChecksumsVerify := by
  intro c m seq
  obtain ⟨header, message⟩ := frameWith_regions c m seq (ipv4Checksum c) (icmpChecksum c seq)
  refine ⟨icmpChecksum_zero_eq_ones c, ?_, ?_⟩
  · rw [finishedFrame, header, cksum_ipv4Header]
  · rw [finishedFrame, message, cksum_icmpMessage]

/-! ### The layout of the frame (R114 to R118) -/

/-- The payload of the frame. -/
theorem frameWith_payload (c : Cfg) (m : Mac) (seq ipck icck : Half) :
    (frameWith c m seq ipck icck).drop 42 = icmpPayload := rfl

/-- Settles O40: the frame is its three parts written out. -/
theorem frameLayoutIsFixed : Obligations.FrameLayoutIsFixed := by
  rintro c m seq f rfl
  refine ⟨rfl, rfl, rfl, rfl, rfl, rfl, rfl, rfl, rfl, rfl, rfl, fun k hk => ?_⟩
  rw [← List.getElem?_drop, finishedFrame, frameWith_payload, icmpPayload, List.getElem?_map, List.getElem?_range hk]
  rfl

end Sys2Proof.Machine
end

section
/-! PROOF. Little-endian access (R70), and what memory holds after the block has written the fields of a descriptor while
the controller acts (R88 to R90). -/

namespace Sys2Proof.Machine

/-! ### Reading back (R70) -/

/-- A wider read of bytes that hold a value's bytes, least significant first. -/
theorem Memory.readLE_toNat_of_bytes {m : Memory} {n : Nat} {a : Addr} {v : BitVec 64} (hn : n ≤ 8)
    (h : ∀ k, k < n → m.read (a + BitVec.ofNat 64 k).toNat = v.extractLsb' (8 * k) 8) :
    (m.readLE n a).toNat = v.toNat % 2 ^ (8 * n) := by
  induction n generalizing a v with
  | zero => simp [Memory.readLE, Nat.mod_one]
  | succ n ih =>
    have first : m.read a.toNat = v.setWidth 8 := by
      simpa [extractLsb'_zero_eq_setWidth] using h 0 n.succ_pos
    have rest := ih (a := a + 1) (v := v >>> 8) (by omega) fun k hk => by
      rw [addr_succ, h (k + 1) (by omega), extractLsb'_shiftRight]
      congr 1
      omega
    have bound : (v >>> 8).toNat % 2 ^ (8 * n) < 2 ^ 56 :=
      (Nat.mod_lt _ (by positivity)).trans_le (Nat.pow_le_pow_right (by decide) (by omega))
    have low : (BitVec.setWidth 64 (BitVec.setWidth 8 v)).toNat = v.toNat % 2 ^ 8 := by
      rw [BitVec.toNat_setWidth, BitVec.toNat_setWidth]
      omega
    have high : (m.readLE n (a + 1) <<< 8).toNat = (v.toNat / 2 ^ 8 % 2 ^ (8 * n)) <<< 8 := by
      rw [BitVec.toNat_shiftLeft, rest, Nat.mod_eq_of_lt (by rw [Nat.shiftLeft_eq]; omega), BitVec.toNat_ushiftRight,
        Nat.shiftRight_eq_div_pow]
    rw [Memory.readLE, BitVec.toNat_or, first, low, high, Nat.or_comm,
      ← Nat.shiftLeft_add_eq_or_of_lt (Nat.mod_lt _ (by decide)), Nat.shiftLeft_eq,
      show 2 ^ (8 * (n + 1)) = 2 ^ 8 * 2 ^ (8 * n) by rw [← Nat.pow_add]; congr 1; omega, Nat.mod_mul]
    omega

/-- A wider read of bytes that hold the bytes of a value that fits. -/
theorem Memory.readLE_eq_of_bytes {m : Memory} {n : Nat} {a : Addr} {v : BitVec 64} (hn : n ≤ 8)
    (fits : v.toNat < 2 ^ (8 * n))
    (h : ∀ k, k < n → m.read (a + BitVec.ofNat 64 k).toNat = v.extractLsb' (8 * k) 8) : m.readLE n a = v :=
  BitVec.eq_of_toNat_eq ((Memory.readLE_toNat_of_bytes hn h).trans (Nat.mod_eq_of_lt fits))

/-- Settles O53: the bytes of a store are those of its value, and a wider read is the number they make up. -/
theorem memoryReadsBackLittleEndian : Obligations.MemoryReadsBackLittleEndian := by
  intro m a v n hn
  have bytes := fun k hk => Memory.read_writeLE m a v (n := n) (k := k) (by omega) hk
  exact ⟨bytes, Memory.readLE_toNat_of_bytes hn bytes, fun x hx => Memory.read_writeLE_of_not_mem _ _ _ _ _ hx⟩

/-! ### Bytes that stand still while the controller acts -/

/-- In the states of `R`, which the block's own stores do not leave, the controller's turn leaves the byte at `a`. -/
structure Still (R : State → Prop) (a : Nat) : Prop where
  turn : ∀ s, R s → R s.nicTurn
  read : ∀ s, R s → s.nicTurn.mem.read a = s.mem.read a
  setMem : ∀ s m, R s → R (s.setMem m)
  record : ∀ s e, R s → R (s.record e)

/-- The parameter record is `c`, and the controller is silent if `q` says so. -/
def Calm (q : Prop) (c : Cfg) (s : State) : Prop := s.cfg = c ∧ (q → s.Quiet)

/-- What a silent controller, or the contract of R90, leaves alone. -/
theorem still_of_calm {q : Prop} {c : Cfg} {a : Nat} (h : q ∨ ¬ nicMay c a) : Still (Calm q c) a where
  turn := fun s ⟨hc, hq⟩ => ⟨s.nicTurn_cfg.trans hc, fun p => State.nicTurn_quiet (hq p)⟩
  read := fun s ⟨hc, hq⟩ => by
    rcases h with h | h
    · rw [State.nicTurn_mem_of_quiet (hq h)]
    · exact s.nicTurn_keeps.read a (hc ▸ h)
  setMem := fun _ _ h => h
  record := fun _ _ h => h

/-- An operation keeps the parameter record and silence. -/
theorem OpKeeps.calm {P : Nat → Prop} {s t : State} (h : OpKeeps P s t) {q : Prop} {c : Cfg} (hs : Calm q c s) :
    Calm q c t := ⟨h.cfg.trans hs.1, fun p => h.quiet (hs.2 p)⟩

theorem InitKeeps.calm {P : Nat → Prop} {s t : State} (h : InitKeeps P s t) {q : Prop} {c : Cfg} (hs : Calm q c s) :
    Calm q c t := ⟨h.run.cfg.trans hs.1, fun p => h.run.quiet (hs.2 p)⟩

/-- What `MemFrame` says of a byte that stands still. -/
theorem MemFrame.read_of_calm {s t : State} {P : Nat → Prop} (h : MemFrame s t P) {q : Prop} {c : Cfg}
    (hs : Calm q c s) {a : Nat} (ha : ¬ P a) (still : q ∨ ¬ nicMay c a) : t.mem.read a = s.mem.read a :=
  h a ha (still.imp hs.2 fun n => hs.1 ▸ n)

theorem Still.memWrite {R : State → Prop} {x : Nat} (still : Still R x) {s : State} (hs : R s) (a : Addr) (n : Nat)
    (v : BitVec 64) : R (s.memWrite a n v) :=
  still.record _ _ (still.setMem _ _ (still.turn _ hs))

/-- A store leaves the bytes outside it that stand still. -/
theorem Still.read_memWrite {R : State → Prop} {x : Nat} (still : Still R x) {s : State} (hs : R s) {a : Addr} {n : Nat}
    {v : BitVec 64} (hx : ¬ isByteOf a n x) : (s.memWrite a n v).mem.read x = s.mem.read x :=
  (Memory.read_writeLE_of_not_mem _ _ _ _ _ hx).trans (still.read s hs)

/-- A store puts its bytes where it says, whatever the controller did before. -/
theorem State.read_memWrite (s : State) (a : Addr) {n k : Nat} (v : BitVec 64) (hn : n < 2 ^ 64) (hk : k < n) :
    (s.memWrite a n v).mem.read (a + BitVec.ofNat 64 k).toNat = v.extractLsb' (8 * k) 8 :=
  Memory.read_writeLE _ a v hn hk

/-! ### The fields of a descriptor, written one after another -/

/-- A field of a descriptor and the value it gets. -/
structure Field where
  off : Nat
  size : Nat
  value : BitVec 64

/-- The fields are written in this order. -/
def State.writeFields (s : State) (d : Addr) : List Field → State
  | [] => s
  | f :: fs => (s.memWrite (d + BitVec.ofNat 64 f.off) f.size f.value).writeFields d fs

/-- The byte a field gives to offset `k` of the descriptor. -/
def Field.byte (f : Field) (k : Nat) : Option Byte :=
  if f.off ≤ k ∧ k < f.off + f.size then some (f.value.extractLsb' (8 * (k - f.off)) 8) else none

/-- The byte the last of the fields that cover offset `k` gives to it. -/
def fieldsByte : List Field → Nat → Option Byte
  | [], _ => none
  | f :: fs, k => (fieldsByte fs k).or (f.byte k)

/-- All fields lie within the first `n` bytes. -/
def fieldsIn (n : Nat) (fs : List Field) : Prop := ∀ f ∈ fs, f.off + f.size ≤ n

theorem isByteOf_field_iff {d : Addr} {f : Field} {k n : Nat} (hf : f.off + f.size ≤ n) (hk : k < n) (hn : n < 2 ^ 64) :
    isByteOf (d + BitVec.ofNat 64 f.off) f.size (d + BitVec.ofNat 64 k).toNat ↔ f.off ≤ k ∧ k < f.off + f.size := by
  constructor
  · rintro ⟨j, hj⟩
    rw [addr_add_ofNat] at hj
    have := addr_offset_inj (by omega) (by omega) hj
    omega
  · rintro ⟨lo, hi⟩
    refine ⟨⟨k - f.off, by omega⟩, ?_⟩
    rw [addr_add_ofNat]
    congr 3
    show k = f.off + (k - f.off)
    omega

theorem Still.writeFields {R : State → Prop} {x : Nat} (still : Still R x) {s : State} (hs : R s) (d : Addr)
    (fs : List Field) : R (s.writeFields d fs) := by
  induction fs generalizing s with
  | nil => exact hs
  | cons f fs ih => exact ih (still.memWrite hs _ _ _)

/-- A byte outside the fields, if it stands still, is unchanged. -/
theorem Still.read_writeFields_of_not_mem {R : State → Prop} {x : Nat} (still : Still R x) {s : State} (hs : R s)
    {d : Addr} {fs : List Field} (hx : ∀ f ∈ fs, ¬ isByteOf (d + BitVec.ofNat 64 f.off) f.size x) :
    (s.writeFields d fs).mem.read x = s.mem.read x := by
  induction fs generalizing s with
  | nil => rfl
  | cons f fs ih =>
    rw [State.writeFields, ih (still.memWrite hs _ _ _) fun g hg => hx g (List.mem_cons_of_mem _ hg),
      still.read_memWrite hs (hx f List.mem_cons_self)]

/-- A byte of the descriptor that stands still holds what the last field that covers it gives to it. -/
theorem Still.read_writeFields {R : State → Prop} {s : State} (hs : R s) {d : Addr} {fs : List Field} {k n : Nat}
    (still : Still R (d + BitVec.ofNat 64 k).toNat) (inside : fieldsIn n fs) (hk : k < n) (hn : n < 2 ^ 64) :
    (s.writeFields d fs).mem.read (d + BitVec.ofNat 64 k).toNat =
      (fieldsByte fs k).getD (s.mem.read (d + BitVec.ofNat 64 k).toNat) := by
  induction fs generalizing s with
  | nil => rfl
  | cons f fs ih =>
    have hf := inside f List.mem_cons_self
    have covered := isByteOf_field_iff (d := d) hf hk hn
    rw [State.writeFields, ih (still.memWrite hs _ _ _) fun g hg => inside g (List.mem_cons_of_mem _ hg), fieldsByte,
      Option.getD_or]
    congr 1
    by_cases hit : f.off ≤ k ∧ k < f.off + f.size
    · have address : d + BitVec.ofNat 64 k = d + BitVec.ofNat 64 f.off + BitVec.ofNat 64 (k - f.off) := by
        rw [addr_add_ofNat]
        congr 2
        omega
      rw [Field.byte, if_pos hit, Option.getD_some, address]
      exact State.read_memWrite s _ _ (by omega) (by omega)
    · rw [Field.byte, if_neg hit, Option.getD_none, still.read_memWrite hs fun h => hit (covered.1 h)]

end Sys2Proof.Machine
end

section
/-! PROOF. BUILD_FRAME (R185, R187): what it leaves in the slot, whatever the controller does, and its events in order. -/

namespace Sys2Proof.Machine

/-! ### Writing bytes into a buffer that the controller spares (R90) -/

/-- A byte written into a run of bytes that the controller spares replaces that byte of the run. -/
theorem State.bytesAt_memWrite {s : State} {b : Addr} {n j : Nat} (spares : nicSpares s.cfg b n) (hn : n < 2 ^ 64)
    (hj : j < n) (v : Byte) :
    bytesAt (s.memWrite (b + BitVec.ofNat 64 j) 1 (v.setWidth 64)).mem b n = (bytesAt s.mem b n).set j v := by
  refine List.ext_getElem (by simp) fun k hk _ => ?_
  rw [length_bytesAt] at hk
  rw [List.getElem_set]
  simp only [bytesAt, List.getElem_map, List.getElem_range]
  split_ifs with h
  · subst h
    exact Memory.read_writeLE_byte _ _ v
  · refine (Memory.read_writeLE_of_not_mem _ _ _ _ _ fun hb => h ?_).trans (s.nicTurn_keeps.read _ (spares k hk))
    exact addr_offset_inj (by omega) (by omega) (isByteOf_one hb).symm

/-- A run of bytes written where the controller may not write is there afterwards. -/
theorem State.bytesAt_writeBytes (bs : List Byte) (s : State) (a : Addr) (spares : nicSpares s.cfg a bs.length)
    (hn : bs.length < 2 ^ 64) : bytesAt (s.writeBytes a bs).mem a bs.length = bs := by
  induction bs generalizing s a with
  | nil => rfl
  | cons b bs ih =>
    simp only [List.length_cons] at spares hn ⊢
    obtain ⟨first, rest⟩ := nicSpares_succ spares
    have keeps := State.writeBytes_op bs (s.memWrite a 1 (b.setWidth 64)) (a + 1) _ fun _ h => h
    have head : (s.writeBytes a (b :: bs)).mem.read a.toNat = b :=
      (keeps.frame _ (not_isByteOf_succ (by omega)) (Or.inr (by simpa using first))).trans
        (Memory.read_writeLE_byte _ _ b)
    rw [bytesAt_cons, head]
    exact congrArg (b :: ·) (ih _ _ (by simpa using rest) (by omega))

/-- The two bytes of a checksum replace the bytes of its field; it is that of the range of the run as it stood. -/
theorem State.bytesAt_insertChecksum {s : State} {b : Addr} {n start len field : Nat} (spares : nicSpares s.cfg b n)
    (hn : n < 2 ^ 64) (range : start + len ≤ n) (inside : field + 1 < n) :
    bytesAt (s.insertChecksum b start len field).mem b n =
      ((bytesAt s.mem b n).set field (hiByte (cksum (((bytesAt s.mem b n).drop start).take len)))).set (field + 1)
        (loByte (cksum (((bytesAt s.mem b n).drop start).take len))) := by
  have read := s.readBytes_op len (b + BitVec.ofNat 64 start) fun _ => False
  have part : nicSpares s.cfg (b + BitVec.ofNat 64 start) len := fun k hk => by
    rw [addr_add_ofNat]
    exact spares _ (by omega)
  have answer : (s.readBytes (b + BitVec.ofNat 64 start) len).1 = ((bytesAt s.mem b n).drop start).take len := by
    rw [s.readBytes_eq_bytesAt len _ part, bytesAt_drop_take _ _ _ _ _ range]
  have before : bytesAt (s.readBytes (b + BitVec.ofNat 64 start) len).2.mem b n = bytesAt s.mem b n :=
    bytesAt_eq_of_memFrame read.frame spares
  show bytesAt (State.memWrite (State.memWrite _ _ 1 _) _ 1 _).mem b n = _
  rw [State.bytesAt_memWrite (by simpa [read.cfg] using spares) hn inside,
    State.bytesAt_memWrite (by simpa [read.cfg] using spares) hn (by omega), before, answer]

/-! ### The frame in the slot (R185) -/

theorem nicSpares_txBuf_frame {c : Cfg} (h : c.WF) (i : Slot) : nicSpares c (txBuf c i) 98 := by
  have spares := nicSpares_txBuf h i (start := 0) (len := 98) (by decide)
  simpa using spares

/-- The frame as the builder writes it first, and with one and with both checksums in place. -/
theorem frameWith_set_ipv4 (c : Cfg) (m : Mac) (seq ck : Half) :
    ((rawFrame c m seq).set 24 (hiByte ck)).set 25 (loByte ck) = frameWith c m seq ck 0 := rfl
theorem frameWith_set_icmp (c : Cfg) (m : Mac) (seq ipck ck : Half) :
    ((frameWith c m seq ipck 0).set 36 (hiByte ck)).set 37 (loByte ck) = frameWith c m seq ipck ck := rfl

/-- The slot while the builder runs: the frame without checksums, then with the IPv4 checksum. -/
theorem State.bytesAt_rawFrame {s : State} (h : s.cfg.WF) (i : Slot) (seq : Half) :
    bytesAt (s.writeBytes (txBuf s.cfg i) (rawFrame s.cfg s.mac seq)).mem (txBuf s.cfg i) 98 =
      rawFrame s.cfg s.mac seq := by
  have spares := nicSpares_txBuf_frame h i
  rw [← rawFrame_length s.cfg s.mac seq] at spares
  have written := State.bytesAt_writeBytes _ s _ spares (by rw [rawFrame_length]; norm_num)
  rwa [rawFrame_length] at written

theorem State.bytesAt_ipv4Frame {s : State} (h : s.cfg.WF) (i : Slot) (seq : Half) :
    bytesAt ((s.writeBytes (txBuf s.cfg i) (rawFrame s.cfg s.mac seq)).insertChecksum (txBuf s.cfg i) 14 20 24).mem
      (txBuf s.cfg i) 98 = frameWith s.cfg s.mac seq (ipv4Checksum s.cfg) 0 := by
  have written := State.writeBytes_op (rawFrame s.cfg s.mac seq) s (txBuf s.cfg i) _ fun _ _ => trivial
  obtain ⟨header, -⟩ := frameWith_regions s.cfg s.mac seq 0 0
  rw [State.bytesAt_insertChecksum (by rw [written.cfg]; exact nicSpares_txBuf_frame h i) (by decide) (by decide)
    (by decide), State.bytesAt_rawFrame h, rawFrame, header]
  exact frameWith_set_ipv4 s.cfg s.mac seq (ipv4Checksum s.cfg)

/-- The finished frame stands in the slot `s.tx_tail`, whatever the controller does. -/
theorem State.bytesAt_buildFrame {s : State} (h : s.cfg.WF) (seq : Half) :
    bytesAt (s.buildFrame seq).mem (txBuf s.cfg (slotOf s.txTail)) 98 = finishedFrame s.cfg s.mac seq := by
  have written := State.writeBytes_op (rawFrame s.cfg s.mac seq) s (txBuf s.cfg (slotOf s.txTail)) _ fun _ _ => trivial
  have inserted := State.insertChecksum_op
    (s.writeBytes (txBuf s.cfg (slotOf s.txTail)) (rawFrame s.cfg s.mac seq)) (txBuf s.cfg (slotOf s.txTail)) 14 20 24 _
    fun _ _ => trivial
  obtain ⟨-, message⟩ := frameWith_regions s.cfg s.mac seq (ipv4Checksum s.cfg) 0
  rw [State.buildFrame, State.bytesAt_insertChecksum
    (by rw [inserted.cfg, written.cfg]; exact nicSpares_txBuf_frame h _) (by decide) (by decide) (by decide),
    State.bytesAt_ipv4Frame h, message]
  exact frameWith_set_icmp s.cfg s.mac seq (ipv4Checksum s.cfg) (icmpChecksum s.cfg seq)

/-- A byte of a run of bytes in memory. -/
theorem read_eq_getElem?_bytesAt (m : Memory) (b : Addr) {n k : Nat} (hk : k < n) :
    some (m.read (b + BitVec.ofNat 64 k).toNat) = (bytesAt m b n)[k]? := by
  simp [bytesAt, List.getElem?_range hk]

/-- Settles O41: the controller spares the TX buffers, so each byte read back is the byte just written. -/
theorem buildFrameLeavesFinishedFrame : Obligations.BuildFrameLeavesFinishedFrame := by
  rintro seq s hwf b rfl
  have keeps := s.buildFrame_op seq _ fun _ h => h
  have keepsNic := s.buildFrame_opNic seq
  have next := exec_buildFrame seq s
  have frame := State.bytesAt_buildFrame hwf seq
  generalize s.buildFrame seq = u at keeps keepsNic next frame
  refine ⟨_, next, rfl, fun k => ?_, keeps.keepsSession, keepsNic.pciCommand, keepsNic.keepsNic, keeps.frame⟩
  rw [State.respond_mem, read_eq_getElem?_bytesAt _ _ k.isLt, frame]

/-! ### The events of the builder (R185, D22) -/

theorem byteWrites_cons (a : Addr) (b : Byte) (bs : List Byte) :
    byteWrites a (b :: bs) = .memWrite a 1 (b.setWidth 64) :: byteWrites (a + 1) bs := by
  refine List.ext_getElem (by simp [byteWrites]) fun k _ _ => ?_
  cases k with
  | zero => simp [byteWrites]
  | succ k => simpa [byteWrites, Nat.add_comm 1 k] using (addr_succ a k).symm

theorem State.writeBytes_events (bs : List Byte) (s : State) (a : Addr) :
    (s.writeBytes a bs).events = (byteWrites a bs).reverse ++ s.events := by
  induction bs generalizing s a with
  | nil => rfl
  | cons b bs ih =>
    rw [State.writeBytes, ih, State.memWrite_events, byteWrites_cons, List.reverse_cons, List.append_assoc,
      List.singleton_append]

/-- The events of inserting a checksum, oldest first, when these bytes are read. -/
def insertEvents (b : Addr) (start field : Nat) (bytes : List Byte) : List Event :=
  byteReads (b + BitVec.ofNat 64 start) bytes ++
    byteWrites (b + BitVec.ofNat 64 field) [hiByte (cksum bytes), loByte (cksum bytes)]

theorem State.insertChecksum_events (s : State) (b : Addr) (start len field : Nat) :
    (s.insertChecksum b start len field).events =
      (insertEvents b start field (s.readBytes (b + BitVec.ofNat 64 start) len).1).reverse ++ s.events := by
  show (State.memWrite (State.memWrite _ _ 1 _) _ 1 _).events = _
  have next : b + BitVec.ofNat 64 field + 1 = b + BitVec.ofNat 64 (field + 1) := addr_add_ofNat b field 1
  rw [State.memWrite_events, State.memWrite_events, State.readBytes_events, insertEvents, byteWrites_cons,
    byteWrites_cons, next]
  simp [byteWrites]

theorem State.readBytes_length (n : Nat) (s : State) (a : Addr) : (s.readBytes a n).1.length = n := by
  induction n generalizing s a with
  | zero => rfl
  | succ n ih => simp [State.readBytes, ih]

/-- The events of the builder, oldest first, when these bytes are read back. -/
def builderEvents (c : Cfg) (m : Mac) (seq : Half) (b : Addr) (header message : List Byte) : List Event :=
  byteWrites b (rawFrame c m seq) ++ insertEvents b 14 24 header ++ insertEvents b 34 36 message

theorem State.buildFrame_events (s : State) (seq : Half) :
    ∃ header message, header.length = 20 ∧ message.length = 64 ∧
      (s.buildFrame seq).events =
        (builderEvents s.cfg s.mac seq (txBuf s.cfg (slotOf s.txTail)) header message).reverse ++ s.events ∧
      (s.cfg.WF → header = ipv4Header s.cfg 0 ∧ message = icmpMessage s.cfg seq 0) := by
  have written := State.writeBytes_op (rawFrame s.cfg s.mac seq) s (txBuf s.cfg (slotOf s.txTail)) _ fun _ _ => trivial
  have raw : s.cfg.WF → bytesAt (s.writeBytes (txBuf s.cfg (slotOf s.txTail)) (rawFrame s.cfg s.mac seq)).mem _ 98 = _ :=
    fun hwf => State.bytesAt_rawFrame hwf (slotOf s.txTail) seq
  have half : s.cfg.WF → bytesAt ((s.writeBytes (txBuf s.cfg (slotOf s.txTail)) (rawFrame s.cfg s.mac seq)).insertChecksum
      (txBuf s.cfg (slotOf s.txTail)) 14 20 24).mem _ 98 = _ := fun hwf => State.bytesAt_ipv4Frame hwf (slotOf s.txTail) seq
  have events : (s.buildFrame seq).events = _ := State.insertChecksum_events _ _ 34 64 36
  rw [State.insertChecksum_events, State.writeBytes_events] at events
  generalize s.writeBytes (txBuf s.cfg (slotOf s.txTail)) (rawFrame s.cfg s.mac seq) = u at written raw half events
  have inserted := State.insertChecksum_op u (txBuf s.cfg (slotOf s.txTail)) 14 20 24 _ fun _ _ => trivial
  generalize u.insertChecksum (txBuf s.cfg (slotOf s.txTail)) 14 20 24 = w at half inserted events
  refine ⟨_, _, State.readBytes_length 20 u (txBuf s.cfg (slotOf s.txTail) + BitVec.ofNat 64 14),
    State.readBytes_length 64 w (txBuf s.cfg (slotOf s.txTail) + BitVec.ofNat 64 34), events.trans ?_,
    fun hwf => ⟨?_, ?_⟩⟩
  · simp only [builderEvents, List.reverse_append, List.append_assoc]
  · rw [State.readBytes_eq_bytesAt 20 _ _ (by rw [written.cfg]; exact nicSpares_txBuf hwf _ (by decide)),
      ← bytesAt_drop_take _ _ 14 20 98 (by decide), raw hwf]
    exact (frameWith_regions s.cfg s.mac seq 0 0).1
  · rw [State.readBytes_eq_bytesAt 64 _ _ (by rw [inserted.cfg, written.cfg]; exact nicSpares_txBuf hwf _ (by decide)),
      ← bytesAt_drop_take _ _ 34 64 98 (by decide), half hwf]
    rfl

theorem countP_byteWrites (a : Addr) (bs : List Byte) :
    (byteWrites a bs).countP isByteWrite = bs.length ∧ (byteWrites a bs).countP isByteRead = 0 := by
  induction bs generalizing a with
  | nil => exact ⟨rfl, rfl⟩
  | cons b bs ih => simp [byteWrites_cons, isByteWrite, isByteRead, ih]

theorem countP_byteReads (a : Addr) (bs : List Byte) :
    (byteReads a bs).countP isByteWrite = 0 ∧ (byteReads a bs).countP isByteRead = bs.length := by
  induction bs generalizing a with
  | nil => exact ⟨rfl, rfl⟩
  | cons b bs ih => simp [byteReads_cons, isByteWrite, isByteRead, ih]

@[simp] theorem length_byteWrites (a : Addr) (bs : List Byte) : (byteWrites a bs).length = bs.length := by
  simp [byteWrites]
@[simp] theorem length_byteReads (a : Addr) (bs : List Byte) : (byteReads a bs).length = bs.length := by
  simp [byteReads]

/-- Settles O42: the events are those of three runs of writes and two of reads, and the bytes read back are those just
written. -/
theorem buildFrameEventCounts : Obligations.BuildFrameEventCounts := by
  intro seq s
  obtain ⟨header, message, hlen, mlen, events, bytes⟩ := s.buildFrame_events seq
  refine ⟨_, _, exec_buildFrame seq s, events, ?_, ?_, ?_, fun hwf => ?_⟩
  · simp [builderEvents, insertEvents, hlen, mlen, rawFrame_length]
  · simp [builderEvents, insertEvents, countP_byteWrites, countP_byteReads, rawFrame_length]
  · simp [builderEvents, insertEvents, countP_byteWrites, countP_byteReads, hlen, mlen]
  · obtain ⟨rfl, rfl⟩ := bytes hwf
    simp only [builderEvents, insertEvents, buildEvents, List.append_assoc]
    rfl

end Sys2Proof.Machine
end

section
/-! PROOF. SEND_ECHO (R200 to R202): what it leaves in the slot and its descriptor, the order of its events, and the poll. -/

namespace Sys2Proof.Machine

/-! ### The slot and its descriptor after a send -/

/-- The three fields a send writes, in order: length, command, status (R200). -/
def sendFields (c : Cfg) : List Field :=
  [⟨8, 2, BitVec.ofNat 64 Config.frameLen⟩, ⟨11, 1, (txCommand c).setWidth 64⟩, ⟨12, 1, 0⟩]

theorem State.fillTxDesc_eq (s : State) (i : Slot) : s.fillTxDesc i = s.writeFields (txDesc s.cfg i) (sendFields s.cfg) :=
  rfl

theorem sendFields_inside (c : Cfg) : fieldsIn 16 (sendFields c) := by
  simp [fieldsIn, sendFields]

/-- The descriptor of a send as the block leaves it before it is handed over. -/
theorem State.read_fillTxDesc {s : State} {q : Prop} (hs : q → s.Quiet) {i : Slot} {k : Nat} (hk : k < 16)
    (still : q ∨ ¬ nicMay s.cfg (txDesc s.cfg i + BitVec.ofNat 64 k).toNat) :
    (s.fillTxDesc i).mem.read (txDesc s.cfg i + BitVec.ofNat 64 k).toNat =
      (fieldsByte (sendFields s.cfg) k).getD (s.mem.read (txDesc s.cfg i + BitVec.ofNat 64 k).toNat) :=
  (still_of_calm still).read_writeFields (s := s) ⟨rfl, hs⟩ (sendFields_inside s.cfg) hk (by norm_num)

/-- The block's side of a send before the slot is handed over. -/
def State.filled (s : State) (seq : Half) : State := (s.buildFrame seq).fillTxDesc (slotOf s.txTail)

theorem State.filled_op (s : State) (seq : Half) : OpKeeps (sendBytes s.cfg (slotOf s.txTail)) s (s.filled seq) := by
  have built := s.buildFrame_op seq (sendBytes s.cfg (slotOf s.txTail)) fun _ => Or.inl
  exact built.trans (State.fillTxDesc_op _ _ _ fun _ h => Or.inr (built.cfg ▸ h))

/-- Handing the slot over and polling store nothing, in a window clear of the regions. -/
theorem State.sent_read {s : State} {seq : Half} (clear : s.cfg.windowClear s.base) {q : Prop} (hs : q → s.Quiet)
    {a : Nat} (still : q ∨ ¬ nicMay s.cfg a) :
    (s.enqueue seq).mem.read a = (s.filled seq).mem.read a ∧
    (State.finishTx (State.pollTx (slotOf s.txTail) s.cfg.txPollMax (s.enqueue seq))).mem.read a =
      (s.filled seq).mem.read a := by
  have filled := s.filled_op seq
  have clear' : (s.filled seq).cfg.windowClear (s.filled seq).base := by rw [filled.cfg, filled.base]; exact clear
  obtain ⟨u, published, e⟩ := State.publishTx_op (s.filled seq) (slotOf s.txTail) _
    (RegsIn.of_windowClear clear' fun _ => False)
  have enqueued : s.enqueue seq = u.setTxTail (slotWord (nextSlot (slotOf s.txTail))) := e
  have calmFilled : Calm q s.cfg (s.filled seq) := filled.calm ⟨rfl, hs⟩
  have calmEnqueued : Calm q s.cfg (s.enqueue seq) := enqueued ▸ published.calm calmFilled
  have first : (s.enqueue seq).mem.read a = (s.filled seq).mem.read a :=
    enqueued ▸ published.frame.read_of_calm calmFilled id still
  exact ⟨first, ((State.finishSend_op _ _ _ fun _ => False).frame.read_of_calm calmEnqueued id still).trans first⟩

/-- Filling the descriptor leaves the frame in the slot. -/
theorem State.bytesAt_filled {s : State} (h : s.cfg.WF) (seq : Half) :
    bytesAt (s.filled seq).mem (txBuf s.cfg (slotOf s.txTail)) 98 = finishedFrame s.cfg s.mac seq := by
  have cfg := (s.buildFrame_op seq _ fun _ _ => trivial).cfg
  rw [← State.bytesAt_buildFrame h seq, State.filled, State.fillTxDesc_eq, cfg]
  refine List.map_congr_left fun k hk => ?_
  have hk : k < 98 := List.mem_range.1 hk
  refine (still_of_calm (q := False) (Or.inr (not_nicMay_txBuf h _ (by omega)))).read_writeFields_of_not_mem
    (s := s.buildFrame seq) ⟨cfg, False.elim⟩ fun f hf hb => ?_
  obtain ⟨j, hj⟩ := hb
  have inside := sendFields_inside s.cfg f hf
  have apart := (regions_apart h).2.1
  simp only [Region.disjoint, Cfg.txDescRegion, Cfg.txBufRegion] at apart
  rw [addr_add_ofNat, txBuf_byte h _ (by omega), txDesc_byte h _ (by omega)] at hj
  have := j.isLt
  omega

theorem State.filled_field {s : State} (h : s.cfg.WF) (seq : Half) {k : Nat} (hk : k < 16) (hs : k ≠ 12) {b : Byte}
    (byte : fieldsByte (sendFields s.cfg) k = some b) :
    (s.filled seq).mem.read (txDesc s.cfg (slotOf s.txTail) + BitVec.ofNat 64 k).toNat = b := by
  have cfg := (s.buildFrame_op seq _ fun _ _ => trivial).cfg
  have field := State.read_fillTxDesc (s := s.buildFrame seq) (q := False) False.elim (i := slotOf s.txTail) hk
    (Or.inr (by rw [cfg]; exact not_nicMay_txDesc h _ hk hs))
  rw [cfg, byte] at field
  exact field

theorem sendFields_cmd (c : Cfg) : fieldsByte (sendFields c) 11 = some (txCommand c) := by
  simp [fieldsByte, sendFields, Field.byte, extractLsb'_zero_eq_setWidth]

theorem sendFields_len (c : Cfg) {k : Nat} (hk : k < 2) :
    fieldsByte (sendFields c) (8 + k) = some ((98 : BitVec 64).extractLsb' (8 * k) 8) := by
  interval_cases k <;> rfl

/-- Settles O43: the frame, the length and the command byte are not the controller's to write, so they stand as the block
left them. -/
theorem sendEchoBuildsAndPublishes : Obligations.SendEchoBuildsAndPublishes := by
  rintro seq s hwf clear i rfl
  obtain ⟨t, ok, next, response, tail, regs, -⟩ := exec_sendEcho_answers hwf seq
  have may := exec_mayChange next
  have run := exec_run next
  have mem : ∀ a, ¬ nicMay s.cfg a → t.mem.read a = (s.filled seq).mem.read a := by
    intro a ha
    have sent := (State.sent_read (seq := seq) clear (q := False) False.elim (Or.inr ha)).2
    rw [exec_sendEcho] at next
    rw [← Host.Outcome.next.inj next]
    exact sent
  refine ⟨t, ok, next, response, tail, regs, fun k => ?_, ?_, ?_, ⟨run.cfg, run.mac, run.caller⟩, may.base (by simp),
    may.rxTail (by simp) (by simp), may.phase (by simp), may.pciCommand (by simp), fun a ha => ?_⟩
  · rw [mem _ (not_nicMay_txBuf hwf _ (by omega)), read_eq_getElem?_bytesAt _ _ k.isLt, State.bytesAt_filled hwf]
  · refine Memory.readLE_eq_of_bytes (by decide) (by decide) fun k hk => ?_
    have address : txDesc s.cfg (slotOf s.txTail) + txdLen + BitVec.ofNat 64 k =
        txDesc s.cfg (slotOf s.txTail) + BitVec.ofNat 64 (8 + k) := addr_add_ofNat _ 8 k
    rw [address, mem _ (not_nicMay_txDesc hwf _ (by omega) (by omega))]
    exact State.filled_field hwf seq (by omega) (by omega) (sendFields_len s.cfg hk)
  · exact (mem _ (not_nicMay_txDesc hwf _ (k := 11) (by decide) (by decide))).trans
      (State.filled_field hwf seq (by decide) (by decide) (sendFields_cmd s.cfg))
  · exact run.frame a fun hb => ha (hb.resolve_left (not_namedBytes_of_windowClear clear a))

/-! ### The poll (R201, R202) -/

@[simp] theorem State.readByte_cfg (s : State) (a : Addr) : (s.readByte a).2.cfg = s.cfg := s.nicTurn_cfg

/-- The history of a poll's statuses, the one read first set apart. -/
theorem State.pollTx_succ_events (s : State) (i : Slot) (sts : List Byte) (st : Byte)
    (hst : st = (s.readByte (txDesc s.cfg i + txdStatus)).1) (u : State)
    (hu : u.events = pollHistory (txDesc s.cfg i + txdStatus) s.cfg.txPollDelay sts ++
      ((if doneBit st ∨ s.cfg.txPollDelay = 0 then [] else [Event.spin s.cfg.txPollDelay]) ++
        (s.readByte (txDesc s.cfg i + txdStatus)).2.fence.events)) :
    u.events = pollHistory (txDesc s.cfg i + txdStatus) s.cfg.txPollDelay (st :: sts) ++ s.events := by
  have read : (s.readByte (txDesc s.cfg i + txdStatus)).2.events =
      .memRead (txDesc s.cfg i + txdStatus) 1 (st.setWidth 64) :: s.events := by
    rw [hst]
    show (s.memRead _ 1).2.events = _
    rw [State.memRead_events, ← State.memRead_one_zeroExtended]
    rfl
  rw [hu, State.fence_events, read, pollHistory]
  simp

/-- What a poll of at most `n` reads answers, and the statuses `sts` it read (R201). -/
structure PollSpec (a : Addr) (n : Nat) (s : State) (r : Bool × State) (sts : List Byte) : Prop where
  events : r.2.events = pollHistory a s.cfg.txPollDelay sts ++ s.events
  success : r.1 = true → sts.length ≤ n ∧
    ∃ before last, sts = before ++ [last] ∧ (∀ x ∈ before, doneBit x = false) ∧ doneBit last = true
  timeout : r.1 = false → sts.length = n ∧ ∀ x ∈ sts, doneBit x = false
  quiet : s.Quiet → ∀ x ∈ sts, x = s.mem.read a.toNat

theorem State.pollTx_spec (i : Slot) (n : Nat) (s : State) :
    ∃ sts, PollSpec (txDesc s.cfg i + txdStatus) n s (State.pollTx i n s) sts := by
  induction n generalizing s with
  | zero => exact ⟨[], rfl, fun h => absurd h (by simp [State.pollTx]), fun _ => ⟨rfl, by simp⟩, by simp⟩
  | succ n ih =>
    obtain ⟨a, ha⟩ : ∃ a, a = txDesc s.cfg i + txdStatus := ⟨_, rfl⟩
    have status : s.Quiet → (s.readByte a).1 = s.mem.read a.toNat := fun quiet => by
      show (s.memRead a 1).1.setWidth 8 = _
      rw [State.memRead_one, State.nicTurn_mem_of_quiet quiet]
      simp
    have poll : State.pollTx i (n + 1) s = if doneBit (s.readByte a).1 then (true, (s.readByte a).2.fence)
        else State.pollTx i n ((s.readByte a).2.fence.delay s.cfg.txPollDelay) := by rw [ha]; rfl
    rw [poll, ← ha]
    split_ifs with done
    · refine ⟨[(s.readByte a).1], ?_, fun _ => ⟨by simp, [], _, rfl, by simp, done⟩, fun h => absurd h (by simp), ?_⟩
      · subst ha
        exact State.pollTx_succ_events s i [] _ rfl _ (by simp [pollHistory, done])
      · exact fun quiet x hx => List.mem_singleton.1 hx ▸ status quiet
    · have looked := (s.lookRx_op a fun _ => False).trans (State.delay_op _ s.cfg.txPollDelay _)
      obtain ⟨sts, h⟩ := ih ((s.readByte a).2.fence.delay s.cfg.txPollDelay)
      have done : doneBit (s.readByte a).1 = false := by simpa using done
      rw [looked.cfg, ← ha] at h
      refine ⟨(s.readByte a).1 :: sts, ?_, fun ok => ?_, fun ok => ?_, fun quiet x hx => ?_⟩
      · have events := h.events
        rw [State.delay_events, looked.cfg] at events
        subst ha
        exact State.pollTx_succ_events s i sts _ rfl _ (by simpa [done] using events)
      · obtain ⟨len, before, last, rfl, clear, hit⟩ := h.success ok
        refine ⟨by simpa using len, (s.readByte a).1 :: before, last, rfl, fun x hx => ?_, hit⟩
        rcases List.mem_cons.1 hx with rfl | hx
        · exact done
        · exact clear x hx
      · obtain ⟨len, clear⟩ := h.timeout ok
        refine ⟨by simp [len], fun x hx => ?_⟩
        rcases List.mem_cons.1 hx with rfl | hx
        · exact done
        · exact clear x hx
      · rcases List.mem_cons.1 hx with rfl | hx
        · exact status quiet
        · rw [h.quiet (looked.quiet quiet) x hx, looked.frame _ id (Or.inl quiet)]

theorem State.finishTx_events (r : Bool × State) :
    (State.finishTx r).events = (if r.1 then [] else [.emit r.2.cfg.msgTxTimeout]) ++ r.2.events := by
  unfold State.finishTx
  split_ifs <;> simp

theorem State.enqueue_cfg (s : State) (seq : Half) : (s.enqueue seq).cfg = s.cfg := by
  obtain ⟨u, keeps, e⟩ := s.enqueue_op seq _ (RegsIn.all s) fun _ _ => trivial
  rw [e]
  exact keeps.cfg

/-- A send's answer, through the poll after its first half: the response, the line of a timeout and the history. -/
theorem exec_sendEcho_polled (seq : Half) (s : State) :
    ∃ t ok sts, exec (.sendEcho seq) s = .next t ∧ t.response = some ⟨false, ok, slotWord (slotOf s.txTail)⟩ ∧
      t.events = (if ok then [] else [.emit s.cfg.msgTxTimeout]) ++
        (pollHistory (txDesc s.cfg (slotOf s.txTail) + txdStatus) s.cfg.txPollDelay sts ++ (s.enqueue seq).events) ∧
      ∃ u, PollSpec (txDesc s.cfg (slotOf s.txTail) + txdStatus) s.cfg.txPollMax (s.enqueue seq) (ok, u) sts := by
  obtain ⟨sts, h⟩ := State.pollTx_spec (slotOf s.txTail) s.cfg.txPollMax (s.enqueue seq)
  have cfg := (State.pollTx_op (slotOf s.txTail) s.cfg.txPollMax (s.enqueue seq) fun _ => True).cfg
  have next := exec_sendEcho seq s
  rw [State.enqueue_cfg] at h cfg
  generalize State.pollTx (slotOf s.txTail) s.cfg.txPollMax (s.enqueue seq) = r at h cfg next
  have events := h.events
  rw [State.enqueue_cfg] at events
  exact ⟨_, r.1, sts, next, rfl, by rw [State.respond_events, State.finishTx_events, events, cfg], r.2, h⟩

/-- Settles O57. -/
theorem sendEchoPollsUntilDone : Obligations.SendEchoPollsUntilDone := by
  rintro seq s i rfl
  obtain ⟨t, ok, sts, next, response, events, u, h⟩ := exec_sendEcho_polled seq s
  exact ⟨t, ok, sts, next, response, events, h.success, h.timeout⟩

/-! ### The order of a send (R200) -/

/-- A poll and its timeout access no register and write nothing. -/
theorem mem_pollHistory {a : Addr} {d : Nat} {sts : List Byte} {e : Event} (h : e ∈ pollHistory a d sts) :
    isRegAccess e = false ∧ isRamWrite e = false := by
  induction sts with
  | nil => simp [pollHistory] at h
  | cons st sts ih =>
    simp only [pollHistory, List.mem_append] at h
    rcases h with (h | h) | h
    · exact ih h
    · split_ifs at h with hd
      · simp at h
      · rw [List.mem_singleton.1 h]
        exact ⟨rfl, rfl⟩
    · simp only [List.mem_cons, List.not_mem_nil, or_false] at h
      rcases h with rfl | rfl <;> exact ⟨rfl, rfl⟩

/-- Settles O44: the events of the first half are those of its three pieces; the poll adds only reads of the status, fences
and delays, and a timeout its line. -/
theorem sendEchoPublishesAfterFence : Obligations.SendEchoPublishesAfterFence := by
  rintro seq s i rfl
  obtain ⟨t, ok, sts, next, -, events, -⟩ := exec_sendEcho_polled seq s
  have built := s.buildFrame_op seq _ fun _ _ => trivial
  refine ⟨t, _, next, by rw [events, ← List.append_assoc], fun e he => ?_, ?_⟩
  · rcases List.mem_append.1 he with he | he
    · split_ifs at he with hok
      · simp at he
      · rw [List.mem_singleton.1 he]
        exact ⟨rfl, rfl⟩
    · exact mem_pollHistory he
  · rw [State.enqueue, State.publishTx, State.setTxTail_events, State.writeNamed, State.writeReg_events]
    generalize s.buildFrame seq = b at built
    have filled := State.fillTxDesc_op b (slotOf s.txTail) _ fun _ _ => trivial
    have fenced := State.fence_op (b.fillTxDesc (slotOf s.txTail)) fun _ => True
    rw [fenced.base, filled.base, built.base, fenced.cfg, filled.cfg, built.cfg, State.fence_events, State.fillTxDesc,
      State.memWrite_events, State.memWrite_events, State.memWrite_events, built.cfg]
    rfl

/-! ### A silent controller (R88, R202) -/

/-- The counts of a poll whose reads all answered 0. -/
theorem pollHistory_zeros (a : Addr) (d n : Nat) :
    (pollHistory a d (List.replicate n 0)).countP (fun e => e == .memRead a 1 0) = n ∧
    (pollHistory a d (List.replicate n 0)).countP isFence = n ∧
    ((pollHistory a d (List.replicate n 0)).map spinsOf).sum = n * d := by
  induction n with
  | zero => simp [pollHistory]
  | succ n ih =>
    obtain ⟨reads, fences, spins⟩ := ih
    have clear : doneBit 0 = false := rfl
    simp only [List.replicate_succ, pollHistory, clear, List.countP_append, List.map_append, List.sum_append, reads, fences,
      spins]
    by_cases hd : d = 0
    · simp [hd, isFence, spinsOf]
    · simp [hd, isFence, spinsOf, Nat.succ_mul]

/-- Settles O45: the status byte stays the 0 that the block wrote, so no read shows the done bit. -/
theorem sendEchoTimesOutWhenSilent : Obligations.SendEchoTimesOutWhenSilent := by
  rintro seq s hwf clear quiet i rfl
  obtain ⟨t, ok, sts, next, response, events, u, h⟩ := exec_sendEcho_polled seq s
  have built := s.buildFrame_op seq _ fun _ _ => trivial
  have sent := State.sent_read (seq := seq) clear (q := True) (fun _ => quiet)
    (a := (txDesc s.cfg (slotOf s.txTail) + txdStatus).toNat) (Or.inl trivial)
  have status : (s.filled seq).mem.read (txDesc s.cfg (slotOf s.txTail) + txdStatus).toNat = 0 := by
    have field := State.read_fillTxDesc (s := s.buildFrame seq) (q := True) (fun _ => built.quiet quiet)
      (i := slotOf s.txTail) (k := 12) (by decide) (Or.inl trivial)
    rw [built.cfg] at field
    exact field
  have quiet' : (s.enqueue seq).Quiet := by
    obtain ⟨w, keeps, e⟩ := s.enqueue_op seq _ (RegsIn.all s) fun _ _ => trivial
    rw [e]
    exact keeps.quiet quiet
  have zeros : ∀ x ∈ sts, x = 0 := fun x hx => (h.quiet quiet' x hx).trans (sent.1.trans status)
  have failed : ok = false := by
    by_contra hok
    obtain ⟨-, before, last, rfl, -, done⟩ := h.success (by simpa using hok)
    rw [zeros last (by simp)] at done
    cases done
  subst failed
  obtain ⟨len, -⟩ := h.timeout rfl
  obtain rfl : sts = List.replicate s.cfg.txPollMax 0 := List.eq_replicate_iff.2 ⟨len, zeros⟩
  obtain ⟨reads, fences, spins⟩ :=
    pollHistory_zeros (txDesc s.cfg (slotOf s.txTail) + txdStatus) s.cfg.txPollDelay s.cfg.txPollMax
  refine ⟨t, _, next, response, events, reads, fences, spins, ?_⟩
  rw [exec_sendEcho] at next
  rw [← Host.Outcome.next.inj next]
  exact sent.2.trans status

end Sys2Proof.Machine
end

section
/-! PROOF. CHECK_REPLY (R210 to R213) on a frame that stands still, and the controller's delivery of a frame (R89). -/

namespace Sys2Proof.Machine

/-! ### A frame that the controller has finished stands still (R90) -/

/-- The bytes of RX slot `j` are as memory `m` holds them. -/
structure RxHeld (c : Cfg) (j : Slot) (m : Memory) (s : State) : Prop where
  cfg : s.cfg = c
  bytes : ∀ a, isRxSlotByte c j a → s.mem.read a = m.read a

theorem RxHeld.record {c : Cfg} {j : Slot} {m : Memory} {s : State} (h : RxHeld c j m s) (e : Event) :
    RxHeld c j m (s.record e) := ⟨h.cfg, h.bytes⟩

theorem RxHeld.nicMove {c : Cfg} {j : Slot} {m : Memory} {s : State} (hwf : c.WF) (done : rxDone c m j = true)
    (h : RxHeld c j m s) (mv : NicMove) : RxHeld c j m (s.nicMove mv) := by
  obtain ⟨rfl, bytes⟩ := h
  have held : rxDone s.cfg s.mem j = true := (congrArg doneBit (bytes _ (isRxSlotByte_rxStatus s.cfg j))).trans done
  exact ⟨(s.nicMove_keeps mv).cfg, fun a ha => ((s.nicMove_stores mv).read_rxSlot hwf held ha).trans (bytes a ha)⟩

theorem RxHeld.nicTurn {c : Cfg} {j : Slot} {m : Memory} {s : State} (hwf : c.WF) (done : rxDone c m j = true)
    (h : RxHeld c j m s) : RxHeld c j m s.nicTurn := by
  suffices moves : ∀ (ms : List NicMove) (u : State), RxHeld c j m u → RxHeld c j m (ms.foldl State.nicMove u) from
    ⟨(moves _ s h).cfg, (moves _ s h).bytes⟩
  intro ms
  induction ms with
  | nil => exact fun _ hu => hu
  | cons mv ms ih => exact fun u hu => ih _ (hu.nicMove hwf done mv)

/-- What the block reads of a held slot is what memory held. -/
theorem RxHeld.memRead {c : Cfg} {j : Slot} {m : Memory} {s : State} (hwf : c.WF) (done : rxDone c m j = true)
    (h : RxHeld c j m s) {a : Addr} {n : Nat} (ha : ∀ k, k < n → isRxSlotByte c j (a + BitVec.ofNat 64 k).toNat) :
    (s.memRead a n).1 = m.readLE n a ∧ RxHeld c j m (s.memRead a n).2 :=
  ⟨Memory.readLE_congr n a fun k hk => (h.nicTurn hwf done).bytes _ (ha k hk), (h.nicTurn hwf done).record _⟩

theorem isRxSlotByte_rxBuf {c : Cfg} {j : Slot} {k : Nat} (hk : k < 2048) :
    isRxSlotByte c j (rxBuf c j + BitVec.ofNat 64 k).toNat := Or.inr ⟨⟨k, hk⟩, rfl⟩

theorem isRxSlotByte_rxDesc {c : Cfg} {j : Slot} {k : Nat} (hk : k < 16) :
    isRxSlotByte c j (rxDesc c j + BitVec.ofNat 64 k).toNat := Or.inl ⟨⟨k, hk⟩, rfl⟩

/-! ### CHECK_REPLY -/

/-- The look at a slot's status answers the byte that memory holds after the controller's turn. -/
theorem State.readByte_fst (s : State) (a : Addr) : (s.readByte a).1 = s.nicTurn.mem.read a.toNat := by
  show (s.memRead a 1).1.setWidth 8 = _
  rw [State.memRead_one]
  simp

theorem State.lookRx_events (s : State) (a : Addr) :
    (s.readByte a).2.fence.events = .fence :: .memRead a 1 (s.memRead a 1).1 :: s.events := by
  rw [State.fence_events]
  exact congrArg _ (s.memRead_events a 1)

/-- Settles O49: the look alone, a read and a fence. -/
theorem checkReplyFindsNothing : Obligations.CheckReplyFindsNothing := by
  rintro s j rfl clear
  have looked := s.lookRx_op (rxDesc s.cfg (nextSlot (slotOf s.rxTail)) + rxdStatus) fun _ => False
  have lookedNic := s.lookRx_opNic (rxDesc s.cfg (nextSlot (slotOf s.rxTail)) + rxdStatus)
  have events := s.lookRx_events (rxDesc s.cfg (nextSlot (slotOf s.rxTail)) + rxdStatus)
  refine ⟨_, (s.memRead (rxDesc s.cfg (nextSlot (slotOf s.rxTail)) + rxdStatus) 1).1, exec_checkReply s, ?_⟩
  rcases s.inspectRx_cases (nextSlot (slotOf s.rxTail)) with ⟨done, -⟩ | ⟨-, e⟩
  · rw [State.readByte_fst] at done
    exact absurd (clear.symm.trans done) (by decide)
  · rw [e]
    exact ⟨rfl, events, looked.keepsSession, lookedNic.pciCommand, lookedNic.keepsNic, looked.frame⟩

/-- A read of `n` bytes is a number of `8 n` bits. -/
theorem Memory.readLE_lt (m : Memory) {n : Nat} (hn : n ≤ 8) (a : Addr) : (m.readLE n a).toNat < 2 ^ (8 * n) := by
  induction n generalizing a with
  | zero => simp [Memory.readLE]
  | succ n ih =>
    have byte := (m.read a.toNat).isLt
    have rest := ih (by omega) (a + 1)
    rw [Memory.readLE, BitVec.toNat_or, BitVec.toNat_setWidth, BitVec.toNat_shiftLeft]
    refine Nat.or_lt_two_pow ?_ ?_
    · exact (Nat.mod_le _ _).trans_lt (byte.trans_le (Nat.pow_le_pow_right (by decide) (by omega)))
    · refine (Nat.mod_le _ _).trans_lt ?_
      rw [Nat.shiftLeft_eq, show 2 ^ (8 * (n + 1)) = 2 ^ (8 * n) * 2 ^ 8 by rw [← Nat.pow_add]; rfl]
      exact Nat.mul_lt_mul_of_pos_right rest (by decide)

theorem setWidth_setWidth_readLE_two (m : Memory) (a : Addr) :
    ((m.readLE 2 a).setWidth 16).setWidth 64 = m.readLE 2 a := by
  have bound := m.readLE_lt (n := 2) (by decide) a
  apply BitVec.eq_of_toNat_eq
  rw [BitVec.toNat_setWidth, BitVec.toNat_setWidth]
  omega

/-- The history of consuming a frame in slot `j`, by what its three reads answer. -/
theorem State.consumeRx_events (s : State) (j : Slot) (len b23 b34 : BitVec 64)
    (hlen : len = (s.memRead (rxDesc s.cfg j + rxdLen) 2).1)
    (h23 : b23 = ((s.memRead (rxDesc s.cfg j + rxdLen) 2).2.memRead (rxBuf s.cfg j + 23) 1).1)
    (h34 : b34 = (((s.memRead (rxDesc s.cfg j + rxdLen) 2).2.memRead (rxBuf s.cfg j + 23) 1).2.memRead
      (rxBuf s.cfg j + 34) 1).1) :
    (s.consumeRx j).events =
      .fence :: .memWrite (regAddr s.base (s.cfg.offset .rdt)) 4 ((slotWord j).setWidth 64) :: .fence ::
      .memWrite (rxDesc s.cfg j + rxdLen) 2 0 :: .memWrite (rxDesc s.cfg j + rxdStatus) 1 0 ::
      .memRead (rxBuf s.cfg j + 34) 1 b34 :: .memRead (rxBuf s.cfg j + 23) 1 b23 ::
      .memRead (rxDesc s.cfg j + rxdLen) 2 len :: s.events := by
  have read := s.readFrame_op (rxDesc s.cfg j + rxdLen) (rxBuf s.cfg j + 23) (rxBuf s.cfg j + 34) fun _ => True
  have events : (((s.memRead (rxDesc s.cfg j + rxdLen) 2).2.readByte (rxBuf s.cfg j + 23)).2.readByte
      (rxBuf s.cfg j + 34)).2.events = .memRead (rxBuf s.cfg j + 34) 1 b34 :: .memRead (rxBuf s.cfg j + 23) 1 b23 ::
      .memRead (rxDesc s.cfg j + rxdLen) 2 len :: s.events := by
    simp only [State.readByte, State.memRead_events, hlen, h23, h34]
  show (State.recycleRx _ j).events = _
  generalize (((s.memRead (rxDesc s.cfg j + rxdLen) 2).2.readByte (rxBuf s.cfg j + 23)).2.readByte
    (rxBuf s.cfg j + 34)).2 = u at read events
  have stored : OpKeeps (fun _ => True) u
      ((u.memWrite (rxDesc u.cfg j + rxdStatus) 1 0).memWrite (rxDesc u.cfg j + rxdLen) 2 0).fence :=
    (u.memWrite_op _ (by decide) _ _ fun _ _ => trivial).trans
      ((State.memWrite_op _ _ (by decide) _ _ fun _ _ => trivial).trans (State.fence_op _ _))
  rw [State.recycleRx, State.setRxTail_events, State.writeNamed, State.writeReg_events, stored.base, stored.cfg,
    State.fence_events, State.memWrite_events, State.memWrite_events, events, read.base, read.cfg]

/-- What consuming the frame in a held slot answers and records. -/
theorem State.consumeRx_held {s : State} {c : Cfg} {j : Slot} {m : Memory} (hwf : c.WF) (done : rxDone c m j = true)
    (h : RxHeld c j m s) :
    (s.consumeRx j).response = some ⟨false, isReply ((m.readLE 2 (rxDesc c j + rxdLen)).setWidth 16)
      (m.read (rxBuf c j + 23).toNat) (m.read (rxBuf c j + 34).toNat), 0⟩ ∧
    (s.consumeRx j).events =
      .fence :: .memWrite (regAddr s.base (c.offset .rdt)) 4 ((slotWord j).setWidth 64) :: .fence ::
      .memWrite (rxDesc c j + rxdLen) 2 0 :: .memWrite (rxDesc c j + rxdStatus) 1 0 ::
      .memRead (rxBuf c j + 34) 1 ((m.read (rxBuf c j + 34).toNat).setWidth 64) ::
      .memRead (rxBuf c j + 23) 1 ((m.read (rxBuf c j + 23).toNat).setWidth 64) ::
      .memRead (rxDesc c j + rxdLen) 2 (m.readLE 2 (rxDesc c j + rxdLen)) :: s.events := by
  obtain ⟨len, h1⟩ := h.memRead hwf done (a := rxDesc c j + rxdLen) (n := 2) fun k hk => by
    rw [show rxDesc c j + rxdLen + BitVec.ofNat 64 k = rxDesc c j + BitVec.ofNat 64 (8 + k) from addr_add_ofNat _ 8 k]
    exact isRxSlotByte_rxDesc (by omega)
  obtain ⟨b23, h2⟩ := h1.memRead hwf done (a := rxBuf c j + 23) (n := 1) fun k hk => by
    rw [show rxBuf c j + 23 + BitVec.ofNat 64 k = rxBuf c j + BitVec.ofNat 64 (23 + k) from addr_add_ofNat _ 23 k]
    exact isRxSlotByte_rxBuf (by omega)
  obtain ⟨b34, -⟩ := h2.memRead hwf done (a := rxBuf c j + 34) (n := 1) fun k hk => by
    rw [show rxBuf c j + 34 + BitVec.ofNat 64 k = rxBuf c j + BitVec.ofNat 64 (34 + k) from addr_add_ofNat _ 34 k]
    exact isRxSlotByte_rxBuf (by omega)
  obtain ⟨rfl, -⟩ := h
  rw [Memory.readLE_one] at b23 b34
  refine ⟨?_, s.consumeRx_events j _ _ _ len.symm b23.symm b34.symm⟩
  simp only [State.consumeRx, State.readByte, State.respond_response, len, b23, b34, responseOf]
  simp

/-- Settles O50: the done bit keeps the controller off the slot until the block clears it, so the reads answer what memory
held. -/
theorem checkReplyConsumesOneFrame : Obligations.CheckReplyConsumesOneFrame := by
  rintro s j m len b23 b34 hwf clear rfl rfl done rfl rfl rfl
  obtain ⟨j, hj⟩ : ∃ j, j = nextSlot (slotOf s.rxTail) := ⟨_, rfl⟩
  rw [← hj] at done ⊢
  have next := exec_checkReply s
  rw [← hj] at next
  have run := exec_run next
  have may := exec_mayChange next
  rcases s.inspectRx_cases j with ⟨-, e⟩ | ⟨off, -⟩
  · have looked := s.lookRx_op (rxDesc s.cfg j + rxdStatus) fun _ => False
    have held : RxHeld s.cfg j s.nicTurn.mem (s.readByte (rxDesc s.cfg j + rxdStatus)).2.fence :=
      ((RxHeld.mk s.nicTurn_cfg fun _ _ => rfl : RxHeld s.cfg j s.nicTurn.mem s.nicTurn).record _
        |>.nicTurn hwf done).record _
    have regs : (s.inspectRx j).nic.regs = s.nic.regs.set .rdt (slotWord j) := by
      rw [e, State.consumeRx_regs (by rw [looked.cfg]; exact hwf), (s.lookRx_opNic _).regs]
    obtain ⟨response, events⟩ := State.consumeRx_held hwf done held
    rw [State.lookRx_events, looked.base] at events
    rw [← e] at response events
    have tail : (s.inspectRx j).rxTail = slotWord j := by rw [e]; rfl
    refine ⟨_, (s.memRead (rxDesc s.cfg j + rxdStatus) 1).1, next, response, tail, regs, ?_,
      ⟨run.cfg, run.mac, run.caller⟩, may.base (by simp),
      may.txTail (by simp) (by simp), may.phase (by simp), may.pciCommand (by simp), fun a ha => ?_⟩
    · rw [events, setWidth_setWidth_readLE_two]
    · rw [hj] at ha
      exact run.frame a fun hb => ha (hb.resolve_left (not_namedBytes_of_windowClear clear a))
  · rw [State.readByte_fst] at off
    exact absurd (off.symm.trans done) (by decide)

/-- The two fields that recycling clears, in order: status, length (R210). -/
def recycleFields : List Field := [⟨12, 1, 0⟩, ⟨8, 2, 0⟩]

/-- Recycling leaves the cleared fields, if the controller is silent. -/
theorem State.read_recycleRx {s : State} (clear : s.cfg.windowClear s.base) (quiet : s.Quiet) (j : Slot) {k : Nat}
    (hk : k < 16) {b : Byte} (byte : fieldsByte recycleFields k = some b) :
    (s.recycleRx j).mem.read (rxDesc s.cfg j + BitVec.ofNat 64 k).toNat = b := by
  have still := still_of_calm (q := True) (c := s.cfg) (a := (rxDesc s.cfg j + BitVec.ofNat 64 k).toNat) (Or.inl trivial)
  have calm : Calm True s.cfg s := ⟨rfl, fun _ => quiet⟩
  have stored := still.read_writeFields calm (fs := recycleFields) (n := 16) (by simp [fieldsIn, recycleFields]) hk
    (by norm_num)
  have calmStored : Calm True s.cfg (s.writeFields (rxDesc s.cfg j) recycleFields) :=
    still.writeFields calm (rxDesc s.cfg j) recycleFields
  have keeps : OpKeeps (fun _ => True) s (s.writeFields (rxDesc s.cfg j) recycleFields) :=
    (s.memWrite_op _ (by decide) _ _ fun _ _ => trivial).trans (State.memWrite_op _ _ (by decide) _ _ fun _ _ => trivial)
  have regs : RegsIn (fun _ => False) (s.writeFields (rxDesc s.cfg j) recycleFields) :=
    RegsIn.of_windowClear (by rw [keeps.cfg, keeps.base]; exact clear) _
  have rest := (State.fence_op (s.writeFields (rxDesc s.cfg j) recycleFields) _).thenWrite regs .rdt (slotWord j)
  rw [byte] at stored
  exact (rest.frame.read_of_calm calmStored id (Or.inl trivial)).trans stored

/-- Settles O51. -/
theorem checkReplyClearsConsumedSlot : Obligations.CheckReplyClearsConsumedSlot := by
  rintro s j hwf clear quiet rfl done
  obtain ⟨j, hj⟩ : ∃ j, j = nextSlot (slotOf s.rxTail) := ⟨_, rfl⟩
  rw [← hj] at done ⊢
  have next := exec_checkReply s
  rw [← hj] at next
  rcases s.inspectRx_cases j with ⟨-, e⟩ | ⟨off, -⟩
  · have looked := s.lookRx_op (rxDesc s.cfg j + rxdStatus) fun _ => True
    have regs : (s.inspectRx j).nic.regs = s.nic.regs.set .rdt (slotWord j) := by
      rw [e, State.consumeRx_regs (by rw [looked.cfg]; exact hwf), (s.lookRx_opNic _).regs]
    have tail : (s.inspectRx j).rxTail = slotWord j := by rw [e]; rfl
    have bytes : ∀ k, k < 16 → fieldsByte recycleFields k = some 0 →
        (s.inspectRx j).mem.read (rxDesc s.cfg j + BitVec.ofNat 64 k).toNat = 0 := by
      intro k hk byte
      rw [e]
      generalize (s.readByte (rxDesc s.cfg j + rxdStatus)).2.fence = u at looked
      have read := looked.trans
        (u.readFrame_op (rxDesc u.cfg j + rxdLen) (rxBuf u.cfg j + 23) (rxBuf u.cfg j + 34) fun _ => True)
      show (State.recycleRx _ j).mem.read _ = 0
      rw [← read.cfg]
      exact State.read_recycleRx (by rw [read.cfg, read.base]; exact clear) (read.quiet quiet) j hk byte
    refine ⟨_, next, bytes 12 (by decide) rfl, ?_, by rw [regs]; rfl, tail⟩
    refine Memory.readLE_eq_of_bytes (by decide) (by decide) fun k hk => ?_
    rw [show rxDesc s.cfg j + rxdLen + BitVec.ofNat 64 k = rxDesc s.cfg j + BitVec.ofNat 64 (8 + k) from
      addr_add_ofNat _ 8 k, bytes (8 + k) (by omega) (by interval_cases k <;> rfl)]
    simp
  · rw [State.readByte_fst, State.nicTurn_mem_of_quiet quiet] at off
    exact absurd (off.symm.trans done) (by decide)

end Sys2Proof.Machine
end

section
/-! PROOF. The controller's own accesses: the delivery of a frame (R89) and how it gives slots back (R85, R88, R89). -/

namespace Sys2Proof.Machine

/-! ### The delivery of a frame -/

theorem Nic.rxJob_putRxJob (n : Nic) (j : RxJob) : (n.putRxJob j).rxJob j.slot = some j := by
  simp [Nic.rxJob, Nic.putRxJob]

/-- The write the controller makes, where it may make it. -/
theorem State.rxStore_eq {s : State} {i : Slot} {j : RxJob} {ok : RxJob → Bool} (next : RxJob → Nic)
    (a : RxJob → Addr) (n : Nat) (v : RxJob → BitVec 64) (isOpen : s.rxOpen i = true) (job : s.nic.rxJob i = some j)
    (hok : ok j = true) :
    s.rxStore i ok next a n v = { s with mem := s.mem.writeLE n (a j) (v j), nic := next j } := by
  simp [State.rxStore, job, isOpen, hok]

/-- A frame is on its way into slot `i`, at stage `j`, and `rest` still waits. -/
structure Receiving (c : Cfg) (i : Slot) (rest : List (List Byte)) (j : RxJob) (t : State) : Prop where
  cfg : t.cfg = c
  isOpen : t.rxOpen i = true
  waiting : t.nic.rxWaiting = rest
  job : t.nic.rxJob i = some j

/-- The next stage of a frame on its way: a store that spares the status byte. -/
theorem Receiving.store {c : Cfg} {i : Slot} {rest : List (List Byte)} {j j' : RxJob} {t u : State}
    (h : Receiving c i rest j t) {a : Addr} {n : Nat} {v : BitVec 64} (slot : j'.slot = i)
    (spares : ¬ isByteOf a n (rxDesc c i + rxdStatus).toNat)
    (eq : u = { t with mem := t.mem.writeLE n a v, nic := t.nic.putRxJob j' }) : Receiving c i rest j' u := by
  obtain ⟨rfl, isOpen, waiting, -⟩ := h
  subst eq slot
  refine ⟨rfl, ?_, waiting, Nic.rxJob_putRxJob _ _⟩
  have still : rxDone t.cfg (t.mem.writeLE n a v) j'.slot = rxDone t.cfg t.mem j'.slot :=
    congrArg doneBit (Memory.read_writeLE_of_not_mem _ _ _ _ _ spares)
  rw [← isOpen]
  simp only [State.rxOpen, still, Nic.putRxJob_receives]
  rfl

/-- The write of the next byte of the frame. -/
theorem Receiving.rxData {c : Cfg} {i : Slot} {rest : List (List Byte)} {frame : List Byte} {k : Nat} {t : State}
    (h : Receiving c i rest ⟨i, frame, k, false⟩ t) (long : frame.length ≤ 2048) (hk : k < frame.length) :
    t.nicMove (.rxData i) = { t with
      mem := t.mem.writeLE 1 (rxBuf c i + BitVec.ofNat 64 k) ((frame.getD k 0).setWidth 64)
      nic := t.nic.putRxJob ⟨i, frame, k + 1, false⟩ } := by
  obtain ⟨rfl, isOpen, -, job⟩ := h
  exact State.rxStore_eq _ _ _ _ isOpen job
    (by simp [hk, show k < Config.bufSize by simp only [Config.bufSize]; omega])

/-- The write of the length of a frame that is whole. -/
theorem Receiving.rxLen {c : Cfg} {i : Slot} {rest : List (List Byte)} {frame : List Byte} {t : State}
    (h : Receiving c i rest ⟨i, frame, frame.length, false⟩ t) :
    t.nicMove (.rxLen i) = { t with
      mem := t.mem.writeLE 2 (rxDesc c i + rxdLen) (BitVec.ofNat 64 frame.length)
      nic := t.nic.putRxJob ⟨i, frame, frame.length, true⟩ } := by
  obtain ⟨rfl, isOpen, -, job⟩ := h
  show t.rxLength i = _
  rw [State.rxLength, State.rxStore_eq _ _ _ _ isOpen job (decide_eq_true rfl)]

/-- The write of the status byte once the length is written. -/
theorem Receiving.rxStatus {c : Cfg} {i : Slot} {rest : List (List Byte)} {j : RxJob} {t : State}
    (h : Receiving c i rest j t) (sized : j.sized = true) {st : Byte} (done : doneBit st = true) :
    t.nicMove (.rxStatus i st) = { t with
      mem := t.mem.writeLE 1 (rxDesc c i + rxdStatus) (st.setWidth 64), nic := t.nic.dropRxJob i } := by
  obtain ⟨rfl, isOpen, -, job⟩ := h
  refine (State.rxStore_eq _ _ _ _ isOpen job (by simp [sized])).trans ?_
  rw [if_pos done]

/-- A byte of an RX buffer is no byte of an RX descriptor. -/
theorem rxBuf_byte_ne_rxDesc_byte {c : Cfg} (h : c.WF) (i j : Slot) {k l : Nat} (hk : k < 2048) (hl : l < 16) :
    (rxBuf c i + BitVec.ofNat 64 k).toNat ≠ (rxDesc c j + BitVec.ofNat 64 l).toNat := by
  obtain ⟨_, _, _, _, apart, _⟩ := regions_apart h
  simp only [Region.disjoint, Cfg.rxDescRegion, Cfg.rxBufRegion] at apart
  rw [rxBuf_byte h i hk, rxDesc_byte h j hl]
  omega

/-- `k` bytes of the frame are written, from byte 0, and nothing else. -/
structure Received (s : State) (i : Slot) (frame : List Byte) (k : Nat) (t : State) : Prop where
  bytes : ∀ l b, l < k → frame[l]? = some b → t.mem.read (rxBuf s.cfg i + BitVec.ofNat 64 l).toNat = b
  others : ∀ a, ¬ isByteOf (rxBuf s.cfg i) k a → t.mem.read a = s.mem.read a

/-- One more byte. -/
theorem Received.byte {s t : State} {i : Slot} {frame : List Byte} {rest : List (List Byte)} {k : Nat}
    (hwf : s.cfg.WF) (long : frame.length ≤ 2048) (hk : k < frame.length)
    (h : Received s i frame k t) (stage : Receiving s.cfg i rest ⟨i, frame, k, false⟩ t) :
    Received s i frame (k + 1) (t.nicMove (.rxData i)) ∧
    Receiving s.cfg i rest ⟨i, frame, k + 1, false⟩ (t.nicMove (.rxData i)) := by
  obtain ⟨bytes, others⟩ := h
  have eq := stage.rxData long hk
  have apart : ∀ l, l < k → (rxBuf s.cfg i + BitVec.ofNat 64 l).toNat ≠ (rxBuf s.cfg i + BitVec.ofNat 64 k).toNat := by
    intro l hl
    rw [rxBuf_byte hwf i (show l < 2048 by omega), rxBuf_byte hwf i (show k < 2048 by omega)]
    omega
  refine ⟨⟨fun l b hl hb => ?_, fun a ha => ?_⟩, stage.store rfl (fun hb => ?_) eq⟩
  · rw [eq]
    rcases Nat.lt_succ_iff_lt_or_eq.1 hl with lt | rfl
    · exact (Memory.read_writeLE_of_not_mem _ _ _ _ _ fun hx => apart l lt (isByteOf_one hx)).trans (bytes l b lt hb)
    · refine (Memory.read_writeLE_byte _ _ _).trans ?_
      simp [List.getD, hb]
  · rw [eq]
    refine (Memory.read_writeLE_of_not_mem _ _ _ _ _ fun hx => ha ⟨⟨k, k.lt_succ_self⟩, isByteOf_one hx⟩).trans ?_
    exact others a fun ⟨l, e⟩ => ha ⟨l.castSucc, e⟩
  · exact rxBuf_byte_ne_rxDesc_byte hwf i i (show k < 2048 by omega) (l := 12) (by decide) (isByteOf_one hb).symm

/-- All bytes, one after the other. -/
theorem Received.run {s : State} {i : Slot} {frame : List Byte} {rest : List (List Byte)} (hwf : s.cfg.WF)
    (long : frame.length ≤ 2048) (n : Nat) :
    ∀ {t : State} {k : Nat}, k + n = frame.length → Received s i frame k t →
      Receiving s.cfg i rest ⟨i, frame, k, false⟩ t →
      Received s i frame frame.length ((List.replicate n (.rxData i)).foldl State.nicMove t) ∧
      Receiving s.cfg i rest ⟨i, frame, frame.length, false⟩ ((List.replicate n (.rxData i)).foldl State.nicMove t) := by
  induction n with
  | zero =>
    rintro t k rfl written stage
    exact ⟨written, stage⟩
  | succ n ih =>
    intro t k hk written stage
    obtain ⟨written, stage⟩ := written.byte hwf long (by omega) stage
    exact ih (by omega) written stage

/-- The slot is taken for the frame that has waited longest. -/
theorem State.rxTake_receiving {s : State} {i : Slot} {frame : List Byte} {rest : List (List Byte)}
    (isOpen : s.rxOpen i = true) (waits : s.nic.rxWaiting = frame :: rest) :
    Received s i frame 0 (s.nicMove (.rxTake i)) ∧
    Receiving s.cfg i rest ⟨i, frame, 0, false⟩ (s.nicMove (.rxTake i)) := by
  have eq : s.nicMove (.rxTake i) =
      { s with nic := { s.nic.putRxJob ⟨i, frame, 0, false⟩ with rxWaiting := rest, rxHead := some (nextSlot i) } } := by
    show s.rxTake i = _
    simp [State.rxTake, waits, isOpen]
  rw [eq]
  refine ⟨⟨fun l _ hl => absurd hl l.not_lt_zero, fun _ _ => rfl⟩, rfl, isOpen, rfl, ?_⟩
  exact Nic.rxJob_putRxJob s.nic ⟨i, frame, 0, false⟩

/-- Settles O58. -/
theorem receptionDeliversFrame : Obligations.ReceptionDeliversFrame := by
  intro s frame nonempty long
  refine ⟨fun receives => ?_, ?_⟩
  · show (s.rxArrive frame).nic.rxWaiting = _
    have frameOk : frameOk frame = true := by
      simp only [frameOk, Bool.and_eq_true, decide_eq_true_eq]
      exact ⟨nonempty, long⟩
    simp [State.rxArrive, receives, frameOk]
  rintro t i st rest hwf isOpen waits done rfl
  obtain ⟨written, stage⟩ := s.rxTake_receiving isOpen waits
  obtain ⟨written, stage⟩ := written.run hwf long frame.length (by omega) stage
  simp only [reception, List.foldl_append, List.foldl_cons, List.foldl_nil]
  generalize (List.replicate frame.length (.rxData i)).foldl State.nicMove (s.nicMove (.rxTake i)) = u at written stage
  have sizedEq := stage.rxLen
  have lenByte : ∀ {x}, isByteOf (rxDesc s.cfg i + rxdLen) 2 x → ∃ k, k < 2 ∧
      x = (rxDesc s.cfg i + BitVec.ofNat 64 (8 + k)).toNat := by
    rintro x ⟨k, rfl⟩
    exact ⟨k, k.isLt, congrArg BitVec.toNat (addr_add_ofNat _ 8 k)⟩
  have lenSpares : ¬ isByteOf (rxDesc s.cfg i + rxdLen) 2 (rxDesc s.cfg i + rxdStatus).toNat := by
    intro hb
    obtain ⟨k, hk, e⟩ := lenByte hb
    change (rxDesc s.cfg i + BitVec.ofNat 64 12).toNat = _ at e
    rw [rxDesc_byte hwf i (by decide), rxDesc_byte hwf i (by omega)] at e
    omega
  have bufSpares : ∀ {x}, isByteOf (rxBuf s.cfg i) frame.length x → ∀ l, l < 16 →
      x ≠ (rxDesc s.cfg i + BitVec.ofNat 64 l).toNat := by
    rintro x ⟨k, rfl⟩ l hl
    exact rxBuf_byte_ne_rxDesc_byte hwf i i (by omega) hl
  have sized := stage.store rfl lenSpares sizedEq
  generalize u.nicMove (.rxLen i) = w at sizedEq sized
  have endEq := sized.rxStatus rfl done
  have wmem : w.mem = u.mem.writeLE 2 (rxDesc s.cfg i + rxdLen) (BitVec.ofNat 64 frame.length) := by rw [sizedEq]
  have other : ∀ a, a ≠ (rxDesc s.cfg i + rxdStatus).toNat → ¬ isByteOf (rxDesc s.cfg i + rxdLen) 2 a →
      (w.nicMove (.rxStatus i st)).mem.read a = u.mem.read a := by
    intro a status len
    rw [endEq]
    refine (Memory.read_writeLE_of_not_mem _ _ _ _ _ fun hb => status (isByteOf_one hb)).trans ?_
    rw [wmem]
    exact Memory.read_writeLE_of_not_mem _ _ _ _ _ len
  refine ⟨?_, fun k b hb => ?_, ?_, ?_, fun a buf len status => (other a status len).trans (written.others a buf)⟩
  · rw [endEq]
    exact sized.waiting
  · have hk : k < frame.length := (List.getElem?_eq_some_iff.1 hb).1
    have inBuf : isByteOf (rxBuf s.cfg i) frame.length (rxBuf s.cfg i + BitVec.ofNat 64 k).toNat := ⟨⟨k, hk⟩, rfl⟩
    refine (other _ (bufSpares inBuf 12 (by decide)) fun hl => ?_).trans (written.bytes k b hk hb)
    obtain ⟨l, hl, e⟩ := lenByte hl
    exact bufSpares inBuf (8 + l) (by omega) e
  · have still : (w.nicMove (.rxStatus i st)).mem.readLE 2 (rxDesc s.cfg i + rxdLen) =
        w.mem.readLE 2 (rxDesc s.cfg i + rxdLen) := by
      refine Memory.readLE_congr _ _ fun k hk => ?_
      rw [endEq]
      exact Memory.read_writeLE_of_not_mem _ _ _ _ _ fun hb => lenSpares ⟨⟨k, hk⟩, (isByteOf_one hb).symm⟩
    apply BitVec.eq_of_toNat_eq
    rw [still, wmem, (memoryReadsBackLittleEndian _ _ _ 2 (by decide)).2.1, BitVec.toNat_ofNat]
    omega
  · rw [endEq]
    exact Memory.read_writeLE_byte _ _ _

/-! ### How a slot is given back -/

/-- What a single access of the controller stores, by the access: the status byte of a slot it has taken, the status byte
of a slot with a frame on its way, or bytes of an RX slot other than the status bytes. -/
inductive MoveStores (s : State) : NicMove → Memory → Prop where
  | nothing (mv : NicMove) : MoveStores s mv s.mem
  | txStatus (k : Nat) (v : Byte) (j : TxJob) (taken : s.nic.txJobs[k]? = some j)
      (due : doneBit v = true → j.due s.cfg = true) :
      MoveStores s (.txStatus k v) (s.mem.writeLE 1 (txDesc s.cfg j.slot + txdStatus) (v.setWidth 64))
  | rxStatus (i : Slot) (v : Byte) (j : RxJob) (job : s.nic.rxJob i = some j)
      (sized : doneBit v = true → j.sized = true) :
      MoveStores s (.rxStatus i v) (s.mem.writeLE 1 (rxDesc s.cfg i + rxdStatus) (v.setWidth 64))
  | rxOther (mv : NicMove) (i : Slot) (n : Nat) (a : Addr) (v : BitVec 64)
      (bytes : ∀ x, isByteOf a n x → isRxSlotByte s.cfg i x)
      (spares : ∀ x, isByteOf a n x → ∀ j, x ≠ (rxDesc s.cfg j + rxdStatus).toNat) :
      MoveStores s mv (s.mem.writeLE n a v)

/-- The controller makes the write for a frame on its way, or none. -/
theorem State.rxStore_cases (s : State) (i : Slot) (ok : RxJob → Bool) (next : RxJob → Nic) (a : RxJob → Addr) (n : Nat)
    (v : RxJob → BitVec 64) :
    s.rxStore i ok next a n v = s ∨ ∃ j, s.nic.rxJob i = some j ∧ ok j = true ∧
      s.rxStore i ok next a n v = { s with mem := s.mem.writeLE n (a j) (v j), nic := next j } := by
  cases job : s.nic.rxJob i with
  | none => simp [State.rxStore, job]
  | some j =>
    by_cases isOpen : s.rxOpen i = true
    · by_cases hok : ok j = true
      · exact Or.inr ⟨j, rfl, hok, State.rxStore_eq next a n v isOpen job hok⟩
      · simp [State.rxStore, job, hok]
    · simp [State.rxStore, job, isOpen]

/-- A write for a frame on its way that is no status write. -/
theorem MoveStores.of_rxStore {s : State} {mv : NicMove} (i : Slot) (ok : RxJob → Bool) (next : RxJob → Nic)
    (a : RxJob → Addr) (n : Nat) (v : RxJob → BitVec 64)
    (bytes : ∀ j, ok j = true → ∀ x, isByteOf (a j) n x → isRxSlotByte s.cfg i x)
    (spares : ∀ j, ok j = true → ∀ x, isByteOf (a j) n x → ∀ l, x ≠ (rxDesc s.cfg l + rxdStatus).toNat) :
    MoveStores s mv (s.rxStore i ok next a n v).mem := by
  rcases s.rxStore_cases i ok next a n v with e | ⟨j, -, hok, e⟩ <;> rw [e]
  · exact .nothing mv
  · exact .rxOther mv i n _ _ (bytes j hok) (spares j hok)

/-- Two RX descriptor bytes at different offsets are different bytes. -/
theorem rxDesc_byte_ne {c : Cfg} (h : c.WF) (i j : Slot) {k l : Nat} (hk : k < 16) (hl : l < 16) (hkl : k ≠ l) :
    (rxDesc c i + BitVec.ofNat 64 k).toNat ≠ (rxDesc c j + BitVec.ofNat 64 l).toNat := by
  rw [rxDesc_byte h i hk, rxDesc_byte h j hl]
  omega

/-- A write of an RX descriptor field that does not hold the status byte. -/
theorem MoveStores.of_rxField {s : State} {mv : NicMove} (hwf : s.cfg.WF) (i : Slot) (ok : RxJob → Bool)
    (next : RxJob → Nic) (off n : Nat) (v : RxJob → BitVec 64) (hn : off + n ≤ 16) (off12 : ∀ k, k < n → off + k ≠ 12) :
    MoveStores s mv (s.rxStore i ok next (fun _ => rxDesc s.cfg i + BitVec.ofNat 64 off) n v).mem := by
  refine .of_rxStore i ok next _ n v (fun _ _ x hx => Or.inl (isByteOf_offset hx hn)) ?_
  rintro - - x ⟨k, rfl⟩ l
  rw [addr_add_ofNat]
  exact rxDesc_byte_ne hwf i l (by omega) (l := 12) (by decide) (off12 k k.isLt)

/-- A step with a taken TX slot that leaves memory alone. -/
theorem MoveStores.of_txAdvance {s : State} {mv : NicMove} (k : Nat) (ok : TxJob → Bool) (next : TxJob → State)
    (h : ∀ j, (next j).mem = s.mem) : MoveStores s mv (s.txAdvance k ok next).mem := by
  rcases s.txAdvance_cases k ok next with e | ⟨j, _, _, _, e⟩ <;> rw [e]
  · exact .nothing mv
  · rw [h]
    exact .nothing mv

theorem State.nicMove_moveStores {s : State} (hwf : s.cfg.WF) (mv : NicMove) : MoveStores s mv (s.nicMove mv).mem := by
  cases mv with
  | cause bits => exact .nothing _
  | resetDone rxLost txLost ringsLost causes => exact .nothing _
  | txStart => exact .nothing _
  | txFetch i =>
    show MoveStores s _ (s.txFetch i).mem
    unfold State.txFetch
    split_ifs <;> exact .nothing _
  | txDescByte k => exact .of_txAdvance k _ _ fun _ => rfl
  | txFrameByte k => exact .of_txAdvance k _ _ fun _ => rfl
  | txSent k => exact .of_txAdvance k _ _ fun _ => rfl
  | txStatus k v =>
    show MoveStores s _ (s.txStore k v).mem
    unfold State.txStore
    rcases s.txAdvance_cases k _ _ with e | ⟨j, taken, _, ok, e⟩ <;> rw [e]
    · exact .nothing _
    · exact .txStatus k v j taken fun done => by simpa [done] using ok
  | rxArrive frame =>
    show MoveStores s _ (s.rxArrive frame).mem
    unfold State.rxArrive
    split_ifs <;> exact .nothing _
  | rxDrop => exact .nothing _
  | rxTake i =>
    show MoveStores s _ (s.rxTake i).mem
    unfold State.rxTake
    split
    · split_ifs <;> exact .nothing _
    · exact .nothing _
  | rxData i =>
    refine .of_rxStore i _ _ _ _ _ (fun j ok x hx => ?_) (fun j ok x hx l => ?_)
    all_goals rw [Bool.and_eq_true, decide_eq_true_eq, decide_eq_true_eq] at ok
    · exact Or.inr ⟨⟨j.count, ok.2⟩, isByteOf_one hx⟩
    · rw [isByteOf_one hx]
      exact rxBuf_byte_ne_rxDesc_byte hwf i l ok.2 (l := 12) (by decide)
  | rxLen i => exact .of_rxField hwf i _ _ 8 2 _ (by decide) (by omega)
  | rxCsum i v => exact .of_rxField hwf i _ _ 10 2 _ (by decide) (by omega)
  | rxErrors i v => exact .of_rxField hwf i _ _ 13 1 _ (by decide) (by omega)
  | rxSpecial i v => exact .of_rxField hwf i _ _ 14 2 _ (by decide) (by omega)
  | rxStatus i v =>
    show MoveStores s _ (s.rxFinish i v).mem
    unfold State.rxFinish
    rcases s.rxStore_cases i (fun j => j.sized || !doneBit v) (fun _ => if doneBit v then s.nic.dropRxJob i else s.nic)
      (fun _ => rxDesc s.cfg i + rxdStatus) 1 (fun _ => v.setWidth 64) with e | ⟨j, job, ok, e⟩ <;> rw [e]
    · exact .nothing _
    · exact .rxStatus i v j job fun done => by simpa [done] using ok

/-- An RX done bit is set only by the status write of a frame whose length is written. -/
theorem MoveStores.sets_rxDone {s : State} {mv : NicMove} {m : Memory} (h : MoveStores s mv m) (hwf : s.cfg.WF)
    {i : Slot} (off : rxDone s.cfg s.mem i = false) (done : rxDone s.cfg m i = true) :
    ∃ st j, mv = .rxStatus i st ∧ s.nic.rxJob i = some j ∧ j.sized = true := by
  have unchanged : m.read (rxDesc s.cfg i + rxdStatus).toNat ≠ s.mem.read (rxDesc s.cfg i + rxdStatus).toNat := fun e =>
    Bool.false_ne_true (off.symm.trans ((congrArg doneBit e).symm.trans done))
  cases h with
  | nothing => exact absurd rfl unchanged
  | txStatus k v j _ _ =>
    refine absurd (Memory.read_writeLE_of_not_mem _ _ _ _ _ fun hb => ?_) unchanged
    exact not_isRxSlotByte_txStatus hwf i j.slot (isByteOf_one hb ▸ isRxSlotByte_rxStatus s.cfg i)
  | rxStatus l v j job sized =>
    obtain rfl : i = l := by
      by_contra hil
      refine unchanged (Memory.read_writeLE_of_not_mem _ _ _ _ _ fun hb => ?_)
      have same := isByteOf_one hb
      exact hil (slot_eq_of_isRxSlotByte hwf (isRxSlotByte_rxStatus _ i) (same ▸ isRxSlotByte_rxStatus _ l))
    exact ⟨v, j, rfl, job, sized ((congrArg doneBit (Memory.read_writeLE_byte _ _ v)).symm.trans done)⟩
  | rxOther _ l n a v _ spares =>
    exact absurd (Memory.read_writeLE_of_not_mem _ _ _ _ _ fun hb => spares _ hb i rfl) unchanged

/-- A TX done bit is set only by the status write of a taken slot whose send may be complete and reported. -/
theorem MoveStores.sets_txDone {s : State} {mv : NicMove} {m : Memory} (h : MoveStores s mv m) (hwf : s.cfg.WF)
    {i : Slot} (off : txDone s.cfg s.mem i = false) (done : txDone s.cfg m i = true) :
    ∃ k st j, mv = .txStatus k st ∧ s.nic.txJobs[k]? = some j ∧ j.slot = i ∧ j.due s.cfg = true := by
  have unchanged : m.read (txDesc s.cfg i + txdStatus).toNat ≠ s.mem.read (txDesc s.cfg i + txdStatus).toNat := fun e =>
    Bool.false_ne_true (off.symm.trans ((congrArg doneBit e).symm.trans done))
  cases h with
  | nothing => exact absurd rfl unchanged
  | txStatus k v j taken due =>
    obtain rfl : i = j.slot := by
      by_contra hij
      refine unchanged (Memory.read_writeLE_of_not_mem _ _ _ _ _ fun hb => ?_)
      exact hij (slot_eq_of_txStatus hwf (isByteOf_one hb))
    exact ⟨k, v, j, rfl, taken, rfl, due ((congrArg doneBit (Memory.read_writeLE_byte _ _ v)).symm.trans done)⟩
  | rxStatus l v j _ _ =>
    refine absurd (Memory.read_writeLE_of_not_mem _ _ _ _ _ fun hb => ?_) unchanged
    exact not_isRxSlotByte_txStatus hwf l i (isByteOf_one hb ▸ isRxSlotByte_rxStatus s.cfg l)
  | rxOther _ l n a v bytes _ =>
    exact absurd (Memory.read_writeLE_of_not_mem _ _ _ _ _ fun hb => not_isRxSlotByte_txStatus hwf l i (bytes _ hb))
      unchanged

theorem TxJob.due_iff (c : Cfg) (j : TxJob) :
    j.due c = true ↔ j.stale = true ∨ j.fetched = true ∧ asksReport c j.desc = true := by
  simp [TxJob.due]

/-- Going on with a taken slot takes no other slot. -/
theorem State.setTxJob_slots {s : State} {k : Nat} {i j j' : TxJob} (taken : s.nic.txJobs[k]? = some i)
    (h : j ∈ (s.setTxJob k j').nic.txJobs) (slot : j'.slot = i.slot) : ∃ l ∈ s.nic.txJobs, l.slot = j.slot := by
  rcases List.mem_or_eq_of_mem_set h with old | rfl
  · exact ⟨j, old, rfl⟩
  · exact ⟨i, List.mem_of_getElem? taken, slot.symm⟩

/-- A step with a taken slot that takes no other slot. -/
theorem State.txAdvance_slots {s : State} {k : Nat} {ok : TxJob → Bool} {next : TxJob → State} {j : TxJob}
    (h : j ∈ (s.txAdvance k ok next).nic.txJobs)
    (stays : ∀ i, s.nic.txJobs[k]? = some i → j ∈ (next i).nic.txJobs → ∃ l ∈ s.nic.txJobs, l.slot = j.slot) :
    ∃ l ∈ s.nic.txJobs, l.slot = j.slot := by
  rcases s.txAdvance_cases k ok next with e | ⟨i, taken, _, _, e⟩ <;> rw [e] at h
  · exact ⟨j, h, rfl⟩
  · exact stays i taken h

/-- A slot that is newly taken is one that was handed over. -/
theorem State.nicMove_txJobs {s : State} (mv : NicMove) {j : TxJob} (h : j ∈ (s.nicMove mv).nic.txJobs) :
    (∃ l ∈ s.nic.txJobs, l.slot = j.slot) ∨ mv = .txFetch j.slot ∧ s.nic.txHolds j.slot = true := by
  have rx : ∀ {i ok next a n v}, j ∈ (s.rxStore i ok next a n v).nic.txJobs →
      (∀ r, (next r).txJobs = s.nic.txJobs) → ∃ l ∈ s.nic.txJobs, l.slot = j.slot := by
    intro i ok next a n v hj same
    rcases s.rxStore_cases i ok next a n v with e | ⟨r, _, _, e⟩ <;> rw [e] at hj
    · exact ⟨j, hj, rfl⟩
    · exact ⟨j, same r ▸ hj, rfl⟩
  cases mv with
  | txFetch i =>
    change j ∈ (s.txFetch i).nic.txJobs at h
    unfold State.txFetch at h
    split_ifs at h with may
    · rcases List.mem_append.1 h with old | new
      · exact Or.inl ⟨j, old, rfl⟩
      · obtain rfl := List.mem_singleton.1 new
        simp only [Bool.and_eq_true, Nic.txOffers] at may
        exact Or.inr ⟨rfl, may.2.1⟩
    · exact Or.inl ⟨j, h, rfl⟩
  | resetDone rxLost txLost ringsLost causes =>
    change j ∈ (s.nic.resetEnds rxLost txLost ringsLost causes).txJobs at h
    by_cases pending : s.nic.resetPending = true
    · rw [Nic.resetEnds, if_pos pending] at h
      exact absurd h List.not_mem_nil
    · rw [Nic.resetEnds, if_neg pending] at h
      exact Or.inl ⟨j, h, rfl⟩
  | txDescByte k => exact Or.inl (State.txAdvance_slots h fun _ taken hj => State.setTxJob_slots taken hj rfl)
  | txFrameByte k => exact Or.inl (State.txAdvance_slots h fun _ taken hj => State.setTxJob_slots taken hj rfl)
  | txSent k => exact Or.inl (State.txAdvance_slots h fun _ _ hj => ⟨j, List.mem_of_mem_eraseIdx hj, rfl⟩)
  | txStatus k v =>
    refine Or.inl (State.txAdvance_slots h fun _ _ hj => ⟨j, ?_, rfl⟩)
    change j ∈ (if doneBit v then s.dropTxJob k else s).nic.txJobs at hj
    split_ifs at hj
    · exact List.mem_of_mem_eraseIdx hj
    · exact hj
  | cause bits => exact Or.inl ⟨j, h, rfl⟩
  | txStart => exact Or.inl ⟨j, h, rfl⟩
  | rxArrive frame =>
    change j ∈ (s.rxArrive frame).nic.txJobs at h
    unfold State.rxArrive at h
    split_ifs at h <;> exact Or.inl ⟨j, h, rfl⟩
  | rxDrop => exact Or.inl ⟨j, h, rfl⟩
  | rxTake i =>
    change j ∈ (s.rxTake i).nic.txJobs at h
    unfold State.rxTake at h
    split at h
    · split_ifs at h <;> exact Or.inl ⟨j, h, rfl⟩
    · exact Or.inl ⟨j, h, rfl⟩
  | rxData i => exact Or.inl (rx h fun _ => rfl)
  | rxLen i => exact Or.inl (rx h fun _ => rfl)
  | rxCsum i v => exact Or.inl (rx h fun _ => rfl)
  | rxErrors i v => exact Or.inl (rx h fun _ => rfl)
  | rxSpecial i v => exact Or.inl (rx h fun _ => rfl)
  | rxStatus i v => exact Or.inl (rx h fun _ => by split_ifs <;> rfl)

/-- Settles O59. -/
theorem slotsAreGivenBackOnCompletion : Obligations.SlotsAreGivenBackOnCompletion := by
  rintro s _ mv i hwf rfl
  have stores := State.nicMove_moveStores hwf mv
  refine ⟨stores.sets_rxDone hwf, fun off done => ?_, ?_⟩
  · obtain ⟨k, st, j, rfl, taken, slot, due⟩ := stores.sets_txDone hwf off done
    exact ⟨k, st, j, rfl, taken, slot, (TxJob.due_iff _ _).1 due⟩
  · rintro free ⟨j, taken, rfl⟩
    refine (State.nicMove_txJobs mv taken).resolve_left ?_
    rintro ⟨l, hl, same⟩
    exact free l hl same

end Sys2Proof.Machine
end

section
/-! PROOF. The scan of FIND_DEVICE (R150) by the draws that its configuration reads consume. -/

namespace Sys2Proof.Machine

/-- The function that the `k`-th probe of the scan reads: bus outer, slot inner (R150). -/
def pciFunction (k : Nat) : Nat × Nat := (k / 32, k % 32)

/-- The functions of the probes from number `k` on, `n` of them. -/
def functionsFrom (k n : Nat) : List (Nat × Nat) := (List.range' k n).map pciFunction

/-- The functions of one bus, in order. -/
theorem functionsFrom_bus (b : Nat) : functionsFrom (32 * b) 32 = (List.range 32).map fun t => (b, t) := by
  rw [functionsFrom, List.range'_eq_map_range, List.map_map]
  refine List.map_congr_left fun t ht => ?_
  have ht := List.mem_range.1 ht
  show ((32 * b + t) / 32, (32 * b + t) % 32) = (b, t)
  rw [show (32 * b + t) / 32 = b by omega, show (32 * b + t) % 32 = t by omega]

/-- The functions of the first `n` buses, in order. -/
theorem functionsFrom_buses (n : Nat) :
    functionsFrom 0 (32 * n) = (List.range n).flatMap fun b => (List.range 32).map fun t => (b, t) := by
  induction n with
  | zero => rfl
  | succ n ih =>
    rw [List.range_succ (n := n), List.flatMap_append, ← ih, List.flatMap_singleton, ← functionsFrom_bus, functionsFrom,
      functionsFrom, functionsFrom, ← List.map_append, Nat.mul_succ]
    have split := @List.range'_append 0 (32 * n) 32 1
    rw [Nat.zero_add, Nat.one_mul] at split
    rw [split]

theorem pciFunctions_eq : pciFunctions = functionsFrom 0 256 := (functionsFrom_buses 8).symm

theorem Env.present_congr {e f : Env} (h : f.functions = e.functions) (bus slot : Nat) :
    f.present bus slot = e.present bus slot := by
  rw [Env.present, h, Env.present]

theorem functionsFrom_succ (k n : Nat) : functionsFrom k (n + 1) = pciFunction k :: functionsFrom (k + 1) n := by
  simp [functionsFrom, List.range'_succ]

/-- What the probes from number `k` on answer when these are the coming draws. -/
def answersFrom (e : Env) (k : Nat) (draws : List Word) : List Word :=
  (draws.zipIdx k).map fun p => if e.present (p.2 / 32) (p.2 % 32) then p.1 else 0xFFFFFFFF

theorem answersFrom_cons (e : Env) (k : Nat) (d : Word) (draws : List Word) :
    answersFrom e k (d :: draws) =
      (if e.present (k / 32) (k % 32) then d else 0xFFFFFFFF) :: answersFrom e (k + 1) draws := by
  simp [answersFrom, List.zipIdx_cons]

@[simp] theorem length_answersFrom (e : Env) (k : Nat) (draws : List Word) :
    (answersFrom e k draws).length = draws.length := by simp [answersFrom]

/-- Which functions exist is all that the answers depend on besides the draws. -/
theorem answersFrom_congr {e f : Env} (h : f.functions = e.functions) (k : Nat) (draws : List Word) :
    answersFrom f k draws = answersFrom e k draws := by
  simp only [answersFrom, Env.present_congr h]

/-- The identification reads from number `k` on with these answers, newest first. -/
def probeEvents (c : Cfg) (k : Nat) (answers : List Word) : List Event :=
  ((answers.zipIdx k).map fun p => Event.cfgRead (p.2 / 32) (p.2 % 32) 0 c.pciIdOff p.1).reverse

theorem idReads_eq (c : Cfg) (answers : List Word) : idReads c answers = probeEvents c 0 answers := rfl

theorem probeEvents_cons (c : Cfg) (k : Nat) (x : Word) (answers : List Word) :
    probeEvents c k (x :: answers) =
      probeEvents c (k + 1) answers ++ [.cfgRead (k / 32) (k % 32) 0 c.pciIdOff x] := by
  simp [probeEvents, List.zipIdx_cons]

theorem probeEvents_append (c : Cfg) (answers : List Word) (x : Word) :
    probeEvents c 0 (answers ++ [x]) =
      .cfgRead (answers.length / 32) (answers.length % 32) 0 c.pciIdOff x :: probeEvents c 0 answers := by
  simp [probeEvents, List.zipIdx_append]

/-! ### One configuration read -/

/-- The block is as before but for reads of configuration space. -/
structure Probed (s t : State) : Prop where
  op : OpKeeps (fun _ => False) s t
  pciCommand : t.pciCommand = s.pciCommand
  functions : t.env.functions = s.env.functions

theorem Probed.refl (s : State) : Probed s s := ⟨OpKeeps.refl _ s, rfl, rfl⟩

theorem Probed.trans {s t u : State} (h : Probed s t) (g : Probed t u) : Probed s u :=
  ⟨h.op.trans g.op, g.pciCommand.trans h.pciCommand, g.functions.trans h.functions⟩

theorem State.cfgRead_probed (s : State) (bus slot : Nat) (off : Byte) : Probed s (s.cfgRead bus slot off).2 :=
  ⟨s.cfgRead_op bus slot off _, (s.cfgRead_opNic bus slot off).pciCommand, rfl⟩

/-- A configuration read answers its draw if the function exists, else all-ones (R66). -/
theorem State.cfgRead_answer {s : State} {d : Word} {rest : List Word} (h : s.env.cfgReads = d :: rest)
    (bus slot : Nat) (off : Byte) :
    (s.cfgRead bus slot off).1 = if s.env.present bus slot then d else 0xFFFFFFFF := by
  show s.env.advance.cfgAnswer bus slot = _
  simp only [Env.cfgAnswer, Env.present_advance, Env.cfgDraw, Env.advance_cfgReads, h]

/-- A configuration read consumes its draw. -/
theorem State.cfgRead_consumes {s : State} {d : Word} {rest : List Word} (h : s.env.cfgReads = d :: rest)
    (bus slot : Nat) (off : Byte) : (s.cfgRead bus slot off).2.env.cfgReads = rest := by
  show s.env.cfgReads.tail = rest
  rw [h]
  rfl

/-! ### The scan -/

theorem State.scan_of_no_match {s : State} {p : Nat × Nat} (ps : List (Nat × Nat))
    (h : isMatch s.cfg (s.cfgRead p.1 p.2 s.cfg.pciIdOff).1 = false) :
    s.scan (p :: ps) = (s.cfgRead p.1 p.2 s.cfg.pciIdOff).2.scan ps := by
  simp [State.scan, h]

theorem State.scan_of_match {s : State} {p : Nat × Nat} (ps : List (Nat × Nat))
    (h : isMatch s.cfg (s.cfgRead p.1 p.2 s.cfg.pciIdOff).1 = true) :
    s.scan (p :: ps) = (true, (s.cfgRead p.1 p.2 s.cfg.pciIdOff).2.claimDevice p.1 p.2) := by
  simp [State.scan, h]

/-- The scan goes past the functions whose identification words do not match. -/
theorem State.scan_past (draws : List Word) : ∀ (s : State) (k n : Nat) (rest : List Word),
    s.env.cfgReads = draws ++ rest → (∀ x ∈ answersFrom s.env k draws, isMatch s.cfg x = false) →
    ∃ u, s.scan (functionsFrom k (draws.length + n)) = u.scan (functionsFrom (k + draws.length) n) ∧
      u.env.cfgReads = rest ∧ u.events = probeEvents s.cfg k (answersFrom s.env k draws) ++ s.events ∧ Probed s u := by
  induction draws with
  | nil =>
    intro s k n rest coming _
    exact ⟨s, by simp, coming, rfl, Probed.refl s⟩
  | cons d draws ih =>
    intro s k n rest coming none
    have answer := State.cfgRead_answer coming (k / 32) (k % 32) s.cfg.pciIdOff
    have consumes := State.cfgRead_consumes coming (k / 32) (k % 32) s.cfg.pciIdOff
    have probed := s.cfgRead_probed (k / 32) (k % 32) s.cfg.pciIdOff
    have events := s.cfgRead_events (k / 32) (k % 32) s.cfg.pciIdOff
    rw [answersFrom_cons, ← answer] at none ⊢
    have first : isMatch s.cfg (s.cfgRead (k / 32) (k % 32) s.cfg.pciIdOff).1 = false := none _ List.mem_cons_self
    have scan : s.scan (functionsFrom k ((d :: draws).length + n)) =
        (s.cfgRead (k / 32) (k % 32) s.cfg.pciIdOff).2.scan (functionsFrom (k + 1) (draws.length + n)) := by
      rw [List.length_cons, Nat.add_right_comm, functionsFrom_succ]
      exact State.scan_of_no_match (p := pciFunction k) _ first
    generalize (s.cfgRead (k / 32) (k % 32) s.cfg.pciIdOff).2 = v at consumes probed events scan
    have same := answersFrom_congr probed.functions (k + 1) draws
    obtain ⟨u, scanRest, left, history, kept⟩ := ih v (k + 1) n rest consumes (by
      rw [same, probed.op.cfg]
      exact fun x hx => none x (List.mem_cons_of_mem _ hx))
    refine ⟨u, ?_, left, ?_, probed.trans kept⟩
    · rw [scan, scanRest, List.length_cons, Nat.add_right_comm, Nat.add_assoc]
    · rw [history, same, probed.op.cfg, events, probeEvents_cons, List.append_assoc]
      rfl

/-- What a match does, by its two draws (R150). -/
theorem State.claimDevice_spec {s : State} {bus slot : Nat} {cmd bar : Word} {rest : List Word}
    (coming : s.env.cfgReads = cmd :: bar :: rest) (present : s.env.present bus slot = true) :
    (s.claimDevice bus slot).base = bar &&& 0xFFFFFFF0 ∧
    (s.claimDevice bus slot).pciCommand = cmd ||| s.cfg.pciCmdBme ||| s.cfg.pciCmdMse ∧
    (s.claimDevice bus slot).events =
      .cfgRead bus slot 0 s.cfg.pciBar0Off bar ::
      .cfgWrite bus slot 0 s.cfg.pciCmdOff (cmd ||| s.cfg.pciCmdBme ||| s.cfg.pciCmdMse) ::
      .cfgRead bus slot 0 s.cfg.pciCmdOff cmd :: s.events := by
  have cmdAnswer := State.cfgRead_answer coming bus slot s.cfg.pciCmdOff
  have cmdConsumes := State.cfgRead_consumes coming bus slot s.cfg.pciCmdOff
  have cmdEvents := s.cfgRead_events bus slot s.cfg.pciCmdOff
  have cmdProbed := s.cfgRead_probed bus slot s.cfg.pciCmdOff
  rw [if_pos present] at cmdAnswer
  rw [cmdAnswer] at cmdEvents
  simp only [State.claimDevice, cmdAnswer]
  generalize (s.cfgRead bus slot s.cfg.pciCmdOff).2 = v at cmdConsumes cmdEvents cmdProbed
  obtain ⟨w, hw⟩ : ∃ w, w = v.cfgWriteCommand bus slot (pciCommandValue s.cfg cmd) := ⟨_, rfl⟩
  have written : w.pciCommand = pciCommandValue s.cfg cmd := by rw [hw]; exact v.cfgWriteCommand_pciCommand _ _ _
  have wEvents : w.events = .cfgWrite bus slot 0 s.cfg.pciCmdOff (pciCommandValue s.cfg cmd) :: v.events := by
    rw [hw, v.cfgWriteCommand_events, cmdProbed.op.cfg]
  have wReads : w.env.cfgReads = bar :: rest := by rw [hw]; exact cmdConsumes
  have wPresent : w.env.present bus slot = true := by
    rw [hw]
    exact (Env.present_congr cmdProbed.functions _ _).trans present
  rw [← hw]
  have barAnswer := State.cfgRead_answer wReads bus slot s.cfg.pciBar0Off
  rw [if_pos wPresent] at barAnswer
  refine ⟨?_, ?_, ?_⟩
  · rw [barAnswer]
    rfl
  · exact (w.cfgRead_probed bus slot s.cfg.pciBar0Off).pciCommand.trans written
  · have barEvents := w.cfgRead_events bus slot s.cfg.pciBar0Off
    rw [barAnswer, wEvents, cmdEvents] at barEvents
    exact barEvents

/-- Settles O23: the scan past the words that do not match, and then nothing or the claim. -/
theorem findDeviceTakesFirstMatch : Obligations.FindDeviceTakesFirstMatch := by
  intro s
  refine ⟨?_, ?_⟩
  · rintro draws ids rest coming all rfl none
    obtain ⟨u, scan, -, events, probed⟩ := s.scan_past draws 0 0 rest coming none
    rw [all, ← pciFunctions_eq] at scan
    change s.scan pciFunctions = (false, u) at scan
    refine ⟨_, exec_findDevice s, ?_⟩
    rw [scan]
    refine ⟨?_, events, probed.op.keepsSession, probed.pciCommand⟩
    exact congrArg (fun base => some (⟨false, false, base⟩ : Response)) probed.op.base
  · rintro draws ids id cmd bar rest coming short rfl none present isId
    obtain ⟨n, hn⟩ : ∃ n, 256 = draws.length + (n + 1) := ⟨255 - draws.length, by omega⟩
    obtain ⟨u, scan, coming, events, probed⟩ := s.scan_past draws 0 (n + 1) _ coming none
    have hk : (idAnswers s.env draws).length = draws.length := length_answersFrom s.env 0 draws
    rw [idReads_eq, probeEvents_append, ← idReads_eq]
    rw [hk] at present ⊢
    generalize draws.length = k at hn scan present
    rw [← hn, ← pciFunctions_eq, Nat.zero_add, functionsFrom_succ] at scan
    have uPresent : u.env.present (k / 32) (k % 32) = true :=
      (Env.present_congr probed.functions _ _).trans present
    have answer := State.cfgRead_answer coming (k / 32) (k % 32) u.cfg.pciIdOff
    rw [if_pos uPresent] at answer
    have found := State.scan_of_match (s := u) (p := pciFunction k) (functionsFrom (k + 1) n) (by
      rw [show (u.cfgRead (pciFunction k).1 (pciFunction k).2 u.cfg.pciIdOff).1 = id from answer, probed.op.cfg]
      exact isId)
    change _ = (true, (u.cfgRead (k / 32) (k % 32) u.cfg.pciIdOff).2.claimDevice (k / 32) (k % 32)) at found
    have idProbed := u.cfgRead_probed (k / 32) (k % 32) u.cfg.pciIdOff
    have idConsumes := State.cfgRead_consumes coming (k / 32) (k % 32) u.cfg.pciIdOff
    have idEvents := u.cfgRead_events (k / 32) (k % 32) u.cfg.pciIdOff
    rw [answer, events] at idEvents
    generalize (u.cfgRead (k / 32) (k % 32) u.cfg.pciIdOff).2 = v at found idProbed idConsumes idEvents
    have toV := probed.trans idProbed
    obtain ⟨base, command, history⟩ := State.claimDevice_spec (s := v) (bus := k / 32) (slot := k % 32) idConsumes
      ((Env.present_congr toV.functions _ _).trans present)
    rw [toV.op.cfg] at command history
    have scanned := v.claimDevice_run (k / 32) (k % 32) fun _ => False
    have keeps := v.claimDevice_scan (k / 32) (k % 32)
    refine ⟨_, exec_findDevice s, ?_⟩
    rw [scan, found]
    generalize v.claimDevice (k / 32) (k % 32) = t at base command history scanned keeps
    refine ⟨base, congrArg (fun base => some (⟨false, true, base⟩ : Response)) base, command, ?_, ?_,
      keeps.txTail.trans toV.op.txTail, keeps.rxTail.trans toV.op.rxTail, keeps.phase.trans toV.op.phase⟩
    · refine history.trans ?_
      rw [idEvents, probed.op.cfg]
      rfl
    · exact ⟨scanned.cfg.trans toV.op.cfg, scanned.mac.trans toV.op.mac, scanned.caller.trans toV.op.caller⟩

end Sys2Proof.Machine
end

section
/-! PROOF. The events of INIT, counted (R174, C9). -/

namespace Sys2Proof.Machine

/-- How many events of each kind of C9 a run adds. -/
structure EventCounts where
  regWrites : Nat
  regReads : Nat
  fences : Nat
  ramWrites : Nat
  spins : Nat

def EventCounts.plus (m n : EventCounts) : EventCounts :=
  ⟨m.regWrites + n.regWrites, m.regReads + n.regReads, m.fences + n.fences, m.ramWrites + n.ramWrites,
    m.spins + n.spins⟩

/-- The counts of a run of events. -/
def eventCounts (es : List Event) : EventCounts :=
  ⟨es.countP isRegWrite, es.countP isRegRead, es.countP isFence, es.countP isRamWrite, (es.map spinsOf).sum⟩

theorem eventCounts_append (es fs : List Event) : eventCounts (es ++ fs) = (eventCounts fs).plus (eventCounts es) := by
  simp [eventCounts, EventCounts.plus, Nat.add_comm]

/-- From `s` to `t` the history gains events with these counts. -/
def Adds (s t : State) (n : EventCounts) : Prop := ∃ es, t.events = es ++ s.events ∧ eventCounts es = n

theorem Adds.trans {s t u : State} {m n : EventCounts} (h : Adds s t m) (g : Adds t u n) : Adds s u (m.plus n) := by
  obtain ⟨es, he, rfl⟩ := h
  obtain ⟨fs, hf, rfl⟩ := g
  exact ⟨fs ++ es, by rw [hf, he, List.append_assoc], eventCounts_append fs es⟩

/-- A change that records nothing. -/
theorem Adds.of_events_eq {s t u : State} {n : EventCounts} (h : Adds s t n) (e : u.events = t.events) : Adds s u n := by
  obtain ⟨es, he, hn⟩ := h
  exact ⟨es, e.trans he, hn⟩

theorem State.writeNamed_adds (s : State) (r : Reg) (v : Word) : Adds s (s.writeNamed r v) ⟨1, 0, 1, 0, 0⟩ :=
  ⟨[_, _], s.writeReg_events _ v, rfl⟩

theorem State.readNamed_adds (s : State) (r : Reg) : Adds s (s.readNamed r).2 ⟨0, 1, 1, 0, 0⟩ :=
  ⟨[_, _], s.readReg_events _, rfl⟩

theorem State.delay_adds (s : State) (n : Nat) : Adds s (s.delay n) ⟨0, 0, 0, 0, n⟩ := by
  refine ⟨_, s.delay_events n, ?_⟩
  split_ifs with h
  · subst h
    rfl
  · rfl

theorem State.memWrite_adds (s : State) (a : Addr) {n : Nat} (hn : n ≠ 4) (v : BitVec 64) :
    Adds s (s.memWrite a n v) ⟨0, 0, 0, 1, 0⟩ := by
  refine ⟨[_], s.memWrite_events a n v, ?_⟩
  simp [eventCounts, isRegWrite, isRegRead, isFence, isRamWrite, spinsOf, hn]

/-- One more register write. -/
theorem Adds.thenWrite {s t : State} {n : EventCounts} (h : Adds s t n) (r : Reg) (v : Word) :
    Adds s (t.writeNamed r v) (n.plus ⟨1, 0, 1, 0, 0⟩) := h.trans (t.writeNamed_adds r v)

/-- The fields of a descriptor: one write each. -/
theorem State.writeFields_adds {fs : List Field} (h : ∀ f ∈ fs, f.size ≠ 4) (s : State) (d : Addr) :
    Adds s (s.writeFields d fs) ⟨0, 0, 0, fs.length, 0⟩ := by
  induction fs generalizing s with
  | nil => exact ⟨[], rfl, rfl⟩
  | cons f fs ih =>
    have rest := (s.memWrite_adds (d + BitVec.ofNat 64 f.off) (h f List.mem_cons_self) f.value).trans
      (ih (fun g hg => h g (List.mem_cons_of_mem _ hg)) _)
    rw [List.length_cons, Nat.add_comm]
    exact rest

/-- The fields of an RX descriptor as step 6 writes them (R167). -/
def rxFields (c : Cfg) (i : Slot) : List Field :=
  [⟨0, 8, rxBuf c i⟩, ⟨8, 2, 0⟩, ⟨10, 2, 0⟩, ⟨12, 1, 0⟩, ⟨13, 1, 0⟩, ⟨14, 2, 0⟩]

/-- The fields of a TX descriptor as step 10 writes them (R171). -/
def txFields (c : Cfg) (i : Slot) : List Field :=
  [⟨0, 8, txBuf c i⟩, ⟨8, 2, 0⟩, ⟨10, 1, 0⟩, ⟨11, 1, 0⟩, ⟨12, 1, 1⟩, ⟨13, 1, 0⟩, ⟨14, 2, 0⟩]

theorem State.clearRxDesc_eq (s : State) (i : Slot) : s.clearRxDesc i = s.writeFields (rxDesc s.cfg i) (rxFields s.cfg i) :=
  rfl

theorem State.clearTxDesc_eq (s : State) (i : Slot) : s.clearTxDesc i = s.writeFields (txDesc s.cfg i) (txFields s.cfg i) :=
  rfl

/-- A ring of descriptors, each of `n` writes. -/
theorem foldl_adds {f : State → Slot → State} {n : Nat} (h : ∀ s i, Adds s (f s i) ⟨0, 0, 0, n, 0⟩) (is : List Slot)
    (s : State) : Adds s (is.foldl f s) ⟨0, 0, 0, n * is.length, 0⟩ := by
  induction is generalizing s with
  | nil => exact ⟨[], rfl, rfl⟩
  | cons i is ih =>
    rw [List.length_cons, Nat.mul_succ, Nat.add_comm]
    exact (h s i).trans (ih _)

theorem State.initStep6_adds (s : State) : Adds s s.initStep6 ⟨0, 0, 0, 48, 0⟩ :=
  foldl_adds (fun u i => State.writeFields_adds (fs := rxFields u.cfg i) (by simp [rxFields]) u (rxDesc u.cfg i)) allSlots s

theorem State.initStep10_adds (s : State) : Adds s s.initStep10 ⟨0, 0, 0, 56, 0⟩ :=
  foldl_adds (fun u i => State.writeFields_adds (fs := txFields u.cfg i) (by simp [txFields]) u (txDesc u.cfg i)) allSlots s

theorem State.initStep1_adds (s : State) : Adds s s.initStep1 ⟨1, 0, 1, 0, s.cfg.delayMask⟩ := by
  have a := (s.writeNamed_adds .imask s.cfg.imaskAll).trans (State.delay_adds _ s.cfg.delayMask)
  simp only [EventCounts.plus, Nat.add_zero, Nat.zero_add] at a
  exact a

theorem State.initStep2_adds (s : State) : Adds s s.initStep2 ⟨0, 1, 1, 0, 0⟩ := s.readNamed_adds .icause

theorem State.initStep3_adds (s : State) : Adds s s.initStep3 ⟨1, 1, 2, 0, 0⟩ :=
  (s.readNamed_adds .ctrl).thenWrite .ctrl _

theorem State.initStep4_adds (s : State) : Adds s s.initStep4 ⟨0, 0, 0, 0, s.cfg.delayReset⟩ := s.delay_adds _

theorem State.initStep5_adds (s : State) : Adds s s.initStep5 ⟨1, 1, 2, 0, 0⟩ :=
  ((s.readNamed_adds .icause).thenWrite .imask s.cfg.imaskAll).of_events_eq (State.setPhase_events _ .reset)

theorem State.initReset_adds (s : State) : Adds s s.initReset ⟨3, 3, 6, 0, s.cfg.delayMask + s.cfg.delayReset⟩ := by
  have k3 := ((s.initStep1_init _ (RegsIn.all s)).trans (State.initStep2_init _ _)).trans
    (State.initStep3_init _ _ (RegsIn.all _))
  have a3 := (s.initStep1_adds.trans (State.initStep2_adds _)).trans (State.initStep3_adds _)
  have a5 := (a3.trans (State.initStep4_adds _)).trans (State.initStep5_adds _)
  rw [k3.run.cfg] at a5
  simp only [EventCounts.plus, Nat.add_zero, Nat.zero_add, Nat.reduceAdd] at a5
  rw [State.initReset]
  exact a5

theorem State.initReceive_adds (s : State) : Adds s s.initReceive ⟨8, 0, 8, 48, 0⟩ := by
  have a7 := ((((s.initStep6_adds.thenWrite .rdbal (baseLow s.initStep6.cfg.rxDescBase)).thenWrite .rdbah
    (baseHigh s.initStep6.cfg.rxDescBase)).thenWrite .rdlen ringLength).thenWrite .rdh 0).thenWrite .rdt 7
  have a8 := ((a7.of_events_eq (State.setRxTail_events _ 7)).thenWrite .macfLo (macfLo s.initStep6.initStep7.mac)).thenWrite
    .macfHi (macfHi s.initStep6.initStep7.mac)
  have a9 := (a8.of_events_eq (State.setPhase_events _ .rxConfigured)).thenWrite .rctl
    (rctlValue s.initStep6.initStep7.initStep8.cfg)
  exact a9.of_events_eq (State.setPhase_events _ .rxEnabled)

theorem State.initTransmit_adds (s : State) : Adds s s.initTransmit ⟨7, 0, 7, 56, 0⟩ := by
  have a11 := (((((s.initStep10_adds.thenWrite .tdbal (baseLow s.initStep10.cfg.txDescBase)).thenWrite .tdbah
    (baseHigh s.initStep10.cfg.txDescBase)).thenWrite .tdlen ringLength).thenWrite .tdh 0).thenWrite .tdt 0).thenWrite
    .tipg s.initStep10.cfg.tipgValue
  have a12 := (a11.of_events_eq ((State.setPhase_events _ .txConfigured).trans (State.setTxTail_events _ 0))).thenWrite
    .tctl (tctlValue s.initStep10.initStep11.cfg)
  exact a12.of_events_eq (State.setPhase_events _ .ready)

/-- Settles O30: the counts of the three parts, summed. -/
theorem initEventCounts : Obligations.InitEventCounts := by
  intro s
  obtain ⟨es, events, counts⟩ := (s.initReset_adds.trans (State.initReceive_adds _)).trans (State.initTransmit_adds _)
  refine ⟨_, es, exec_init s, events, ?_⟩
  simp only [eventCounts, EventCounts.plus, EventCounts.mk.injEq] at counts
  exact counts

end Sys2Proof.Machine
end

section
/-! PROOF. What INIT leaves in the two descriptor rings (R167, R171, R174), whatever the controller does. -/

namespace Sys2Proof.Machine

/-! ### Writing a ring -/

/-- `f` writes the descriptor of a slot, at `d i`, and `d i` has 16 bytes of its own. -/
structure WritesRing (R : State → Prop) (f : State → Slot → State) (d : Slot → Addr) (fs : Slot → List Field) : Prop where
  eq : ∀ s i, R s → f s i = s.writeFields (d i) (fs i)
  inside : ∀ i, fieldsIn 16 (fs i)
  apart : ∀ i j k l, k < 16 → l < 16 → (d i + BitVec.ofNat 64 k).toNat = (d j + BitVec.ofNat 64 l).toNat → i = j ∧ k = l

theorem WritesRing.still {R : State → Prop} {f : State → Slot → State} {d : Slot → Addr} {fs : Slot → List Field} {x : Nat}
    (w : WritesRing R f d fs) (still : Still R x) (is : List Slot) {s : State} (hs : R s) : R (is.foldl f s) := by
  induction is generalizing s with
  | nil => exact hs
  | cons i is ih => exact ih (w.eq s i hs ▸ still.writeFields hs _ _)

/-- A field of a descriptor holds no byte of another descriptor. -/
theorem WritesRing.not_isByteOf {R : State → Prop} {f : State → Slot → State} {d : Slot → Addr} {fs : Slot → List Field}
    (w : WritesRing R f d fs) {i j : Slot} (hij : j ≠ i) {k : Nat} (hk : k < 16) :
    ∀ g ∈ fs j, ¬ isByteOf (d j + BitVec.ofNat 64 g.off) g.size (d i + BitVec.ofNat 64 k).toNat := by
  rintro g hg hb
  obtain ⟨l, hl⟩ := isByteOf_offset hb (w.inside j g hg)
  exact hij (w.apart i j k l hk l.isLt hl).1.symm

/-- The ring holds what was written to the descriptors of its slots, at the bytes that stand still. -/
theorem WritesRing.read {R : State → Prop} {f : State → Slot → State} {d : Slot → Addr} {fs : Slot → List Field}
    (w : WritesRing R f d fs) {i : Slot} {k : Nat} {b : Byte} (hk : k < 16)
    (still : Still R (d i + BitVec.ofNat 64 k).toNat) (byte : fieldsByte (fs i) k = some b) (is : List Slot) {s : State}
    (hs : R s) (hi : i ∈ is ∨ s.mem.read (d i + BitVec.ofNat 64 k).toNat = b) :
    (is.foldl f s).mem.read (d i + BitVec.ofNat 64 k).toNat = b := by
  induction is generalizing s with
  | nil => simpa using hi
  | cons j is ih =>
    rw [List.foldl_cons, w.eq s j hs]
    refine ih (still.writeFields hs _ _) ?_
    by_cases hij : j = i
    · subst hij
      rw [still.read_writeFields hs (w.inside j) hk (by norm_num), byte]
      exact Or.inr rfl
    · rw [still.read_writeFields_of_not_mem hs (w.not_isByteOf hij hk)]
      exact hi.imp_left fun h => (List.mem_cons.1 h).resolve_left fun e => hij e.symm

theorem mem_allSlots (i : Slot) : i ∈ allSlots := by revert i; decide

theorem rxFields_in (c : Cfg) (i : Slot) : fieldsIn 16 (rxFields c i) := by simp [fieldsIn, rxFields]

theorem txFields_in (c : Cfg) (i : Slot) : fieldsIn 16 (txFields c i) := by simp [fieldsIn, txFields]

/-- Step 6 writes the RX ring. -/
theorem writesRing_rx {R : State → Prop} {c : Cfg} (hwf : c.WF) (cfg : ∀ s, R s → s.cfg = c) :
    WritesRing R State.clearRxDesc (rxDesc c) (rxFields c) where
  eq := fun s i hs => by rw [State.clearRxDesc_eq, cfg s hs]
  inside := rxFields_in c
  apart := fun i j k l hk hl e => by
    rw [rxDesc_byte hwf i hk, rxDesc_byte hwf j hl] at e
    exact ⟨Fin.ext (by omega), by omega⟩

/-- Step 10 writes the TX ring. -/
theorem writesRing_tx {R : State → Prop} {c : Cfg} (hwf : c.WF) (cfg : ∀ s, R s → s.cfg = c) :
    WritesRing R State.clearTxDesc (txDesc c) (txFields c) where
  eq := fun s i hs => by rw [State.clearTxDesc_eq, cfg s hs]
  inside := txFields_in c
  apart := fun i j k l hk hl e => by
    rw [txDesc_byte hwf i hk, txDesc_byte hwf j hl] at e
    exact ⟨Fin.ext (by omega), by omega⟩

/-- An RX descriptor as step 6 writes it: the buffer's address, and 0 in all other bytes. -/
def rxDescByte (c : Cfg) (i : Slot) (k : Nat) : Byte := if k < 8 then (rxBuf c i).extractLsb' (8 * k) 8 else 0

/-- A TX descriptor as step 10 writes it: the buffer's address, status 1, and 0 in all other bytes. -/
def txDescByte (c : Cfg) (i : Slot) (k : Nat) : Byte :=
  if k < 8 then (txBuf c i).extractLsb' (8 * k) 8 else if k = 12 then 1 else 0

theorem fieldsByte_rxFields (c : Cfg) (i : Slot) {k : Nat} (hk : k < 16) :
    fieldsByte (rxFields c i) k = some (rxDescByte c i k) := by interval_cases k <;> rfl

theorem fieldsByte_txFields (c : Cfg) (i : Slot) {k : Nat} (hk : k < 16) :
    fieldsByte (txFields c i) k = some (txDescByte c i k) := by interval_cases k <;> rfl

/-! ### What INIT leaves of the rings -/

/-- No byte of an RX descriptor is a byte of a TX descriptor. -/
theorem rxDesc_byte_ne_txDesc_byte {c : Cfg} (h : c.WF) (i j : Slot) {k l : Nat} (hk : k < 16) (hl : l < 16) :
    (rxDesc c i + BitVec.ofNat 64 k).toNat ≠ (txDesc c j + BitVec.ofNat 64 l).toNat := by
  obtain ⟨apart, _⟩ := regions_apart h
  simp only [Region.disjoint, Cfg.rxDescRegion, Cfg.txDescRegion] at apart
  rw [rxDesc_byte h i hk, txDesc_byte h j hl]
  omega

/-- After `INIT` the RX descriptors are as step 6 wrote them, at the bytes that the controller leaves alone. -/
theorem State.init_read_rxDesc {s : State} (hwf : s.cfg.WF) (clear : s.cfg.windowClear s.base) (i : Slot) {k : Nat}
    (hk : k < 16) (calm : s.Quiet ∨ ¬ nicMay s.cfg (rxDesc s.cfg i + BitVec.ofNat 64 k).toNat) :
    s.initReset.initReceive.initTransmit.mem.read (rxDesc s.cfg i + BitVec.ofNat 64 k).toNat = rxDescByte s.cfg i k := by
  have regs : RegsIn (fun _ => False) s := RegsIn.of_windowClear clear _
  have start : Calm s.Quiet s.cfg s := ⟨rfl, id⟩
  have k5 := s.initReset_init _ regs
  have still := still_of_calm calm
  have ring := writesRing_rx (R := Calm s.Quiet s.cfg) hwf fun _ h => h.1
  have six := ring.read hk still (fieldsByte_rxFields s.cfg i hk) allSlots (k5.calm start) (Or.inl (mem_allSlots i))
  have calm6 : Calm s.Quiet s.cfg s.initReset.initStep6 := ring.still still allSlots (k5.calm start)
  have k6 := k5.base
  have regs6 : RegsIn (fun _ => False) s.initReset.initStep6 := by
    have base := (s.initReset.initStep6_op (fun _ => True) fun _ _ _ => trivial).base
    refine RegsIn.of_windowClear ?_ _
    rw [calm6.1, base, k6]
    exact clear
  change s.initReset.initStep6.mem.read _ = _ at six
  show s.initReset.initStep6.initStep7.initStep8.initStep9.initStep10.initStep11.initStep12.mem.read _ = _
  generalize s.initReset.initStep6 = u6 at six calm6 regs6
  have k7 := u6.initStep7_init _ regs6
  have k8 := k7.trans (State.initStep8_init _ _ (regs6.keepInit k7))
  have k9 := k8.trans (State.initStep9_init _ _ (regs6.keepInit k8))
  have read9 := k9.run.frame.read_of_calm calm6 id calm
  have calm9 := k9.calm calm6
  have regs9 := regs6.keepInit k9
  generalize u6.initStep7.initStep8.initStep9 = u9 at read9 calm9 regs9
  have k10 := u9.initStep10_op (fun a => ∃ j : Slot, isByteOf (txDesc s.cfg j) 16 a) fun j a h => ⟨j, calm9.1 ▸ h⟩
  have read10 := k10.frame.read_of_calm calm9 (fun ⟨j, l, e⟩ => rxDesc_byte_ne_txDesc_byte hwf i j hk l.isLt e) calm
  have calm10 := k10.calm calm9
  have regs10 := regs9.keep k10
  generalize u9.initStep10 = u10 at read10 calm10 regs10
  have k11 := u10.initStep11_init _ regs10
  have k12 := k11.trans (State.initStep12_init _ _ (regs10.keepInit k11))
  rw [k12.run.frame.read_of_calm calm10 id calm, read10, read9, six]

/-- Before step 10 the window is as clear and the controller as calm as before `INIT`. -/
theorem State.initReceive_calm (s : State) :
    Calm s.Quiet s.cfg s.initReset.initReceive ∧ s.initReset.initReceive.base = s.base := by
  have k5 := s.initReset_init _ (RegsIn.all s)
  have k9 := k5.trans (State.initReceive_init _ _ (RegsIn.all _) fun _ _ => trivial)
  exact ⟨k9.calm ⟨rfl, id⟩, k9.base⟩

/-- After `INIT` the TX descriptors are as step 10 wrote them, at the bytes that the controller leaves alone. -/
theorem State.init_read_txDesc {s : State} (hwf : s.cfg.WF) (clear : s.cfg.windowClear s.base) (i : Slot) {k : Nat}
    (hk : k < 16) (calm : s.Quiet ∨ ¬ nicMay s.cfg (txDesc s.cfg i + BitVec.ofNat 64 k).toNat) :
    s.initReset.initReceive.initTransmit.mem.read (txDesc s.cfg i + BitVec.ofNat 64 k).toNat = txDescByte s.cfg i k := by
  obtain ⟨calm9, base9⟩ := s.initReceive_calm
  generalize s.initReset.initReceive = u9 at calm9 base9
  show u9.initStep10.initStep11.initStep12.mem.read _ = _
  have still := still_of_calm calm
  have ring := writesRing_tx (R := Calm s.Quiet s.cfg) hwf fun _ h => h.1
  have ten : u9.initStep10.mem.read _ = _ :=
    ring.read hk still (fieldsByte_txFields s.cfg i hk) allSlots calm9 (Or.inl (mem_allSlots i))
  have k10 := u9.initStep10_op (fun _ => True) fun _ _ _ => trivial
  have calm10 := k10.calm calm9
  have regs10 : RegsIn (fun _ => False) u9.initStep10 := by
    refine RegsIn.of_windowClear ?_ _
    rw [calm10.1, k10.base, base9]
    exact clear
  generalize u9.initStep10 = u10 at ten calm10 regs10
  have k11 := u10.initStep11_init _ regs10
  have k12 := k11.trans (State.initStep12_init _ _ (regs10.keepInit k11))
  rw [k12.run.frame.read_of_calm calm10 id calm, ten]

/-! ### The done bits of the TX ring (R171, R90) -/

/-- What the controller's turns and entries of the history leave as it is. -/
structure Kept (R : State → Prop) : Prop where
  turn : ∀ s, R s → R s.nicTurn
  record : ∀ s e, R s → R (s.record e)

theorem Kept.fence {R : State → Prop} (kept : Kept R) {s : State} (hs : R s) : R s.fence := kept.record _ _ (kept.turn _ hs)

/-- A register write leaves it if the write's own effect does. -/
theorem Kept.writeNamed {R : State → Prop} (kept : Kept R) {s : State} (hs : R s) {r : Reg} {v : Word}
    (effect : ∀ u, R u → R (u.regWriteEffect (u.cfg.offset r) v)) : R (s.writeNamed r v) := by
  have turned := effect _ (kept.turn s hs)
  rw [State.nicTurn_cfg] at turned
  exact kept.fence (kept.record _ _ turned)

/-- A register write of a window clear of the regions stores nothing in memory. -/
theorem State.regWriteEffect_mem {s : State} (clear : s.cfg.windowClear s.base) (r : Reg) (v : Word) :
    (s.regWriteEffect (s.cfg.offset r) v).mem = s.mem :=
  ramStore_of_not_inRam _ _ _ _ _ fun k => not_inRam_of_windowClear clear r ⟨k, rfl⟩

/-- The window starts at `b`, and the done bit of TX slot `i` is set. -/
structure TxMarkedDone (c : Cfg) (b : Word) (i : Slot) (s : State) : Prop where
  cfg : s.cfg = c
  base : s.base = b
  done : txDone c s.mem i = true

/-- The controller clears no done bit (R90). -/
theorem txMarkedDone_kept {c : Cfg} (hwf : c.WF) (b : Word) (i : Slot) : Kept (TxMarkedDone c b i) where
  turn := by
    suffices moves : ∀ (ms : List NicMove) (u : State), TxMarkedDone c b i u →
        TxMarkedDone c b i (ms.foldl State.nicMove u) from
      fun s hs => ⟨(moves _ s hs).cfg, (moves _ s hs).base, (moves _ s hs).done⟩
    intro ms
    induction ms with
    | nil => exact fun _ hu => hu
    | cons mv ms ih =>
      rintro u ⟨rfl, base, done⟩
      have keeps := u.nicMove_keeps mv
      exact ih _ ⟨keeps.cfg, keeps.base.trans base, (u.nicMove_stores mv).keeps_txDone hwf done⟩
  record := fun _ _ h => ⟨h.cfg, h.base, h.done⟩

theorem TxMarkedDone.writeNamed {c : Cfg} {b : Word} {i : Slot} {s : State} (hwf : c.WF) (clear : c.windowClear b)
    (h : TxMarkedDone c b i s) (r : Reg) (v : Word) : TxMarkedDone c b i (s.writeNamed r v) := by
  refine (txMarkedDone_kept hwf b i).writeNamed h ?_
  rintro u ⟨rfl, rfl, done⟩
  exact ⟨rfl, rfl, by rw [State.regWriteEffect_mem clear]; exact done⟩

/-- A store elsewhere. -/
theorem TxMarkedDone.memWrite {c : Cfg} {b : Word} {i : Slot} {s : State} (hwf : c.WF) (h : TxMarkedDone c b i s) {a : Addr}
    {n : Nat} {v : BitVec 64} (ha : ¬ isByteOf a n (txDesc c i + txdStatus).toNat) :
    TxMarkedDone c b i (s.memWrite a n v) := by
  obtain ⟨cfg, base, done⟩ := (txMarkedDone_kept hwf b i).turn s h
  exact ⟨cfg, base, (congrArg doneBit (Memory.read_writeLE_of_not_mem _ _ _ _ _ ha)).trans done⟩

theorem TxMarkedDone.writeFields {c : Cfg} {b : Word} {i : Slot} {s : State} (hwf : c.WF) (h : TxMarkedDone c b i s)
    {d : Addr} {fs : List Field}
    (hd : ∀ f ∈ fs, ¬ isByteOf (d + BitVec.ofNat 64 f.off) f.size (txDesc c i + txdStatus).toNat) :
    TxMarkedDone c b i (s.writeFields d fs) := by
  induction fs generalizing s with
  | nil => exact h
  | cons f fs ih =>
    exact ih (h.memWrite hwf (hd f List.mem_cons_self)) fun g hg => hd g (List.mem_cons_of_mem _ hg)

/-- The write of the status byte 1 sets the done bit; the two fields after it leave it. -/
theorem State.clearTxDesc_marks {c : Cfg} (hwf : c.WF) {s : State} (hs : s.cfg = c) (i : Slot) :
    TxMarkedDone c s.base i (s.clearTxDesc i) := by
  subst hs
  have write : ∀ (u : State) (a : Addr) (n : Nat) (v : BitVec 64), n ≠ 4 → OpKeeps (fun _ => True) u (u.memWrite a n v) :=
    fun u a n v hn => u.memWrite_op a hn v _ fun _ _ => trivial
  have keeps : OpKeeps (fun _ => True) s (s.writeFields (txDesc s.cfg i) ((txFields s.cfg i).take 4)) :=
    (write _ _ 8 _ (by decide)).trans ((write _ _ 2 _ (by decide)).trans
      ((write _ _ 1 _ (by decide)).trans (write _ _ 1 _ (by decide))))
  have marks : ∀ u : State, u.cfg = s.cfg → u.base = s.base →
      TxMarkedDone s.cfg s.base i (u.memWrite (txDesc s.cfg i + txdStatus) 1 1) := fun u cfg base =>
    ⟨u.nicTurn_cfg.trans cfg, u.nicTurn_base.trans base,
      congrArg doneBit (Memory.read_writeLE_byte u.nicTurn.mem (txDesc s.cfg i + txdStatus) 1)⟩
  have covered : ∀ f : Field, f.off + f.size ≤ 16 → 12 < f.off →
      ¬ isByteOf (txDesc s.cfg i + BitVec.ofNat 64 f.off) f.size (txDesc s.cfg i + txdStatus).toNat := fun f hf lo hb => by
    have := (isByteOf_field_iff (d := txDesc s.cfg i) (k := 12) hf (by decide) (by norm_num)).1 hb
    omega
  exact (marks _ keeps.cfg keeps.base).writeFields hwf (fs := (txFields s.cfg i).drop 5) (by
    simp only [txFields, List.drop_succ_cons, List.drop_zero, List.mem_cons, List.not_mem_nil, or_false,
      forall_eq_or_imp, forall_eq]
    exact ⟨covered ⟨13, 1, 0⟩ (by decide) (by decide), covered ⟨14, 2, 0⟩ (by decide) (by decide)⟩)

/-- Step 10 leaves every done bit set. -/
theorem State.initStep10_marks {c : Cfg} (hwf : c.WF) {s : State} (hs : s.cfg = c) (i : Slot) :
    TxMarkedDone c s.base i s.initStep10 := by
  suffices ring : ∀ (is : List Slot) (u : State), u.cfg = c → u.base = s.base → i ∈ is ∨ TxMarkedDone c s.base i u →
      TxMarkedDone c s.base i (is.foldl State.clearTxDesc u) from ring _ s hs rfl (Or.inl (mem_allSlots i))
  have w := writesRing_tx (R := fun u => u.cfg = c) hwf fun _ h => h
  intro is
  induction is with
  | nil => exact fun u _ _ h => h.resolve_left List.not_mem_nil
  | cons j is ih =>
    intro u cfg base h
    have keeps := u.clearTxDesc_op j (fun _ => True) fun _ _ => trivial
    refine ih _ (keeps.cfg.trans cfg) (keeps.base.trans base) ?_
    by_cases hij : j = i
    · subst hij
      exact Or.inr (base ▸ u.clearTxDesc_marks hwf cfg j)
    · refine h.imp (fun hi => (List.mem_cons.1 hi).resolve_left fun e => hij e.symm) fun marked => ?_
      rw [w.eq u j cfg]
      exact marked.writeFields hwf (w.not_isByteOf hij (k := 12) (by decide))

/-- After `INIT` every TX done bit is set, whatever the controller does. -/
theorem State.init_txDone {s : State} (hwf : s.cfg.WF) (clear : s.cfg.windowClear s.base) (i : Slot) :
    txDone s.cfg s.initReset.initReceive.initTransmit.mem i = true := by
  obtain ⟨calm9, base9⟩ := s.initReceive_calm
  generalize s.initReset.initReceive = u9 at calm9 base9
  have marked := State.initStep10_marks hwf calm9.1 i
  rw [base9] at marked
  have m11 := (((((marked.writeNamed hwf clear .tdbal (baseLow u9.initStep10.cfg.txDescBase)).writeNamed hwf clear .tdbah
    (baseHigh u9.initStep10.cfg.txDescBase)).writeNamed hwf clear .tdlen ringLength).writeNamed hwf clear .tdh 0).writeNamed
    hwf clear .tdt 0).writeNamed hwf clear .tipg u9.initStep10.cfg.tipgValue
  have after11 : TxMarkedDone s.cfg s.base i u9.initStep10.initStep11 := ⟨m11.cfg, m11.base, m11.done⟩
  exact (after11.writeNamed hwf clear .tctl (tctlValue u9.initStep10.initStep11.cfg)).done

/-- Settles O28: the bytes the controller leaves alone are as written, and it clears no done bit. -/
theorem initWritesTxDescriptors : Obligations.InitWritesTxDescriptors := by
  intro s hwf clear
  refine ⟨_, exec_init s, fun i => ?_⟩
  have tx := fun k hk calm => State.init_read_txDesc hwf clear i (k := k) hk calm
  have rx := fun k hk calm => State.init_read_rxDesc hwf clear i (k := k) hk calm
  have done := State.init_txDone hwf clear i
  simp only [State.respond_mem]
  generalize s.initReset.initReceive.initTransmit = u at tx rx done
  refine ⟨Memory.readLE_eq_of_bytes (by decide) (txBuf s.cfg i).isLt fun k hk => ?_,
    Memory.readLE_eq_of_bytes (by decide) (by decide) fun k hk => ?_, done,
    Memory.readLE_eq_of_bytes (by decide) (by decide) fun k hk => ?_,
    Memory.readLE_eq_of_bytes (by decide) (rxBuf s.cfg i).isLt fun k hk => ?_, fun quiet =>
    Memory.readLE_eq_of_bytes (by decide) (by decide) fun k hk => ?_⟩
  · rw [tx k (by omega) (Or.inr (not_nicMay_txDesc hwf i (by omega) (by omega))), txDescByte, if_pos hk]
  · rw [show txDesc s.cfg i + 8 + BitVec.ofNat 64 k = txDesc s.cfg i + BitVec.ofNat 64 (8 + k) from addr_add_ofNat _ 8 k,
      tx (8 + k) (by omega) (Or.inr (not_nicMay_txDesc hwf i (by omega) (by omega)))]
    interval_cases k <;> rfl
  · rw [show txDesc s.cfg i + 13 + BitVec.ofNat 64 k = txDesc s.cfg i + BitVec.ofNat 64 (13 + k) from addr_add_ofNat _ 13 k,
      tx (13 + k) (by omega) (Or.inr (not_nicMay_txDesc hwf i (by omega) (by omega)))]
    interval_cases k <;> rfl
  · rw [rx k (by omega) (Or.inr (not_nicMay_rxAddr hwf i (by omega))), rxDescByte, if_pos hk]
  · rw [show txDesc s.cfg i + 8 + BitVec.ofNat 64 k = txDesc s.cfg i + BitVec.ofNat 64 (8 + k) from addr_add_ofNat _ 8 k,
      tx (8 + k) (by omega) (Or.inl quiet)]
    interval_cases k <;> rfl

/-- The two halves of an RX descriptor as step 6 writes it. -/
theorem readLE_of_rxDescByte {c : Cfg} {m : Memory} {i : Slot}
    (h : ∀ k, k < 16 → m.read (rxDesc c i + BitVec.ofNat 64 k).toNat = rxDescByte c i k) :
    m.readLE 8 (rxDesc c i) = rxBuf c i ∧ m.readLE 8 (rxDesc c i + 8) = 0 := by
  refine ⟨Memory.readLE_eq_of_bytes (by decide) (rxBuf c i).isLt fun k hk => ?_,
    Memory.readLE_eq_of_bytes (by decide) (by decide) fun k hk => ?_⟩
  · rw [h k (by omega), rxDescByte, if_pos hk]
  · rw [show rxDesc c i + 8 + BitVec.ofNat 64 k = rxDesc c i + BitVec.ofNat 64 (8 + k) from addr_add_ofNat _ 8 k,
      h (8 + k) (by omega), rxDescByte, if_neg (by omega)]
    interval_cases k <;> rfl

/-- Settles O29. -/
theorem initZeroesRxDescriptors : Obligations.InitZeroesRxDescriptors := by
  intro s hwf clear quiet
  refine ⟨_, exec_init s, fun i => readLE_of_rxDescByte fun k hk => ?_⟩
  rw [State.respond_mem]
  exact State.init_read_rxDesc hwf clear i hk (Or.inl quiet)

/-! ### The ring addresses under every instruction (R46) -/

/-- The address field of a TX descriptor is apart from what a send or a recycling stores. -/
theorem txAddr_spared {c : Cfg} (hwf : c.WF) (i j : Slot) {k : Nat} (hk : k < 8) :
    ¬ sendBytes c j (txDesc c i + BitVec.ofNat 64 k).toNat ∧ ¬ recycleBytes c j (txDesc c i + BitVec.ofNat 64 k).toNat ∧
    ¬ isByteOf (txBuf c j) 98 (txDesc c i + BitVec.ofNat 64 k).toNat := by
  obtain ⟨rx, buf, -⟩ := regions_apart hwf
  simp only [Region.disjoint, Cfg.txDescRegion, Cfg.txBufRegion, Cfg.rxDescRegion] at rx buf
  have address := txDesc_byte hwf i (k := k) (by omega)
  have inBuf : ¬ isByteOf (txBuf c j) 98 (txDesc c i + BitVec.ofNat 64 k).toNat := by
    rintro ⟨l, e⟩
    rw [address, txBuf_byte hwf j (by omega)] at e
    omega
  have inTx : ∀ l, 8 ≤ l → l < 16 →
      (txDesc c i + BitVec.ofNat 64 k).toNat ≠ (txDesc c j + BitVec.ofNat 64 l).toNat := by
    intro l lo hi e
    rw [address, txDesc_byte hwf j hi] at e
    omega
  have inRx : ∀ l, l < 16 → (txDesc c i + BitVec.ofNat 64 k).toNat ≠ (rxDesc c j + BitVec.ofNat 64 l).toNat :=
    fun l hl e => rxDesc_byte_ne_txDesc_byte hwf j i hl (by omega) e.symm
  refine ⟨?_, ?_, inBuf⟩
  · rintro (h | ⟨l, e⟩ | e | e)
    · exact inBuf h
    · exact inTx (8 + l) (by omega) (by omega) (e.trans (congrArg BitVec.toNat (addr_add_ofNat _ 8 l)))
    · exact inTx 11 (by decide) (by decide) e
    · exact inTx 12 (by decide) (by decide) e
  · rintro (e | ⟨l, e⟩)
    · exact inRx 12 (by decide) e
    · exact inRx (8 + l) (by omega) (e.trans (congrArg BitVec.toNat (addr_add_ofNat _ 8 l)))

/-- The address field of an RX descriptor is apart from what a send or a recycling stores. -/
theorem rxAddr_spared {c : Cfg} (hwf : c.WF) (i j : Slot) {k : Nat} (hk : k < 8) :
    ¬ sendBytes c j (rxDesc c i + BitVec.ofNat 64 k).toNat ∧ ¬ recycleBytes c j (rxDesc c i + BitVec.ofNat 64 k).toNat ∧
    ¬ isByteOf (txBuf c j) 98 (rxDesc c i + BitVec.ofNat 64 k).toNat := by
  obtain ⟨-, -, -, buf, -⟩ := regions_apart hwf
  simp only [Region.disjoint, Cfg.txBufRegion, Cfg.rxDescRegion] at buf
  have address := rxDesc_byte hwf i (k := k) (by omega)
  have inBuf : ¬ isByteOf (txBuf c j) 98 (rxDesc c i + BitVec.ofNat 64 k).toNat := by
    rintro ⟨l, e⟩
    rw [address, txBuf_byte hwf j (by omega)] at e
    omega
  have inRx : ∀ l, 8 ≤ l → l < 16 →
      (rxDesc c i + BitVec.ofNat 64 k).toNat ≠ (rxDesc c j + BitVec.ofNat 64 l).toNat := by
    intro l lo hi e
    rw [address, rxDesc_byte hwf j hi] at e
    omega
  have inTx : ∀ l, l < 16 → (rxDesc c i + BitVec.ofNat 64 k).toNat ≠ (txDesc c j + BitVec.ofNat 64 l).toNat :=
    fun l hl e => rxDesc_byte_ne_txDesc_byte hwf i j (by omega) hl e
  refine ⟨?_, ?_, inBuf⟩
  · rintro (h | ⟨l, e⟩ | e | e)
    · exact inBuf h
    · exact inTx (8 + l) (by omega) (e.trans (congrArg BitVec.toNat (addr_add_ofNat _ 8 l)))
    · exact inTx 11 (by decide) e
    · exact inTx 12 (by decide) e
  · rintro (e | ⟨l, e⟩)
    · exact inRx 12 (by decide) (by decide) e
    · exact inRx (8 + l) (by omega) (by omega) (e.trans (congrArg BitVec.toNat (addr_add_ofNat _ 8 l)))

/-- An address apart from what sends and recyclings store is stored by no instruction but `INIT`. -/
theorem not_stores {s : State} {i : Instr} (hi : i ≠ .init) (clear : s.cfg.windowClear s.base) (spares : sparesRam s i)
    {a : Nat} (spared : ∀ j, ¬ sendBytes s.cfg j a ∧ ¬ recycleBytes s.cfg j a ∧ ¬ isByteOf (txBuf s.cfg j) 98 a) :
    ¬ stores s i a := by
  have named := not_namedBytes_of_windowClear clear a
  cases i with
  | init => exact absurd rfl hi
  | sendEcho seq => exact fun h => h.elim named (spared _).1
  | checkReply => exact fun h => h.elim named (spared _).2.1
  | writeReg off v =>
    rintro ⟨⟨k, rfl⟩, ram⟩
    exact spares k ram
  | buildFrame seq => exact (spared _).2.2
  | findDevice | readReg _ | delay _ | fence | checksum _ _ => exact id

/-- Settles O32: `INIT` writes the addresses; no other instruction, and not the controller, stores into them. -/
theorem everyInstructionKeepsRingAddresses : Obligations.EveryInstructionKeepsRingAddresses := by
  intro i s t hwf clear ring spares next slot
  rw [(exec_run next).cfg, txDesc_add_txdAddr, rxDesc_add_rxdAddr]
  by_cases hi : i = .init
  · subst hi
    obtain ⟨t', next', fields⟩ := initWritesTxDescriptors s hwf clear
    obtain rfl : t' = t := Host.Outcome.next.inj (next'.symm.trans next)
    obtain ⟨tx, -, -, -, rx, -⟩ := fields slot
    exact ⟨tx, rx⟩
  · have frame := (exec_run next).frame
    obtain ⟨tx, rx⟩ := ring slot
    rw [txDesc_add_txdAddr] at tx
    rw [rxDesc_add_rxdAddr] at rx
    refine ⟨(Memory.readLE_congr 8 _ fun k hk => ?_).trans tx, (Memory.readLE_congr 8 _ fun k hk => ?_).trans rx⟩
    · exact frame _ (not_stores hi clear spares fun j => txAddr_spared hwf slot j hk)
        (Or.inr (not_nicMay_txDesc hwf slot (by omega) (by omega)))
    · exact frame _ (not_stores hi clear spares fun j => rxAddr_spared hwf slot j hk)
        (Or.inr (not_nicMay_rxAddr hwf slot hk))

end Sys2Proof.Machine
end

section
/-! PROOF. The controller between the start of a device reset and the end of INIT, under ResetCompletes (R91, R172,
R174). -/

namespace Sys2Proof.Machine

/-! ### Register accesses of a decoded window -/

/-- A register write leaves a predicate that holds after its own effect. -/
theorem Kept.afterWrite {R : State → Prop} (kept : Kept R) {s : State} {r : Reg} {v : Word}
    (effect : R (s.nicTurn.regWriteEffect (s.nicTurn.cfg.offset r) v)) : R (s.writeNamed r v) := by
  rw [State.nicTurn_cfg] at effect
  exact kept.fence (kept.record _ _ effect)

theorem Kept.readNamed {R : State → Prop} (kept : Kept R) {s : State} (hs : R s)
    (effect : ∀ u off, R u → R (u.regReadEffect off)) (r : Reg) : R (s.readNamed r).2 :=
  kept.fence (kept.record _ _ (effect _ _ (kept.turn _ hs)))

theorem Kept.delay {R : State → Prop} (kept : Kept R) {s : State} (hs : R s) (n : Nat) : R (s.delay n) := by
  unfold State.delay
  split_ifs
  · exact hs
  · exact kept.record _ _ (kept.turn _ hs)

theorem Kept.writeFields {R : State → Prop} (kept : Kept R) (setMem : ∀ u m, R u → R (u.setMem m)) {s : State} (hs : R s)
    (d : Addr) (fs : List Field) : R (s.writeFields d fs) := by
  induction fs generalizing s with
  | nil => exact hs
  | cons f fs ih => exact ih (kept.record _ _ (setMem _ _ (kept.turn _ hs)))

/-- A ring of descriptors. -/
theorem WritesRing.kept {R : State → Prop} {f : State → Slot → State} {d : Slot → Addr} {fs : Slot → List Field}
    (w : WritesRing R f d fs) (kept : Kept R) (setMem : ∀ u m, R u → R (u.setMem m)) (is : List Slot) {s : State}
    (hs : R s) : R (is.foldl f s) := by
  induction is generalizing s with
  | nil => exact hs
  | cons i is ih => exact ih (w.eq s i hs ▸ kept.writeFields setMem hs _ _)

/-- The window starts at `b`, not 0, and the controller is enabled on the bus. -/
structure OnBus (c : Cfg) (b : Word) (s : State) : Prop where
  cfg : s.cfg = c
  base : s.base = b
  bus : s.BusEnabled

theorem BusEnabled_congr {s t : State} (cfg : t.cfg = s.cfg) (pci : t.pciCommand = s.pciCommand) (h : s.BusEnabled) :
    t.BusEnabled := by
  simp only [State.BusEnabled, State.mastersBus, State.decodesMemory, cfg, pci] at h ⊢
  exact h

theorem OnBus.of_eq {c : Cfg} {b : Word} {s t : State} (h : OnBus c b s) (cfg : t.cfg = s.cfg) (base : t.base = s.base)
    (pci : t.pciCommand = s.pciCommand) : OnBus c b t :=
  ⟨cfg.trans h.cfg, base.trans h.base, BusEnabled_congr cfg pci h.bus⟩

theorem OnBus.nicTurn {c : Cfg} {b : Word} {s : State} (h : OnBus c b s) : OnBus c b s.nicTurn :=
  h.of_eq s.nicTurn_cfg s.nicTurn_base s.nicTurn_pciCommand

theorem OnBus.nicMove {c : Cfg} {b : Word} {s : State} (h : OnBus c b s) (mv : NicMove) : OnBus c b (s.nicMove mv) :=
  h.of_eq (s.nicMove_keeps mv).cfg (s.nicMove_keeps mv).base (s.nicMove_keeps mv).pciCommand

theorem InitKeeps.onBus {P : Nat → Prop} {c : Cfg} {b : Word} {s t : State} (k : InitKeeps P s t) (h : OnBus c b s) :
    OnBus c b t := h.of_eq k.run.cfg k.base k.pciCommand

/-- The controller takes the write of a named register (R74, R86). -/
theorem OnBus.regWriteEffect_nic {c : Cfg} {b : Word} {s : State} (h : OnBus c b s) (hwf : c.WF) (hb : b ≠ 0) (r : Reg)
    (v : Word) : (s.regWriteEffect (s.cfg.offset r) v).nic = s.nic.take s.cfg s.mem r v := by
  obtain ⟨rfl, rfl, bus⟩ := h
  show s.nicAfterWrite (s.cfg.offset r) v = _
  rw [State.nicAfterWrite, regAt_offset hwf]
  exact State.nicAfterNamed_eq_take hb bus r v

theorem State.regReadEffect_nicEq (s : State) (off : Word) :
    (s.regReadEffect off).nic = s.nic ∨ (s.regReadEffect off).nic = { s.nic with icause := 0 } := by
  unfold State.regReadEffect
  split_ifs
  · exact Or.inl rfl
  · exact Or.inr rfl
  · exact Or.inl rfl

theorem State.regReadEffect_fixed (s : State) (off : Word) :
    (s.regReadEffect off).cfg = s.cfg ∧ (s.regReadEffect off).base = s.base ∧
      (s.regReadEffect off).pciCommand = s.pciCommand := by
  unfold State.regReadEffect
  split_ifs <;> exact ⟨rfl, rfl, rfl⟩

theorem OnBus.regReadEffect {c : Cfg} {b : Word} {s : State} (h : OnBus c b s) (off : Word) :
    OnBus c b (s.regReadEffect off) := by
  obtain ⟨cfg, base, pci⟩ := s.regReadEffect_fixed off
  exact h.of_eq cfg base pci

/-! ### While the reset runs -/

/-- A device reset was started and neither the receiver nor the TX tail was written since: the receiver is off, no TX slot is
handed over, and none is taken once the reset has ended (R91, R172). -/
structure Nic.Resetting (n : Nic) : Prop where
  rxOn : n.rxOn = false
  txGiven : n.txGiven = false
  txTail : n.txTail = none
  txJobs : n.resetPending = false → n.txJobs = []

theorem Nic.startReset_resetting (n : Nic) : n.startReset.Resetting := ⟨rfl, rfl, rfl, fun h => nomatch h⟩

theorem Nic.Resetting.of_eq {n m : Nic} (h : n.Resetting) (rxOn : m.rxOn = n.rxOn) (txGiven : m.txGiven = n.txGiven)
    (txTail : m.txTail = n.txTail) (pending : m.resetPending = n.resetPending) (txJobs : n.txJobs = [] → m.txJobs = []) :
    m.Resetting :=
  ⟨rxOn.trans h.rxOn, txGiven.trans h.txGiven, txTail.trans h.txTail, fun p => txJobs (h.txJobs (pending.symm.trans p))⟩

/-- The end of the reset. -/
theorem Nic.Resetting.resetEnds {n : Nic} (h : n.Resetting) (rxLost txLost ringsLost : Bool) (causes : Word) :
    (n.resetEnds rxLost txLost ringsLost causes).Resetting := by
  by_cases pending : n.resetPending = true
  · rw [Nic.resetEnds, if_pos pending]
    exact ⟨by simp [h.rxOn], h.txGiven, by simp [h.txTail], fun _ => rfl⟩
  · rw [Nic.resetEnds, if_neg pending]
    exact h

theorem State.txAdvance_resetting {s : State} (h : s.nic.Resetting) (k : Nat) (ok : TxJob → Bool) (next : TxJob → State)
    (hnext : ∀ j, (next j).nic.Resetting) : (s.txAdvance k ok next).nic.Resetting := by
  rcases s.txAdvance_cases k ok next with e | ⟨j, _, _, _, e⟩ <;> rw [e]
  · exact h
  · exact hnext j

theorem State.rxStore_resetting {s : State} (h : s.nic.Resetting) (i : Slot) (ok : RxJob → Bool) (next : RxJob → Nic)
    (a : RxJob → Addr) (n : Nat) (v : RxJob → BitVec 64) (hnext : ∀ j, (next j).Resetting) :
    (s.rxStore i ok next a n v).nic.Resetting := by
  rcases s.rxStore_cases i ok next a n v with e | ⟨j, _, _, e⟩ <;> rw [e]
  · exact h
  · exact hnext j

theorem State.nicMove_resetting {s : State} (h : s.nic.Resetting) (mv : NicMove) : (s.nicMove mv).nic.Resetting := by
  have jobs : ∀ l : List TxJob, (s.nic.txJobs = [] → l = []) → Nic.Resetting { s.nic with txJobs := l } := fun l hl =>
    h.of_eq rfl rfl rfl rfl hl
  have put : ∀ j, (s.nic.putRxJob j).Resetting := fun j => h.of_eq rfl rfl rfl rfl id
  have fetched : ∀ k j, (s.setTxJob k j).nic.Resetting := fun k j => jobs _ fun e => by rw [e]; rfl
  have dropped : ∀ k, (s.dropTxJob k).nic.Resetting := fun k => jobs _ fun e => by rw [e]; rfl
  cases mv with
  | cause bits => exact h.of_eq rfl rfl rfl rfl id
  | resetDone rxLost txLost ringsLost causes => exact h.resetEnds rxLost txLost ringsLost causes
  | txStart => exact h.of_eq rfl rfl rfl rfl id
  | txFetch i =>
    show (s.txFetch i).nic.Resetting
    unfold State.txFetch
    split_ifs with may
    · refine ⟨h.rxOn, h.txGiven, h.txTail, fun ended => ?_⟩
      have ended : s.nic.resetPending = false := ended
      simp [Nic.txOffers, Nic.txHolds, h.txGiven, ended] at may
    · exact h
  | txDescByte k => exact s.txAdvance_resetting h k _ _ fun j => fetched k _
  | txFrameByte k => exact s.txAdvance_resetting h k _ _ fun j => fetched k _
  | txSent k => exact s.txAdvance_resetting h k _ _ fun j => dropped k
  | txStatus k v =>
    refine s.txAdvance_resetting h k _ _ fun j => ?_
    show (if doneBit v then s.dropTxJob k else s).nic.Resetting
    split_ifs
    · exact dropped k
    · exact h
  | rxArrive frame =>
    show (s.rxArrive frame).nic.Resetting
    unfold State.rxArrive
    split_ifs
    · exact h.of_eq rfl rfl rfl rfl id
    · exact h
  | rxDrop => exact h.of_eq rfl rfl rfl rfl id
  | rxTake i =>
    show (s.rxTake i).nic.Resetting
    unfold State.rxTake
    split
    · split_ifs
      · exact h.of_eq rfl rfl rfl rfl id
      · exact h
    · exact h
  | rxData i => exact s.rxStore_resetting h _ _ _ _ _ _ fun _ => put _
  | rxLen i => exact s.rxStore_resetting h _ _ _ _ _ _ fun _ => put _
  | rxCsum i v => exact s.rxStore_resetting h _ _ _ _ _ _ fun _ => h
  | rxErrors i v => exact s.rxStore_resetting h _ _ _ _ _ _ fun _ => h
  | rxSpecial i v => exact s.rxStore_resetting h _ _ _ _ _ _ fun _ => h
  | rxStatus i v =>
    refine s.rxStore_resetting h _ _ _ _ _ _ fun _ => ?_
    split_ifs
    · exact h.of_eq rfl rfl rfl rfl id
    · exact h

theorem nicMoves_resetting (ms : List NicMove) {s : State} (h : s.nic.Resetting) :
    (ms.foldl State.nicMove s).nic.Resetting := by
  induction ms generalizing s with
  | nil => exact h
  | cons mv ms ih => exact ih (s.nicMove_resetting h mv)

/-- The controller on the bus, in a reset or after it. -/
structure InReset (c : Cfg) (b : Word) (s : State) : Prop extends OnBus c b s where
  resetting : s.nic.Resetting

theorem inReset_kept (c : Cfg) (b : Word) : Kept (InReset c b) where
  turn := fun s h => ⟨h.toOnBus.nicTurn, nicMoves_resetting s.env.moves h.resetting⟩
  record := fun _ _ h => ⟨⟨h.cfg, h.base, h.bus⟩, h.resetting⟩

theorem or_mask_and_ne_zero {m : Word} (h : oneBit m) (v : Word) : (v ||| m) &&& m ≠ 0 := by
  have e := and_mask_of_or v 0 m
  rw [show v ||| m ||| 0 = v ||| m by simp] at e
  rw [e]
  exact h.1

/-- Step 3 starts the reset. -/
theorem State.initStep3_inReset {c : Cfg} {b : Word} {s : State} (hwf : c.WF) (hb : b ≠ 0) (h : OnBus c b s) :
    InReset c b s.initStep3 := by
  have read := s.readReg_op (s.cfg.offset .ctrl) fun _ => True
  have onBus : OnBus c b (s.readNamed .ctrl).2.nicTurn := OnBus.nicTurn
    (h.of_eq read.cfg read.base (s.readReg_pciCommand _))
  refine (inReset_kept c b).afterWrite ⟨⟨onBus.cfg, onBus.base, onBus.bus⟩, ?_⟩
  rw [onBus.regWriteEffect_nic hwf hb]
  have bit := or_mask_and_ne_zero (m := s.cfg.ctrlRst) (by rw [h.cfg]; exact hwf.2.2.1.1) (s.readNamed .ctrl).1
  rw [Nic.take, onBus.cfg, ← h.cfg, if_pos bit]
  exact (Nic.startReset_resetting _).of_eq rfl rfl rfl rfl id

/-- Before step 5 of `INIT` the reset has been started and nothing enabled since. -/
theorem State.initStep4_inReset {s : State} (hwf : s.cfg.WF) (hb : s.base ≠ 0) (bus : s.BusEnabled) :
    InReset s.cfg s.base s.initStep1.initStep2.initStep3.initStep4 := by
  have k2 := (s.initStep1_init _ (RegsIn.all s)).trans (State.initStep2_init _ _)
  exact (inReset_kept _ _).delay (State.initStep3_inReset hwf hb (k2.onBus ⟨rfl, rfl, bus⟩)) _

/-! ### After the reset -/

/-- The controller is out of reset and owns no TX slot (R172). -/
structure TxOut (c : Cfg) (b : Word) (s : State) : Prop extends OnBus c b s where
  ended : s.nic.resetPending = false
  owns : s.nic.OwnsNoTxSlot

theorem TxOut.same {c : Cfg} {b : Word} {s t : State} (h : TxOut c b s) (bus : OnBus c b t) (same : s.nic.TxSame t.nic) :
    TxOut c b t := ⟨bus, same.resetPending.trans h.ended, same.ownsNoTxSlot h.owns⟩

theorem TxOut.turn {c : Cfg} {b : Word} {s : State} (h : TxOut c b s) : s.nic.TxSame s.nicTurn.nic :=
  State.nicTurn_txSame h.ended h.owns

theorem txOut_kept (c : Cfg) (b : Word) : Kept (TxOut c b) where
  turn := fun _ h => h.same h.toOnBus.nicTurn h.turn
  record := fun _ _ h => ⟨⟨h.cfg, h.base, h.bus⟩, h.ended, h.owns⟩

/-- A register other than those of the TX ring and the reset. -/
theorem Nic.take_txSame (n : Nic) (c : Cfg) (m : Memory) {r : Reg} (hc : r ≠ .ctrl) (hh : r ≠ .tdh) (ht : r ≠ .tdt)
    (v : Word) : n.TxSame (n.take c m r v) := by
  cases r with
  | ctrl => exact absurd rfl hc
  | tdh => exact absurd rfl hh
  | tdt => exact absurd rfl ht
  | _ => exact ⟨rfl, rfl, rfl, rfl, rfl, rfl⟩

/-- What a register write leaves on the bus. -/
theorem OnBus.regWriteEffect {c : Cfg} {b : Word} {s : State} (h : OnBus c b s) (off v : Word) :
    OnBus c b (s.regWriteEffect off v) := ⟨h.cfg, h.base, h.bus⟩

/-- Such a write leaves the TX side alone. -/
theorem TxOut.effect {c : Cfg} {b : Word} (hwf : c.WF) (hb : b ≠ 0) {u : State} (h : TxOut c b u) {r : Reg}
    (hc : r ≠ .ctrl) (hh : r ≠ .tdh) (ht : r ≠ .tdt) (v : Word) :
    u.nic.TxSame (u.regWriteEffect (u.cfg.offset r) v).nic := by
  rw [h.toOnBus.regWriteEffect_nic hwf hb]
  exact u.nic.take_txSame _ _ hc hh ht v

theorem TxOut.writeNamed {c : Cfg} {b : Word} (hwf : c.WF) (hb : b ≠ 0) {s : State} (h : TxOut c b s) {r : Reg}
    (hc : r ≠ .ctrl) (hh : r ≠ .tdh) (ht : r ≠ .tdt) (v : Word) : TxOut c b (s.writeNamed r v) :=
  (txOut_kept c b).writeNamed h fun _ hu => hu.same (hu.toOnBus.regWriteEffect _ _) (hu.effect hwf hb hc hh ht v)

/-- Besides, the TX tail was not written since the reset began. -/
structure Settled (c : Cfg) (b : Word) (s : State) : Prop extends TxOut c b s where
  txGiven : s.nic.txGiven = false
  txTail : s.nic.txTail = none

theorem Settled.same {c : Cfg} {b : Word} {s t : State} (h : Settled c b s) (bus : OnBus c b t)
    (same : s.nic.TxSame t.nic) : Settled c b t :=
  ⟨h.toTxOut.same bus same, same.txGiven.trans h.txGiven, same.txTail.trans h.txTail⟩

theorem settled_kept (c : Cfg) (b : Word) : Kept (Settled c b) where
  turn := fun _ h => h.same h.toOnBus.nicTurn h.turn
  record := fun _ _ h => h.same ⟨h.cfg, h.base, h.bus⟩ (Nic.TxSame.refl _)

theorem Settled.writeNamed {c : Cfg} {b : Word} (hwf : c.WF) (hb : b ≠ 0) {s : State} (h : Settled c b s) {r : Reg}
    (hc : r ≠ .ctrl) (hh : r ≠ .tdh) (ht : r ≠ .tdt) (v : Word) : Settled c b (s.writeNamed r v) :=
  (settled_kept c b).writeNamed h fun _ hu => hu.same (hu.toOnBus.regWriteEffect _ _) (hu.effect hwf hb hc hh ht v)

/-- The receiver is off besides (R91). -/
structure RxOff (c : Cfg) (b : Word) (s : State) : Prop extends Settled c b s where
  rxOn : s.nic.rxOn = false

/-- What the block does of its own outside the bus leaves it. -/
theorem RxOff.of_nic {c : Cfg} {b : Word} {s t : State} (h : RxOff c b s) (bus : OnBus c b t) (nic : t.nic = s.nic) :
    RxOff c b t :=
  ⟨h.toSettled.same bus (by rw [nic]; exact Nic.TxSame.refl _), by rw [nic]; exact h.rxOn⟩

theorem RxOff.resetting {c : Cfg} {b : Word} {s : State} (h : RxOff c b s) : s.nic.Resetting :=
  ⟨h.rxOn, h.txGiven, h.txTail, fun _ => h.owns.1⟩

/-- The reset has ended. -/
theorem InReset.rxOff {c : Cfg} {b : Word} {s : State} (h : InReset c b s) (ended : s.nic.resetPending = false) :
    RxOff c b s := by
  obtain ⟨bus, rxOn, given, tail, jobs⟩ := h
  exact ⟨⟨⟨bus, ended, jobs ended, fun i => by simp [Nic.txHolds, given, ended]⟩, given, tail⟩, rxOn⟩

theorem rxOff_kept (c : Cfg) (b : Word) : Kept (RxOff c b) where
  turn := fun s h => ⟨(settled_kept c b).turn s h.toSettled, (nicMoves_resetting s.env.moves h.resetting).rxOn⟩
  record := fun s e h => ⟨(settled_kept c b).record s e h.toSettled, h.rxOn⟩

theorem RxOff.regReadEffect {c : Cfg} {b : Word} {s : State} (h : RxOff c b s) (off : Word) :
    RxOff c b (s.regReadEffect off) := by
  have bus := h.toOnBus.regReadEffect off
  rcases s.regReadEffect_nicEq off with e | e
  · exact ⟨h.toSettled.same bus (by rw [e]; exact Nic.TxSame.refl _), by rw [e]; exact h.rxOn⟩
  · exact ⟨h.toSettled.same bus (by rw [e]; exact ⟨rfl, rfl, rfl, rfl, rfl, rfl⟩), by rw [e]; exact h.rxOn⟩

theorem Nic.take_rxOn (n : Nic) (c : Cfg) (m : Memory) {r : Reg} (hc : r ≠ .ctrl) (hr : r ≠ .rctl) (v : Word) :
    (n.take c m r v).rxOn = n.rxOn := by
  cases r with
  | ctrl => exact absurd rfl hc
  | rctl => exact absurd rfl hr
  | _ => rfl

/-- The registers of steps 5, 7 and 8 leave the receiver off. -/
theorem RxOff.effect {c : Cfg} {b : Word} (hwf : c.WF) (hb : b ≠ 0) {u : State} (h : RxOff c b u) {r : Reg}
    (hr : r ≠ .ctrl ∧ r ≠ .tdh ∧ r ≠ .tdt ∧ r ≠ .rctl) (v : Word) :
    RxOff c b (u.regWriteEffect (u.cfg.offset r) v) := by
  obtain ⟨hc, hh, ht, hr⟩ := hr
  refine ⟨h.toSettled.same (h.toOnBus.regWriteEffect _ _) (h.toTxOut.effect hwf hb hc hh ht v), ?_⟩
  rw [h.toOnBus.regWriteEffect_nic hwf hb, Nic.take_rxOn _ _ _ hc hr]
  exact h.rxOn

/-- Steps 1 to 5, if the reset is complete before step 5. -/
theorem State.initReset_rxOff {s : State} (hwf : s.cfg.WF) (hb : s.base ≠ 0) (bus : s.BusEnabled)
    (completes : ResetCompletes s) : RxOff s.cfg s.base s.initReset := by
  have h4 := (State.initStep4_inReset hwf hb bus).rxOff completes
  rw [State.initReset]
  generalize s.initStep1.initStep2.initStep3.initStep4 = u at h4
  have read := (rxOff_kept _ _).readNamed h4 (fun _ off hu => hu.regReadEffect off) .icause
  have masked := (rxOff_kept _ _).writeNamed read (r := .imask) (v := u.cfg.imaskAll)
    fun _ hu => hu.effect hwf hb (by decide) _
  exact masked.of_nic ⟨masked.cfg, masked.base, masked.bus⟩ rfl

/-! ### The RX ring before the receiver is enabled -/

theorem RxOff.not_rxOpen {c : Cfg} {b : Word} {s : State} (h : RxOff c b s) (i : Slot) : s.rxOpen i ≠ true := by
  simp [State.rxOpen, Nic.receives, h.rxOn, h.ended]

theorem RxOff.nicMove {c : Cfg} {b : Word} {s : State} (h : RxOff c b s) (mv : NicMove) : RxOff c b (s.nicMove mv) :=
  ⟨h.toSettled.same (h.toOnBus.nicMove mv) (State.nicMove_txSame mv h.ended h.owns),
    (s.nicMove_resetting h.resetting mv).rxOn⟩

/-- While the receiver is off every byte of the RX ring stands still. -/
theorem RxOff.read_nicMove {c : Cfg} {b : Word} {s : State} (hwf : c.WF) (h : RxOff c b s) (mv : NicMove) {i : Slot}
    {x : Nat} (hx : isRxSlotByte c i x) : (s.nicMove mv).mem.read x = s.mem.read x := by
  have stores := s.nicMove_stores mv
  generalize (s.nicMove mv).mem = m at stores
  cases stores with
  | nothing => rfl
  | txStatus j v _ _ =>
    refine Memory.read_writeLE_of_not_mem _ _ _ _ _ fun hb => ?_
    rw [isByteOf_one hb, h.cfg] at hx
    exact not_isRxSlotByte_txStatus hwf i j hx
  | rxSlot j n a v isOpen _ => exact absurd isOpen (h.not_rxOpen j)

theorem rxOff_still {c : Cfg} {b : Word} (hwf : c.WF) {i : Slot} {x : Nat} (hx : isRxSlotByte c i x) :
    Still (RxOff c b) x where
  turn := (rxOff_kept c b).turn
  read := by
    suffices moves : ∀ (ms : List NicMove) (u : State), RxOff c b u →
        (ms.foldl State.nicMove u).mem.read x = u.mem.read x from fun s hs => moves _ s hs
    intro ms
    induction ms with
    | nil => exact fun _ _ => rfl
    | cons mv ms ih => exact fun u hu => (ih _ (hu.nicMove mv)).trans (hu.read_nicMove hwf mv hx)
  setMem := fun _ _ h => h.of_nic ⟨h.cfg, h.base, h.bus⟩ rfl
  record := (rxOff_kept c b).record

/-- The receiver is off and the RX ring is as step 6 wrote it. -/
structure RxUntouched (c : Cfg) (b : Word) (s : State) : Prop extends RxOff c b s where
  bytes : ∀ i k, k < 16 → s.mem.read (rxDesc c i + BitVec.ofNat 64 k).toNat = rxDescByte c i k

theorem rxUntouched_kept {c : Cfg} (hwf : c.WF) (b : Word) : Kept (RxUntouched c b) where
  turn := fun s h => ⟨(rxOff_kept c b).turn s h.toRxOff, fun i k hk =>
    ((rxOff_still hwf (isRxSlotByte_rxDesc hk)).read s h.toRxOff).trans (h.bytes i k hk)⟩
  record := fun s e h => ⟨(rxOff_kept c b).record s e h.toRxOff, h.bytes⟩

theorem RxUntouched.writeNamed {c : Cfg} {b : Word} (hwf : c.WF) (clear : c.windowClear b) (hb : b ≠ 0) {s : State}
    (h : RxUntouched c b s) {r : Reg} (hr : r ≠ .ctrl ∧ r ≠ .tdh ∧ r ≠ .tdt ∧ r ≠ .rctl) (v : Word) :
    RxUntouched c b (s.writeNamed r v) := by
  refine (rxUntouched_kept hwf b).writeNamed h fun u hu => ⟨hu.toRxOff.effect hwf hb hr v, fun i k hk => ?_⟩
  rw [State.regWriteEffect_mem (by rw [hu.cfg, hu.base]; exact clear)]
  exact hu.bytes i k hk

/-- Steps 6 to 8, the receiver being off. -/
theorem RxOff.initStep8 {c : Cfg} {b : Word} (hwf : c.WF) (clear : c.windowClear b) (hb : b ≠ 0) {s : State}
    (h : RxOff c b s) : RxUntouched c b s.initStep6.initStep7.initStep8 := by
  have ring := writesRing_rx (R := RxOff c b) hwf fun _ h => h.cfg
  have still := fun i {k} (hk : k < 16) => rxOff_still (b := b) hwf (isRxSlotByte_rxDesc (c := c) (j := i) hk)
  have six : RxUntouched c b s.initStep6 := ⟨ring.still (still 0 (k := 0) (by decide)) allSlots h, fun i k hk =>
    ring.read hk (still i hk) (fieldsByte_rxFields c i hk) allSlots h (Or.inl (mem_allSlots i))⟩
  have seven := ((((six.writeNamed hwf clear hb (r := .rdbal) (by decide) (baseLow s.initStep6.cfg.rxDescBase)).writeNamed
    hwf clear hb (r := .rdbah) (by decide) (baseHigh s.initStep6.cfg.rxDescBase)).writeNamed hwf clear hb (r := .rdlen)
    (by decide) ringLength).writeNamed hwf clear hb (r := .rdh) (by decide) 0).writeNamed hwf clear hb (r := .rdt)
    (by decide) 7
  have seven' : RxUntouched c b s.initStep6.initStep7 :=
    ⟨seven.toRxOff.of_nic ⟨seven.cfg, seven.base, seven.bus⟩ rfl, seven.bytes⟩
  have eight := (seven'.writeNamed hwf clear hb (r := .macfLo) (by decide)
    (macfLo s.initStep6.initStep7.mac)).writeNamed hwf clear hb (r := .macfHi) (by decide)
    (macfHi s.initStep6.initStep7.mac)
  exact ⟨eight.toRxOff.of_nic ⟨eight.cfg, eight.base, eight.bus⟩ rfl, eight.bytes⟩

/-- Settles O31: out of reset and not enabled, the receiver writes nothing. -/
theorem rxRingUntouchedUntilEnabled : Obligations.RxRingUntouchedUntilEnabled := by
  rintro s hwf clear hb bus completes i m rfl
  exact readLE_of_rxDescByte fun k hk =>
    ((State.initReset_rxOff hwf hb bus completes).initStep8 hwf clear hb).bytes i k hk

/-! ### The TX ring at the end of INIT -/

theorem Settled.setPhase {c : Cfg} {b : Word} {s : State} (h : Settled c b s) (p : Phase) : Settled c b (s.setPhase p) :=
  h.same ⟨h.cfg, h.base, h.bus⟩ (Nic.TxSame.refl _)

theorem Settled.setMem {c : Cfg} {b : Word} {s : State} (h : Settled c b s) (m : Memory) : Settled c b (s.setMem m) :=
  h.same ⟨h.cfg, h.base, h.bus⟩ (Nic.TxSame.refl _)

/-- Steps 9 and 10. -/
theorem Settled.initStep10 {c : Cfg} {b : Word} (hwf : c.WF) (hb : b ≠ 0) {s : State} (h : Settled c b s) :
    Settled c b s.initStep9.initStep10 := by
  have nine : Settled c b s.initStep9 :=
    (h.writeNamed hwf hb (r := .rctl) (by decide) (by decide) (by decide) (rctlValue s.cfg)).setPhase .rxEnabled
  have ring := writesRing_tx (R := Settled c b) hwf fun _ h => h.cfg
  exact ring.kept (settled_kept c b) (fun _ m hu => hu.setMem m) allSlots nine

/-- The controller's head is slot 0 besides. -/
structure HeadZero (c : Cfg) (b : Word) (s : State) : Prop extends Settled c b s where
  head : s.nic.txHead = some 0

theorem headZero_kept (c : Cfg) (b : Word) : Kept (HeadZero c b) where
  turn := fun s h => ⟨(settled_kept c b).turn s h.toSettled, h.turn.txHead.trans h.head⟩
  record := fun s e h => ⟨(settled_kept c b).record s e h.toSettled, h.head⟩

/-- The head register takes 0 (R172). -/
theorem Settled.writeHead {c : Cfg} {b : Word} (hwf : c.WF) (hb : b ≠ 0) {s : State} (h : Settled c b s) :
    HeadZero c b (s.writeNamed .tdh 0) := by
  have u := (settled_kept c b).turn s h
  refine (headZero_kept c b).afterWrite ?_
  have bus := u.toOnBus.regWriteEffect (s.nicTurn.cfg.offset .tdh) 0
  have nic := u.toOnBus.regWriteEffect_nic hwf hb .tdh 0
  have holds : ∀ i, (s.nicTurn.nic.take s.nicTurn.cfg s.nicTurn.mem .tdh 0).txHolds i = false := fun i => by
    simp [Nic.take, Nic.takeHead, Nic.txHolds, u.txGiven, u.ended]
  exact ⟨⟨⟨bus, by rw [nic]; exact u.ended, by rw [nic]; exact ⟨u.owns.1, holds⟩⟩, by rw [nic]; exact u.txGiven,
    by rw [nic]; exact u.txTail⟩, by rw [nic]; rfl⟩

/-- Tail 0 written over head 0, with slot 7 marked as already sent, leaves the ring empty (R171, R172). -/
theorem Nic.takeTail_ownsNoTxSlot {n : Nic} (head : n.txHead = some 0) (tail : n.txTail = none) (jobs : n.txJobs = []) :
    (n.takeTail false 0).OwnsNoTxSlot := by
  refine ⟨jobs, fun i => ?_⟩
  simp [Nic.takeTail, Nic.txHolds, slotAt, head, tail, slotOf]

/-- The tail register takes 0 (R172). -/
theorem HeadZero.writeTail {c : Cfg} {b : Word} (hwf : c.WF) (hb : b ≠ 0) {s : State} (h : HeadZero c b s)
    (marked : TxMarkedDone c b 7 s) : TxOut c b (s.writeNamed .tdt 0) := by
  have u := (headZero_kept c b).turn s h
  have done := ((txMarkedDone_kept hwf b 7).turn s marked).done
  refine (txOut_kept c b).afterWrite ?_
  have bus := u.toOnBus.regWriteEffect (s.nicTurn.cfg.offset .tdt) 0
  have nic := u.toOnBus.regWriteEffect_nic hwf hb .tdt 0
  have sent : slotMarked s.nicTurn.cfg s.nicTurn.mem 0 = false := by
    rw [slotMarked, u.cfg, show slotOf 0 - 1 = 7 by decide, done]
    rfl
  rw [Nic.take, sent] at nic
  exact ⟨bus, by rw [nic]; exact u.ended, by rw [nic]; exact Nic.takeTail_ownsNoTxSlot u.head u.txTail u.owns.1⟩

/-- Steps 11 and 12, with the TX ring as step 10 left it. -/
theorem Settled.initStep12 {c : Cfg} {b : Word} (hwf : c.WF) (clear : c.windowClear b) (hb : b ≠ 0) {s : State}
    (h : Settled c b s) (marked : TxMarkedDone c b 7 s) : s.initStep11.initStep12.nic.OwnsNoTxSlot := by
  have lengths := ((h.writeNamed hwf hb (r := .tdbal) (by decide) (by decide) (by decide)
    (baseLow s.cfg.txDescBase)).writeNamed hwf hb (r := .tdbah) (by decide) (by decide) (by decide)
    (baseHigh s.cfg.txDescBase)).writeNamed hwf hb (r := .tdlen) (by decide) (by decide) (by decide) ringLength
  have marks := (((marked.writeNamed hwf clear .tdbal (baseLow s.cfg.txDescBase)).writeNamed hwf clear .tdbah
    (baseHigh s.cfg.txDescBase)).writeNamed hwf clear .tdlen ringLength).writeNamed hwf clear .tdh 0
  have gap := ((lengths.writeHead hwf hb).writeTail hwf hb marks).writeNamed hwf hb (r := .tipg) (by decide) (by decide)
    (by decide) s.cfg.tipgValue
  have eleven : TxOut c b s.initStep11 := gap.same ⟨gap.cfg, gap.base, gap.bus⟩ (Nic.TxSame.refl _)
  exact (eleven.writeNamed hwf hb (r := .tctl) (by decide) (by decide) (by decide) (tctlValue s.initStep11.cfg)).owns

/-- Under `ResetCompletes` the controller owns no TX slot after `INIT`. -/
theorem State.init_ownsNoTxSlot {s : State} (hwf : s.cfg.WF) (clear : s.cfg.windowClear s.base) (hb : s.base ≠ 0)
    (bus : s.BusEnabled) (completes : ResetCompletes s) :
    s.initReset.initReceive.initTransmit.nic.OwnsNoTxSlot := by
  have eight := (State.initReset_rxOff hwf hb bus completes).initStep8 hwf clear hb
  have ten := eight.toSettled.initStep10 hwf hb
  have nine := s.initReceive_calm
  rw [State.initReceive] at nine
  rw [State.initTransmit, State.initReceive]
  generalize s.initReset.initStep6.initStep7.initStep8.initStep9 = u9 at ten nine
  have marked := State.initStep10_marks hwf nine.1.1 7
  rw [nine.2] at marked
  exact ten.initStep12 hwf clear hb marked

/-- Settles O26. -/
theorem initLeavesReadySession : Obligations.InitLeavesReadySession := by
  intro s clear
  obtain ⟨txTail, rxTail, phase⟩ := s.init_session
  have keeps := s.init_init _ (RegsIn.of_windowClear clear _) fun _ h => h
  have owns := fun hwf => State.init_ownsNoTxSlot (s := s) hwf clear
  refine ⟨_, exec_init s, State.respond_response _ _, ?_⟩
  generalize s.initReset.initReceive.initTransmit = u at txTail rxTail phase keeps owns
  exact ⟨phase, txTail, rxTail, keeps.base, ⟨keeps.run.cfg, keeps.run.mac, keeps.run.caller⟩, keeps.pciCommand,
    keeps.run.frame, owns⟩

end Sys2Proof.Machine
end

section
/-! PROOF. A send may succeed and may time out from every state that is enabled on the bus (R88, R201, R202). -/

namespace Sys2Proof.Machine

/-! ### A controller that makes its accesses at one event -/

/-- The controller does nothing before the next `n` events of the block and makes the accesses `ms` before the one after
them. -/
def Waits (n : Nat) (ms : List NicMove) (s : State) : Prop := s.env.script = List.replicate n [] ++ [ms]

theorem Waits.nicTurn {n : Nat} {ms : List NicMove} {s : State} (h : Waits (n + 1) ms s) :
    s.nicTurn = { s with env := s.env.advance } := by
  have none : s.env.moves = [] := by
    simp only [Env.moves]
    rw [h, List.replicate_succ]
    rfl
  rw [State.nicTurn, none]
  rfl

theorem Waits.turned {n : Nat} {ms : List NicMove} {s : State} (h : Waits (n + 1) ms s) : Waits n ms s.nicTurn := by
  show s.env.script.tail = _
  rw [h, List.replicate_succ]
  rfl

theorem Waits.moves {ms : List NicMove} {s : State} (h : Waits 0 ms s) : s.env.moves = ms := by
  have script : s.env.script = [ms] := h
  simp only [Env.moves]
  rw [script]

/-- `n` events of the block that leave the controller to its turns. -/
structure Idles (n : Nat) (s t : State) : Prop where
  run : ∀ k ms, Waits (n + k) ms s → Waits k ms t ∧ t.nic = s.nic

theorem Idles.refl (s : State) : Idles 0 s s := ⟨fun k ms h => ⟨by rwa [Nat.zero_add] at h, rfl⟩⟩

theorem Idles.trans {m n : Nat} {s t u : State} (h : Idles m s t) (g : Idles n t u) : Idles (m + n) s u := by
  refine ⟨fun k ms waits => ?_⟩
  rw [Nat.add_assoc] at waits
  obtain ⟨waits, nic⟩ := h.run _ _ waits
  obtain ⟨waits', nic'⟩ := g.run _ _ waits
  exact ⟨waits', nic'.trans nic⟩

/-- One event that does nothing to the controller itself. -/
theorem Idles.of_turn {s t : State} (env : t.env = s.nicTurn.env) (nic : t.nic = s.nicTurn.nic) : Idles 1 s t := by
  refine ⟨fun k ms waits => ?_⟩
  rw [Nat.add_comm] at waits
  refine ⟨?_, by rw [nic, waits.nicTurn]⟩
  rw [Waits, env]
  exact waits.turned

theorem State.memWrite_idles (s : State) (a : Addr) (n : Nat) (v : BitVec 64) : Idles 1 s (s.memWrite a n v) :=
  .of_turn rfl rfl

theorem State.memRead_idles (s : State) (a : Addr) (n : Nat) : Idles 1 s (s.memRead a n).2 := .of_turn rfl rfl

theorem State.fence_idles (s : State) : Idles 1 s s.fence := .of_turn rfl rfl

theorem State.writeBytes_idles (bs : List Byte) (s : State) (a : Addr) : Idles bs.length s (s.writeBytes a bs) := by
  induction bs generalizing s a with
  | nil => exact .refl s
  | cons b bs ih =>
    rw [List.length_cons, Nat.add_comm]
    exact (s.memWrite_idles a 1 _).trans (ih _ _)

theorem State.readBytes_idles (n : Nat) (s : State) (a : Addr) : Idles n s (s.readBytes a n).2 := by
  induction n generalizing s a with
  | zero => exact .refl s
  | succ n ih =>
    have both := (s.memRead_idles a 1).trans (ih (s.memRead a 1).2 (a + 1))
    rw [Nat.add_comm] at both
    exact both

theorem State.insertChecksum_idles (s : State) (b : Addr) (start len field : Nat) :
    Idles (len + 1 + 1) s (s.insertChecksum b start len field) :=
  ((s.readBytes_idles len _).trans (State.memWrite_idles _ _ 1 _)).trans (State.memWrite_idles _ _ 1 _)

/-- The builder has 186 events. -/
theorem State.buildFrame_idles (s : State) (seq : Half) : Idles 186 s (s.buildFrame seq) :=
  ((s.writeBytes_idles (rawFrame s.cfg s.mac seq) _).trans (State.insertChecksum_idles _ _ 14 20 24)).trans
    (State.insertChecksum_idles _ _ 34 64 36)

theorem State.filled_idles (s : State) (seq : Half) : Idles 189 s (s.filled seq) :=
  (s.buildFrame_idles seq).trans (((State.memWrite_idles _ _ 2 _).trans (State.memWrite_idles _ _ 1 _)).trans
    (State.memWrite_idles _ _ 1 _))

/-! ### What the controller finds when the slot is handed over -/

/-- The controller's state after the block has written its tail with the slot after `i`: if the window is not discovered,
anything; else slot `i` is handed over. -/
def handedOver (base : Word) (n : Nic) (i : Slot) : Nic :=
  if base = 0 then { n.disturbed with regs := n.regs.set .tdt (slotWord (nextSlot i)) }
  else { n.takeTail true (slotWord (nextSlot i)) with regs := n.regs.set .tdt (slotWord (nextSlot i)) }

theorem slotAt_slotWord (i : Slot) : slotAt (slotWord i) = some i := by revert i; decide

theorem slotOf_slotWord_nextSlot (i : Slot) : slotOf (slotWord (nextSlot i)) - 1 = i := by revert i; decide

theorem State.nicAfterNamed_tdt {s : State} (bus : s.BusEnabled) (i : Slot)
    (marked : s.mem.read (txDesc s.cfg i + txdStatus).toNat = 0) :
    s.nicAfterNamed .tdt (slotWord (nextSlot i)) = handedOver s.base s.nic i := by
  have mark : slotMarked s.cfg s.mem (slotWord (nextSlot i)) = true := by
    rw [slotMarked, slotOf_slotWord_nextSlot, txDone, marked]
    rfl
  by_cases hb : s.base = 0
  · rw [State.nicAfterNamed, bus.2, if_neg (by decide), if_pos hb, handedOver, if_pos hb]
  · rw [State.nicAfterNamed_eq_take hb bus, handedOver, if_neg hb, Nic.take, mark]

/-- Publishing: after the tail write the slot is handed over, and the controller's accesses come before the next event. -/
theorem State.publishTx_handsOver {s : State} {ms : List NicMove} (hwf : s.cfg.WF) (bus : s.BusEnabled) (i : Slot)
    (waits : Waits 3 ms s) (marked : s.mem.read (txDesc s.cfg i + txdStatus).toNat = 0) :
    (s.publishTx i).nic = handedOver s.base s.nic i ∧ Waits 0 ms (s.publishTx i) := by
  have fenceTurn := waits.nicTurn
  have waits2 : Waits 2 ms s.fence := (s.fence_idles.run 2 ms waits).1
  have fenceNic := (s.fence_idles.run 2 ms waits).2
  have fence := s.fence_op fun _ => False
  have fenceMem : s.fence.mem = s.mem := by
    show s.nicTurn.mem = s.mem
    rw [fenceTurn]
  have fenceBus : s.fence.BusEnabled := BusEnabled_congr fence.cfg s.fence_opNic.pciCommand bus
  have writeTurn := waits2.nicTurn
  have writeNic : s.fence.nicTurn.nic = s.nic := by rw [writeTurn]; exact fenceNic
  have waits1 := waits2.turned
  have effect : (s.fence.busWrite (s.fence.cfg.offset .tdt) (slotWord (nextSlot i))).nic =
      handedOver s.base s.nic i := by
    have named := State.nicAfterNamed_tdt (s := s.fence.nicTurn)
      (BusEnabled_congr s.fence.nicTurn_cfg s.fence.nicTurn_pciCommand fenceBus) i
      (by rw [writeTurn, fenceMem, fence.cfg]; exact marked)
    rw [State.nicTurn_base, fence.base, writeNic] at named
    show s.fence.nicTurn.nicAfterWrite _ _ = _
    rw [State.nicAfterWrite, ← s.fence.nicTurn_cfg, regAt_offset (by rw [State.nicTurn_cfg, fence.cfg]; exact hwf)]
    exact named
  have waitsWrite : Waits 1 ms (s.fence.busWrite (s.fence.cfg.offset .tdt) (slotWord (nextSlot i))) := waits1
  obtain ⟨waits0, nic⟩ := (State.fence_idles _).run 0 ms waitsWrite
  exact ⟨nic.trans effect, waits0⟩

/-- The first half of a send by a controller that waits until it is over. -/
theorem State.enqueue_handsOver {s : State} {ms : List NicMove} (hwf : s.cfg.WF) (bus : s.BusEnabled) (seq : Half)
    (waits : Waits 192 ms s) :
    (s.enqueue seq).nic = handedOver s.base s.nic (slotOf s.txTail) ∧ Waits 0 ms (s.enqueue seq) := by
  obtain ⟨waits3, nic⟩ := (s.filled_idles seq).run 3 ms waits
  have keeps := s.filled_op seq
  have built := s.buildFrame_op seq _ fun _ _ => trivial
  have pci : (s.filled seq).pciCommand = s.pciCommand :=
    (State.fillTxDesc_opNic _ _).pciCommand.trans (s.buildFrame_opNic seq).pciCommand
  have marked : (s.filled seq).mem.read (txDesc (s.filled seq).cfg (slotOf s.txTail) + txdStatus).toNat = 0 := by
    rw [keeps.cfg, ← built.cfg]
    exact Memory.read_writeLE_byte _ _ 0
  have published := State.publishTx_handsOver (by rw [keeps.cfg]; exact hwf) (BusEnabled_congr keeps.cfg pci bus)
    (slotOf s.txTail) waits3 marked
  rw [keeps.base, nic] at published
  exact published

/-! ### The accesses that complete a send -/

/-- The controller takes the slots from `h` on, `d` of them and one more. -/
def fetches (h : Slot) : Nat → List NicMove
  | 0 => [.txFetch h]
  | d + 1 => .txFetch h :: fetches (nextSlot h) d

/-- The controller, running, has its head at `h` and its tail at `t`, and slot `i` is handed over to it. -/
structure Queued (i h t : Slot) (s : State) : Prop where
  master : s.mastersBus = true
  on : s.nic.txOn = true
  given : s.nic.txGiven = true
  head : s.nic.txHead = some h
  tail : s.nic.txTail = some t
  ahead : s.nic.txFull = true ∧ h = t ∨ s.nic.txFull = false ∧ (i - h).val < (t - h).val

/-- The slot at the head is taken. -/
theorem Queued.fetch {i h t : Slot} {s : State} (q : Queued i h t s) :
    s.nicMove (.txFetch h) = { s with nic := { s.nic with
      txHead := some (nextSlot h), txFull := false, txJobs := s.nic.txJobs ++ [⟨h, false, [], []⟩] } } := by
  have holds : s.nic.txHolds h = true := by
    rcases q.ahead with ⟨full, -⟩ | ⟨-, lt⟩
    · simp [Nic.txHolds, q.given, q.head, q.tail, full]
    · have pos : 0 < (t - h).val := by omega
      simp [Nic.txHolds, q.given, q.head, q.tail, -Fin.val_pos_iff, pos]
  show s.txFetch h = _
  rw [State.txFetch, if_pos (by simp [q.master, Nic.transmits, q.on, Nic.txOffers, holds, q.head]), q.head]
  rfl

/-- Slot `i` is the `k`-th taken; memory is as before. -/
structure Taken (i : Slot) (k : Nat) (s t : State) : Prop where
  cfg : t.cfg = s.cfg
  mem : t.mem = s.mem
  master : t.mastersBus = true
  job : t.nic.txJobs[k]? = some ⟨i, false, [], []⟩

theorem ahead_nextSlot : ∀ i h t : Slot, i ≠ h → h = t ∨ (i - h).val < (t - h).val →
    (i - nextSlot h).val < (t - nextSlot h).val ∧ (i - nextSlot h).val + 1 = (i - h).val := by decide

/-- The controller takes every slot from its head up to `i`. -/
theorem Queued.fetches {i t : Slot} (d : Nat) : ∀ {h : Slot} {s : State}, Queued i h t s → (i - h).val = d →
    Taken i (s.nic.txJobs.length + d) s ((fetches h d).foldl State.nicMove s) := by
  induction d with
  | zero =>
    intro h s q hd
    obtain rfl : i = h := by
      have := Fin.ext (a := i - h) (b := 0) hd
      exact sub_eq_zero.1 this
    have fetched := q.fetch
    show Taken i _ s (s.nicMove (.txFetch i))
    rw [fetched]
    exact ⟨rfl, rfl, q.master, by simp⟩
  | succ d ih =>
    intro h s q hd
    have fetched := q.fetch
    have hih : i ≠ h := by
      rintro rfl
      simp at hd
    obtain ⟨next, count⟩ := ahead_nextSlot i h t hih (q.ahead.imp And.right And.right)
    have q' : Queued i (nextSlot h) t (s.nicMove (.txFetch h)) := by
      rw [fetched]
      exact ⟨q.master, q.on, q.given, rfl, q.tail, Or.inr ⟨rfl, next⟩⟩
    have rest := ih q' (by omega)
    have length : (s.nicMove (.txFetch h)).nic.txJobs.length = s.nic.txJobs.length + 1 := by
      rw [fetched]
      simp
    have mem : (s.nicMove (.txFetch h)).mem = s.mem := by rw [fetched]
    refine ⟨rest.cfg.trans (s.nicMove_keeps _).cfg, rest.mem.trans mem, rest.master, ?_⟩
    have job := rest.job
    rw [length, Nat.add_assoc, Nat.add_comm 1 d] at job
    exact job

/-- The accesses by which the controller fetches and reports the `k`-th slot taken, whose frame has `n` bytes. -/
def reportMoves (k n : Nat) : List NicMove :=
  List.replicate 16 (.txDescByte k) ++ List.replicate n (.txFrameByte k) ++ [.txStatus k 1]

/-- The controller completes a slot it has taken, if the descriptor in memory asks for a report. -/
theorem State.report_done {s : State} {i : Slot} {k n : Nat} (master : s.mastersBus = true)
    (job : s.nic.txJobs[k]? = some ⟨i, false, [], []⟩)
    (len : (s.mem.readLE 2 (txDesc s.cfg i + txdLen)).toNat = n)
    (asks : (s.mem.readLE 1 (txDesc s.cfg i + txdCmd)).setWidth 8 &&& s.cfg.txcmdRs = s.cfg.txcmdRs) :
    txDone s.cfg ((reportMoves k n).foldl State.nicMove s).mem i = true := by
  have desc := descField_bytesAt s.mem (txDesc s.cfg i) txdLen 2 16 (by decide)
  have cmd := descField_bytesAt s.mem (txDesc s.cfg i) txdCmd 1 16 (by decide)
  rw [reportMoves, List.foldl_append, List.foldl_append, State.fetch_desc master job (by decide)]
  have described := State.setTxJob_get (j := ⟨i, false, bytesAt s.mem (txDesc s.cfg i) 16, []⟩) job
  rw [State.fetch_frame (n := n) (by simpa using master) described (by simp [Config.descSize]) (by rw [desc, len])]
  have fetched := State.setTxJob_get (j := ⟨i, false, bytesAt s.mem (txDesc s.cfg i) 16,
    bytesAt s.mem (descField (bytesAt s.mem (txDesc s.cfg i) 16) txdAddr 8) n⟩) described
  have due : TxJob.due s.cfg ⟨i, false, bytesAt s.mem (txDesc s.cfg i) 16,
      bytesAt s.mem (descField (bytesAt s.mem (txDesc s.cfg i) 16) txdAddr 8) n⟩ = true := by
    simp [TxJob.due, TxJob.fetched, TxJob.described, asksReport, Config.descSize, desc, cmd, len, asks]
  rw [List.foldl_cons, List.foldl_nil, State.setTxJob_mem,
    State.txStatus_done (v := 1) (by simpa using master) fetched (by decide) due]
  exact congrArg doneBit (Memory.read_writeLE_byte _ _ 1)

/-- The slot at an unknown head, which may be `i`, is taken. -/
theorem State.fetch_of_unknown_head {s : State} {i : Slot} (master : s.mastersBus = true) (on : s.nic.txOn = true)
    (given : s.nic.txGiven = true) (head : s.nic.txHead = none) :
    Taken i s.nic.txJobs.length s (s.nicMove (.txFetch i)) := by
  have fetched : s.nicMove (.txFetch i) = { s with nic := { s.nic with
      txHead := s.nic.txHead.map nextSlot, txFull := false, txJobs := s.nic.txJobs ++ [⟨i, false, [], []⟩] } } := by
    show s.txFetch i = _
    rw [State.txFetch, if_pos (by simp [master, Nic.transmits, on, Nic.txOffers, Nic.txHolds, given, head])]
  rw [fetched]
  exact ⟨rfl, rfl, master, by simp⟩

/-- How many slots the controller takes before slot `i`. -/
def slotsBefore (head : Option Slot) (i : Slot) : Nat :=
  match head with
  | none => 0
  | some h => (i - h).val

/-- The accesses by which the controller completes the send of slot `i` that was handed over to it (R88): where it may
hold any slot it reports this one; else it runs, takes the slots up to it, fetches and reports it. -/
def completion (base : Word) (n : Nic) (i : Slot) : List NicMove :=
  if base = 0 then [.txStatus i.val 1]
  else .txStart :: (fetches (n.txHead.getD i) (slotsBefore n.txHead i) ++
    reportMoves (n.txJobs.length + slotsBefore n.txHead i) 98)

/-- A controller to which slot `i` was handed over takes it once it runs. -/
theorem State.handedOver_taken {s : State} {base : Word} {n : Nic} {i : Slot} (hb : base ≠ 0)
    (master : s.mastersBus = true) (nic : s.nic = { handedOver base n i with txOn := true }) :
    Taken i (n.txJobs.length + slotsBefore n.txHead i) s
      ((fetches (n.txHead.getD i) (slotsBefore n.txHead i)).foldl State.nicMove s) := by
  have tail := slotAt_slotWord (nextSlot i)
  rw [handedOver, if_neg hb] at nic
  have jobs : s.nic.txJobs = n.txJobs := by rw [nic]; rfl
  have on : s.nic.txOn = true := by rw [nic]
  have given : s.nic.txGiven = true := by rw [nic]; rfl
  have headEq : s.nic.txHead = n.txHead := by rw [nic]; rfl
  have tailEq : s.nic.txTail = some (nextSlot i) := by rw [nic]; exact tail
  have fullEq : s.nic.txFull = (n.txHead == some (nextSlot i)) := by
    rw [nic]
    simp [Nic.takeTail, tail]
  rw [← jobs]
  cases head : n.txHead with
  | none => exact State.fetch_of_unknown_head master on given (headEq.trans head)
  | some h =>
    have ahead : ∀ i h : Slot, h ≠ nextSlot i → (i - h).val < (nextSlot i - h).val := by decide
    refine Queued.fetches (t := nextSlot i) (i - h).val ⟨master, on, given, headEq.trans head, tailEq, ?_⟩ rfl
    rw [fullEq, head]
    by_cases full : h = nextSlot i
    · exact Or.inl ⟨by simp [full], full⟩
    · exact Or.inr ⟨by simp [full], ahead i h full⟩

/-- The send of a slot that was handed over with its descriptor asking for a report is completed. -/
theorem State.completion_done {s : State} {base : Word} {n : Nic} {i : Slot} (master : s.mastersBus = true)
    (nic : s.nic = handedOver base n i) (len : (s.mem.readLE 2 (txDesc s.cfg i + txdLen)).toNat = 98)
    (asks : (s.mem.readLE 1 (txDesc s.cfg i + txdCmd)).setWidth 8 &&& s.cfg.txcmdRs = s.cfg.txcmdRs) :
    txDone s.cfg ((completion base n i).foldl State.nicMove s).mem i = true := by
  rw [completion]
  split_ifs with hb
  · have job : s.nic.txJobs[i.val]? = some ⟨i, true, [], []⟩ := by
      have any : ∀ i : Slot, staleJobs[i.val]? = some ⟨i, true, [], []⟩ := by decide
      rw [nic, handedOver, if_pos hb]
      exact any i
    rw [List.foldl_cons, List.foldl_nil, State.txStatus_done (v := 1) master job (by decide) rfl]
    exact congrArg doneBit (Memory.read_writeLE_byte _ _ 1)
  · rw [List.foldl_cons, List.foldl_append]
    have running : (s.nicMove .txStart).nic = { handedOver base n i with txOn := true } :=
      congrArg (fun m : Nic => { m with txOn := true }) nic
    have taken := State.handedOver_taken hb (s := s.nicMove .txStart) master running
    generalize (fetches (n.txHead.getD i) (slotsBefore n.txHead i)).foldl State.nicMove (s.nicMove .txStart) = t at taken
    have cfg : t.cfg = s.cfg := taken.cfg
    have mem : t.mem = s.mem := taken.mem
    have done := State.report_done (n := 98) taken.master taken.job (by rw [cfg, mem]; exact len)
      (by rw [cfg, mem]; exact asks)
    rw [cfg] at done
    exact done

/-! ### Both results of a send -/

theorem txCommand_and_txcmdRs (c : Cfg) : txCommand c &&& c.txcmdRs = c.txcmdRs := by
  refine BitVec.eq_of_getLsbD_eq fun k _ => ?_
  rw [txCommand, BitVec.getLsbD_and, BitVec.getLsbD_or]
  cases c.txcmdRs.getLsbD k <;> simp

/-- The descriptor of a slot handed over: its length is that of the frame and it asks for a report. -/
theorem State.enqueue_desc {s : State} (hwf : s.cfg.WF) (clear : s.cfg.windowClear s.base) (seq : Half) :
    ((s.enqueue seq).mem.readLE 2 (txDesc s.cfg (slotOf s.txTail) + txdLen)).toNat = 98 ∧
    ((s.enqueue seq).mem.readLE 1 (txDesc s.cfg (slotOf s.txTail) + txdCmd)).setWidth 8 = txCommand s.cfg := by
  have field : ∀ {k : Nat} {b : Byte}, k < 16 → k ≠ 12 → fieldsByte (sendFields s.cfg) k = some b →
      (s.enqueue seq).mem.read (txDesc s.cfg (slotOf s.txTail) + BitVec.ofNat 64 k).toNat = b := fun hk hs byte =>
    (State.sent_read (seq := seq) clear (q := False) False.elim (Or.inr (not_nicMay_txDesc hwf _ hk hs))).1.trans
      (State.filled_field hwf seq hk hs byte)
  refine ⟨?_, ?_⟩
  · have value := Memory.readLE_eq_of_bytes (m := (s.enqueue seq).mem) (n := 2) (v := 98)
      (a := txDesc s.cfg (slotOf s.txTail) + txdLen) (by decide) (by decide) fun k hk => by
        rw [show txDesc s.cfg (slotOf s.txTail) + txdLen + BitVec.ofNat 64 k =
          txDesc s.cfg (slotOf s.txTail) + BitVec.ofNat 64 (8 + k) from addr_add_ofNat _ 8 k]
        exact field (by omega) (by omega) (sendFields_len s.cfg hk)
    rw [value]
    rfl
  · have command := field (k := 11) (by decide) (by decide) (sendFields_cmd s.cfg)
    rw [Memory.readLE_one, show txDesc s.cfg (slotOf s.txTail) + txdCmd =
      txDesc s.cfg (slotOf s.txTail) + BitVec.ofNat 64 11 from rfl, command]
    simp

/-- A poll that finds the done bit set at its first read succeeds (R201). -/
theorem State.pollTx_of_done {s : State} {i : Slot} {n : Nat} (hn : 1 ≤ n) (done : txDone s.cfg s.nicTurn.mem i = true) :
    (State.pollTx i n s).1 = true := by
  obtain ⟨p, rfl⟩ : ∃ p, n = p + 1 := ⟨n - 1, by omega⟩
  have read : doneBit (s.readByte (txDesc s.cfg i + txdStatus)).1 = true := by
    rw [State.readByte_fst]
    exact done
  rw [State.pollTx, if_pos read]

/-- The environment in which the controller makes the accesses `ms` before the first poll of a send and none else. -/
def Env.atFirstPoll (e : Env) (ms : List NicMove) : Env := { e with script := List.replicate 192 [] ++ [ms] }

/-- The environment in which the controller makes no access. -/
def Env.quieted (e : Env) : Env := { e with script := [], silent := true }

theorem sendEcho_succeeds {s : State} (hwf : s.cfg.WF) (clear : s.cfg.windowClear s.base) (bus : s.BusEnabled)
    (seq : Half) (waits : Waits 192 (completion s.base s.nic (slotOf s.txTail)) s) :
    ∃ t v, exec (.sendEcho seq) s = .next t ∧ t.response = some ⟨false, true, v⟩ := by
  obtain ⟨nic, waits0⟩ := State.enqueue_handsOver hwf bus seq waits
  obtain ⟨len, command⟩ := State.enqueue_desc hwf clear seq
  have cfg := s.enqueue_cfg seq
  have pci := s.enqueue_pciCommand seq
  have poll : (State.pollTx (slotOf s.txTail) s.cfg.txPollMax (s.enqueue seq)).1 = true := by
    generalize s.enqueue seq = u at nic waits0 len command cfg pci
    refine State.pollTx_of_done hwf.2.2.1.2.1 ?_
    have done := State.completion_done (BusEnabled_congr cfg pci bus).1 nic (by rw [cfg]; exact len)
      (by rw [cfg, command]; exact txCommand_and_txcmdRs s.cfg)
    rw [← waits0.moves] at done
    exact done
  have next := exec_sendEcho seq s
  rw [poll] at next
  exact ⟨_, _, next, State.respond_response _ _⟩

/-- Settles O46: the controller that completes the slot before the first poll, and the controller that does nothing. -/
theorem sendEchoMaySucceedOrTimeOut : Obligations.SendEchoMaySucceedOrTimeOut := by
  intro seq s hwf clear bus
  refine ⟨?_, ?_⟩
  · obtain ⟨t, v, next, response⟩ := sendEcho_succeeds
      (s := { s with env := s.env.atFirstPoll (completion s.base s.nic (slotOf s.txTail)) }) hwf clear bus seq rfl
    exact ⟨_, t, v, next, response⟩
  · obtain ⟨t, -, next, response, -⟩ := sendEchoTimesOutWhenSilent seq { s with env := s.env.quieted } hwf clear
      ⟨rfl, rfl⟩ _ rfl
    exact ⟨_, t, _, next, response⟩

end Sys2Proof.Machine
end
